-- ==== Sys2Proof/Word.lean ====
section
/-! DEFINITION. The words of the TCFR: their widths (spec/30_encoding.md rule R92) and the encoded form of an
operation, which is a word of one of the four operation formats CMD, PIN, SEQ and BUS (rules R82, R85, R88, R89). -/

namespace Sys2Proof

/-- A frame, an ENTRY or a host register word: 32 bits. -/
abbrev Word32 := BitVec 32

/-- A pin id: 8 bits unsigned (spec/00_scope.md rule R10). -/
abbrev PinId := BitVec 8

/-- A register number of the host bus: 8 bits (spec/10_state.md rule R45). -/
abbrev RegNum := BitVec 8

/-- One encoded operation. The format is part of the value because the formats are presented at different ports:
a CMD word in register CMD, a PIN word on the pin port, a SEQ word in PHASE, a BUS word on the host bus. -/
inductive Encoded where
  /-- the CMD format, 16 bits (rule R82) -/
  | cmd (w : BitVec 16)
  /-- the PIN format, 11 bits (rule R85) -/
  | pin (w : BitVec 11)
  /-- the SEQ format, 3 bits (rule R89) -/
  | seq (w : BitVec 3)
  /-- the BUS format, 41 bits (rule R88) -/
  | bus (w : BitVec 41)
deriving DecidableEq, Repr

end Sys2Proof
end

