-- ==== Sys2Proof/Syntax.lean ====
section
/-! DEFINITION. The operations of the TCFR, one constructor per row of spec/opcode_table.json (24 rows: 12 commands,
3 pin transactions, 7 sequencer steps, 2 bus transactions), and the enumerations their operands range over. -/

namespace Sys2Proof

/-- The direction operand of SETDIR (rule R85: arg 0 in, 1 out). -/
inductive Dir where
  | input
  | output
deriving DecidableEq, Repr

/-- A line's level (rules R85, R112: arg or bit 0 low, 1 high). -/
inductive Level where
  | low
  | high
deriving DecidableEq, Repr

/-- The src operand of TOUNIT, VSCALE and the SCALE field of an ENTRY (rule R90): the thermocouple path counts 1/20
degree, the reference-junction path 1/80 degree. -/
inductive Path where
  | tc
  | rj
deriving DecidableEq, Repr

/-- The operations. -/
inductive Instr where
  /-- CLAIM, rule R113 -/
  | claim
  /-- RELEASE, rule R114 -/
  | release
  /-- RDFRAME ch, rule R117 -/
  | rdframe (ch : BitVec 8)
  /-- TCFIELD, rule R130 -/
  | tcfield
  /-- RJFIELD, rule R131 -/
  | rjfield
  /-- CLASSIFY, rule R140 -/
  | classify
  /-- TOUNIT src, unit, rule R145; the unit stands as its two bits, because code 3 is reserved (rule R84) -/
  | tounit (src : Path) (unit : BitVec 2)
  /-- GETRJ ch, rule R155 -/
  | getrj (ch : BitVec 8)
  /-- GET ch, rule R156 -/
  | get (ch : BitVec 8)
  /-- RDREADING ch, rule R157 -/
  | rdreading (ch : BitVec 8)
  /-- START, rule R180 -/
  | start
  /-- INTR, rule R191 -/
  | intr
  /-- SETDIR pin, dir, rule R110 -/
  | setdir (pin : PinId) (dir : Dir)
  /-- WRITE pin, level, rule R111 -/
  | write (pin : PinId) (level : Level)
  /-- READ pin, rule R112 -/
  | read (pin : PinId)
  /-- PH_BOUNDARY, rule R182 -/
  | phBoundary
  /-- PH_SAMPLE, rule R165 -/
  | phSample
  /-- PH_APPEND, rule R169 -/
  | phAppend
  /-- PH_TELEM, rule R172 -/
  | phTelem
  /-- PH_TICK, rule R185 -/
  | phTick
  /-- PH_SLEEP, rule R186 -/
  | phSleep
  /-- PH_HALT, rule R173 -/
  | phHalt
  /-- REGRD rn, rule R195 -/
  | regrd (rn : RegNum)
  /-- REGWR rn, wdata, rule R196 -/
  | regwr (rn : RegNum) (wdata : Word32)
deriving DecidableEq, Repr

end Sys2Proof
end

