-- ==== Sys2Proof/WellFormed.lean ====
section
/-! DEFINITION. Which terms of `Instr` some word of the encoding stands for. Every operand but one takes every value
its field holds; TOUNIT's unit code 3 is reserved and its words are illegal (spec/30_encoding.md rule R84). -/

namespace Sys2Proof

/-- The operation has an encoding: TOUNIT's unit is not the reserved code 3 (rules R84, R145). -/
def Instr.wellFormed : Instr → Bool
  | .tounit _ unit => unit != 3
  | .claim | .release | .rdframe _ | .tcfield | .rjfield | .classify | .getrj _ | .get _ | .rdreading _ | .start
  | .intr | .setdir _ _ | .write _ _ | .read _ | .phBoundary | .phSample | .phAppend | .phTelem | .phTick
  | .phSleep | .phHalt | .regrd _ | .regwr _ _ => true

end Sys2Proof
end

