-- ==== Sys2Proof/Decode.lean ====
section
/-! DEFINITION. The decoders of the four operation formats (spec/30_encoding.md rules R82 to R85, R88, R89), each total
on its words, then the encoder written from the same tables, and the table word of the host's check. -/

namespace Sys2Proof

/-- The bit of a direction in a PIN word: 0 in, 1 out (rule R85). -/
def Dir.bit : Dir → BitVec 1
  | .input => 0
  | .output => 1

/-- The direction a PIN word's arg bit stands for. -/
def Dir.ofBit (b : BitVec 1) : Dir := if b = 1 then .output else .input

/-- The bit of a level: 0 low, 1 high (rules R85, R112). -/
def Level.bit : Level → BitVec 1
  | .low => 0
  | .high => 1

/-- The level a bit stands for. -/
def Level.ofBit (b : BitVec 1) : Level := if b = 1 then .high else .low

/-- The bit of a path: 0 thermocouple, 1 reference junction (rule R90). -/
def Path.bit : Path → BitVec 1
  | .tc => 0
  | .rj => 1

/-- The path a bit stands for. -/
def Path.ofBit (b : BitVec 1) : Path := if b = 1 then .rj else .tc

/-! ### Fields of the formats -/

/-- CMD bits 15:11, the operation (rule R82). -/
def cmdOp (w : BitVec 16) : BitVec 5 := w.extractLsb' 11 5

/-- CMD bits 10:8, the modifier (rule R82). -/
def cmdMod (w : BitVec 16) : BitVec 3 := w.extractLsb' 8 3

/-- CMD bits 7:0, the channel index (rule R82). -/
def cmdIdx (w : BitVec 16) : BitVec 8 := w.extractLsb' 0 8

/-- PIN bits 10:9, the operation (rule R85). -/
def pinPop (w : BitVec 11) : BitVec 2 := w.extractLsb' 9 2

/-- PIN bit 8, the argument (rule R85). -/
def pinArg (w : BitVec 11) : BitVec 1 := w.extractLsb' 8 1

/-- PIN bits 7:0, the pin id (rule R85). -/
def pinPin (w : BitVec 11) : PinId := w.extractLsb' 0 8

/-- BUS bit 40, write enable (rule R88). -/
def busWe (w : BitVec 41) : BitVec 1 := w.extractLsb' 40 1

/-- BUS bits 39:32, the register number (rule R88). -/
def busRn (w : BitVec 41) : RegNum := w.extractLsb' 32 8

/-- BUS bits 31:0, the word written (rule R88). -/
def busWdata (w : BitVec 41) : Word32 := w.extractLsb' 0 32

/-! ### Decoders -/

/-- A command that uses neither modifier nor index: both fields must be zero (rule R84). -/
def plainCmd (w : BitVec 16) (i : Instr) : Option Instr :=
  if cmdMod w = 0 ∧ cmdIdx w = 0 then some i else none

/-- A command with a channel index: the modifier must be zero (rule R84). -/
def indexedCmd (w : BitVec 16) (i : BitVec 8 → Instr) : Option Instr :=
  if cmdMod w = 0 then some (i (cmdIdx w)) else none

/-- TOUNIT: mod = (src, unit), the index zero, unit 3 reserved (rules R82, R84). -/
def tounitCmd (w : BitVec 16) : Option Instr :=
  if cmdIdx w = 0 ∧ (cmdMod w).extractLsb' 0 2 ≠ 3 then
    some (.tounit (Path.ofBit ((cmdMod w).extractLsb' 2 1)) ((cmdMod w).extractLsb' 0 2))
  else none

/-- The command decoder on the 16-bit CMD word (rules R83, R84): every word selects one row or is illegal. -/
def decodeCmd (w : BitVec 16) : Option Instr :=
  match (cmdOp w).toNat with
  | 0x01 => plainCmd w .claim
  | 0x02 => plainCmd w .release
  | 0x03 => indexedCmd w .rdframe
  | 0x04 => plainCmd w .tcfield
  | 0x05 => plainCmd w .rjfield
  | 0x06 => plainCmd w .classify
  | 0x07 => tounitCmd w
  | 0x08 => indexedCmd w .getrj
  | 0x09 => indexedCmd w .get
  | 0x0A => indexedCmd w .rdreading
  | 0x0B => plainCmd w .start
  | 0x0C => plainCmd w .intr
  | _ => none

/-- The command decoder on the word written to CMD: bits 31:16 must be zero (rules R44, R84). -/
def decodeCmdWrite (wdata : Word32) : Option Instr :=
  if wdata.extractLsb' 16 16 = 0 then decodeCmd (wdata.extractLsb' 0 16) else none

/-- A PIN word (rule R85). pop 0 is "no transaction" and a READ with arg 1 does not exist: neither decodes. -/
def decodePin (w : BitVec 11) : Option Instr :=
  match (pinPop w).toNat with
  | 1 => some (.setdir (pinPin w) (Dir.ofBit (pinArg w)))
  | 2 => some (.write (pinPin w) (Level.ofBit (pinArg w)))
  | 3 => if pinArg w = 0 then some (.read (pinPin w)) else none
  | _ => none

/-- The step that PHASE names (rule R89); PHASE 7 is never produced and names none. -/
def decodeSeq (w : BitVec 3) : Option Instr :=
  match w.toNat with
  | 0 => some .phBoundary
  | 1 => some .phSample
  | 2 => some .phAppend
  | 3 => some .phTelem
  | 4 => some .phTick
  | 5 => some .phSleep
  | 6 => some .phHalt
  | _ => none

/-- A BUS word (rule R88); a read ignores wdata. Every word is a transaction. -/
def decodeBus (w : BitVec 41) : Instr :=
  if busWe w = 1 then .regwr (busRn w) (busWdata w) else .regrd (busRn w)

/-- The decoder: the operation an encoded word stands for, none for an illegal word. -/
def decode : Encoded → Option Instr
  | .cmd w => decodeCmd w
  | .pin w => decodePin w
  | .seq w => decodeSeq w
  | .bus w => some (decodeBus w)

/-! ### Encoder -/

/-- A CMD word from its three fields (rule R82). -/
def cmdWord (op : BitVec 5) (mod : BitVec 3) (idx : BitVec 8) : Encoded := .cmd (op ++ mod ++ idx)

/-- A PIN word from its three fields (rule R85). -/
def pinWord (pop : BitVec 2) (arg : BitVec 1) (pin : PinId) : Encoded := .pin (pop ++ arg ++ pin)

/-- A BUS word from its three fields (rule R88). -/
def busWord (we : BitVec 1) (rn : RegNum) (wdata : Word32) : BitVec 41 := we ++ rn ++ wdata

/-- The encoder, from the tables of rules R83, R85, R88 and R89. A read's ignored wdata is written as zero
(assumption log 16). -/
def encode : Instr → Encoded
  | .claim => cmdWord 0x01 0 0
  | .release => cmdWord 0x02 0 0
  | .rdframe ch => cmdWord 0x03 0 ch
  | .tcfield => cmdWord 0x04 0 0
  | .rjfield => cmdWord 0x05 0 0
  | .classify => cmdWord 0x06 0 0
  | .tounit src unit => cmdWord 0x07 (src.bit ++ unit) 0
  | .getrj ch => cmdWord 0x08 0 ch
  | .get ch => cmdWord 0x09 0 ch
  | .rdreading ch => cmdWord 0x0A 0 ch
  | .start => cmdWord 0x0B 0 0
  | .intr => cmdWord 0x0C 0 0
  | .setdir pin dir => pinWord 1 dir.bit pin
  | .write pin level => pinWord 2 level.bit pin
  | .read pin => pinWord 3 0 pin
  | .phBoundary => .seq 0
  | .phSample => .seq 1
  | .phAppend => .seq 2
  | .phTelem => .seq 3
  | .phTick => .seq 4
  | .phSleep => .seq 5
  | .phHalt => .seq 6
  | .regrd rn => .bus (busWord 0 rn 0)
  | .regwr rn wdata => .bus (busWord 1 rn wdata)

/-! ### The opcode table's own words -/

/-- The encoded word that an opcode-table row of `nbits` bits (in whole bytes) with the bits `w` stands for. A SEQ row
fills one byte, a CMD or PIN row two, a BUS row six. CMD and PIN rows share the length of two bytes and are told apart by
value: a PIN word has 11 bits and is below 0x0800, where CMD has no legal word (op 0x00, rule R84). Assumption log 15. -/
def tableWord (nbits w : Nat) : Option Encoded :=
  if nbits ≤ 8 then (if w < 2 ^ 3 then some (.seq (BitVec.ofNat 3 w)) else none)
  else if nbits ≤ 16 then
    (if w < 2 ^ 11 then some (.pin (BitVec.ofNat 11 w))
     else if w < 2 ^ 16 then some (.cmd (BitVec.ofNat 16 w)) else none)
  else (if w < 2 ^ 41 then some (.bus (BitVec.ofNat 41 w)) else none)

/-- The operation the decoder reads from an opcode-table word. -/
def decodeTableWord (nbits w : Nat) : Option Instr := (tableWord nbits w).bind decode

end Sys2Proof
end

