-- ==== Sys2Proof/Config.lean ====
section
/-! DEFINITION. What a run of the TCFR is given from outside and no step changes: the implementation parameters of
spec/00_scope.md rule R9, and the free values that stand for the environment's draws (spec/20_memory.md rule R63).
An opaque constant below has no body: no proof can learn a value of it. -/

namespace Sys2Proof

/-- The two sizes the spec leaves open as named arguments of the model (rule R9), with the defaults the rule gives.
They are fixed for a run (rule R55 (a)); `State` carries them so that a statement about every state speaks of every
choice of them (assumption log 2). -/
structure Params where
  /-- NCH_MAX, the largest number of channels the tables hold, 1 to 32. -/
  nchMax : Nat := 8
  /-- BUF_DEPTH, the largest number of columns the buffer holds, 1 to 2^32 - 1. -/
  bufDepth : Nat := 2 ^ 32 - 1
deriving DecidableEq, Repr

/-- The constraints of rule R9 on the parameters. -/
abbrev Params.wf (p : Params) : Prop :=
  1 ≤ p.nchMax ∧ p.nchMax ≤ 32 ∧ 1 ≤ p.bufDepth ∧ p.bufDepth ≤ 2 ^ 32 - 1

/-- TIME_UNIT (rule R9): the duration one count of INTERVAL stands for. No rule reads it, and nothing here does. -/
opaque Config.timeUnit : Nat

/-- Free value: does the pin transaction number `n` of the run succeed? Drawn by the environment under no law
(rules R63 (b), R115; 93_implementation_defined.md U3). Assumption log 1. -/
opaque Config.pinOk : Nat → Bool

/-- Free value: the level the environment shows a READ that is pin transaction number `n` of the run, true for high
(rules R63 (a), R112; 93_implementation_defined.md U1). Assumption log 1. -/
opaque Config.pinLevel : Nat → Bool

end Sys2Proof
end

