-- ==== Sys2Proof/Machine/State.lean ====
section
/-! DEFINITION. The state of the TCFR (spec/10_state.md rules R20 to R57), its reset (rule R56) and the reasons a step can
stop. The groups of `State` are the groups of rule R20. An enumerated field is an inductive type with one constructor per
code the spec lists; its numeric codes, as a host reads them, stand in Operands.lean (assumption log 9). -/

namespace Sys2Proof.Machine

/-- LC, 2 bits (rule R30): 0 Idle, 1 Running, 2 Stopped, 3 Aborted. -/
inductive LoopState where
  | idle
  | running
  | stopped
  | aborted
deriving DecidableEq, Repr

/-- STOP_REASON, 3 bits (rule R30): 0 None to 5 ContractViolation. -/
inductive StopReason where
  | none
  | completed
  | faultHalt
  | interrupted
  | transportFailure
  | contractViolation
deriving DecidableEq, Repr

/-- ERR, 3 bits (rules R34, R199): 0 None to 5 NotClaimed. -/
inductive ErrCode where
  | none
  | illegalCommand
  | busy
  | configError
  | badIndex
  | notClaimed
deriving DecidableEq, Repr

/-- FaultStatus, 3 bits (rule R27): 0 None to 4 Unknown. -/
inductive FaultStatus where
  | none
  | openCircuit
  | shortToGround
  | shortToVcc
  | unknown
deriving DecidableEq, Repr

/-- The unit mode, 2 bits (rule R40): 0 Celsius, 1 Kelvin, 2 Fahrenheit. -/
inductive TempUnit where
  | celsius
  | kelvin
  | fahrenheit
deriving DecidableEq, Repr

/-- The fault policy, 1 bit (rule R43): 0 HaltOnFault, 1 QuarantineFaultingChannel. -/
inductive Policy where
  | haltOnFault
  | quarantineFaultingChannel
deriving DecidableEq, Repr

/-- What a pin transaction asks (rule R57, the op and arg of EvPin). -/
inductive PinOp where
  | setDir (dir : Dir)
  | write (level : Level)
  | read
deriving DecidableEq, Repr

/-- What the environment answered a pin transaction (rule R57, the result of EvPin). -/
inductive PinResult where
  | ok
  | okBit (level : Level)
  | fail
deriving DecidableEq, Repr

/-- One element of a telemetry record (rule R95): the channel_id, which is CS_PIN[i], then STAGE[i] and RJSTAGE[i]. -/
structure TelemItem where
  channelId : PinId
  entry : Word32
  rjEntry : Word32
deriving DecidableEq, Repr

/-- The events of rule R57. -/
inductive Event where
  /-- EvPin(op, pin, arg, result) -/
  | pin (op : PinOp) (pin : PinId) (result : PinResult)
  /-- EvTelem(tick, list) -/
  | telem (tick : Word32) (items : List TelemItem)
  /-- EvSleep(interval) -/
  | sleep (interval : Word32)
  /-- EvRelease(k) -/
  | release (k : Nat)
  /-- EvStop(lc, reason) -/
  | stop (lc : LoopState) (reason : StopReason)
deriving DecidableEq, Repr

/-- The datapath registers (rules R21 to R29). -/
structure Datapath where
  /-- FRAME, 32 bits (R21) -/
  frame : Word32
  /-- SR, 32 bits (R22) -/
  sr : Word32
  /-- BITCNT, 6 bits (R23) -/
  bitcnt : BitVec 6
  /-- BIT, 1 bit (R24) -/
  bit : BitVec 1
  /-- TCQ, 14 bits, two's complement (R25) -/
  tcq : BitVec 14
  /-- RJQ, 12 bits, two's complement (R26) -/
  rjq : BitVec 12
  /-- FS (R27) -/
  fs : FaultStatus
  /-- VAL, 18 bits, two's complement (R28) -/
  val : BitVec 18
  /-- VSCALE, 1 bit (R28) -/
  vscale : Path
  /-- VUNIT (R28) -/
  vunit : TempUnit
  /-- RES, an ENTRY word (R29) -/
  res : Word32
  /-- RJRES, an ENTRY word (R29) -/
  rjres : Word32
deriving DecidableEq, Repr

/-- The sequencer registers (rules R30 to R33). -/
structure Sequencer where
  /-- LC (R30) -/
  lc : LoopState
  /-- STOP_REASON (R30) -/
  stopReason : StopReason
  /-- PHASE, 3 bits, the program counter of the loop (R31) -/
  phase : BitVec 3
  /-- CH, 6 bits (R32) -/
  ch : BitVec 6
  /-- TICK, 32 bits (R33) -/
  tick : Word32
deriving DecidableEq, Repr

/-- The flags (rule R34). -/
structure Flags where
  /-- HALT -/
  halt : Bool
  /-- INT_PENDING -/
  intPending : Bool
  /-- CLAIMED -/
  claimed : Bool
  /-- ERR -/
  err : ErrCode
deriving DecidableEq, Repr

/-- The configuration registers (rules R36 to R43). A table has 32 slots, the register numbers rule R45 sets aside;
the slots NCH_MAX and above do not exist and are never read or written. -/
structure Configuration where
  /-- NCH, 6 bits (R36) -/
  nch : BitVec 6
  /-- CS_PIN[i], 8 bits each (R37) -/
  csPin : Vector PinId 32
  /-- CLK_PIN, 8 bits (R38) -/
  clkPin : PinId
  /-- DATA_PIN, 8 bits (R39) -/
  dataPin : PinId
  /-- UNIT (R40) -/
  unit : TempUnit
  /-- INTERVAL, 32 bits (R41) -/
  interval : Word32
  /-- MAX_TICKS, 32 bits (R42) -/
  maxTicks : Word32
  /-- POLICY (R43) -/
  policy : Policy
deriving DecidableEq, Repr

/-- The per-channel tables the sampler writes (rules R47 to R49). -/
structure Tables where
  /-- STAGE[i], ENTRY words (R47) -/
  stage : Vector Word32 32
  /-- STAGE_LEN, 6 bits (R47) -/
  stageLen : BitVec 6
  /-- RJSTAGE[i], ENTRY words (R48) -/
  rjStage : Vector Word32 32
  /-- QUAR[i] (R49) -/
  quar : Vector Bool 32
  /-- QFS[i] (R49) -/
  qfs : Vector FaultStatus 32
deriving DecidableEq, Repr

/-- The time series buffer and its host window (rules R50, R51). -/
structure SeriesBuffer where
  /-- BUF[ch], the sequence of ENTRY words of channel ch, tick 0 first (R50) -/
  seqs : Vector (List Word32) 32
  /-- BUF_LEN, 32 bits (R50) -/
  len : Word32
  /-- BUF_CH, 6 bits (R51) -/
  selCh : BitVec 6
  /-- BUF_TICK, 32 bits (R51) -/
  selTick : Word32
deriving DecidableEq, Repr

/-- The mirror of the pins (rule R52): none stands for PDIR unclaimed and for PLVL none. -/
structure PinMirror where
  /-- PDIR[p] -/
  dir : Vector (Option Dir) 256
  /-- PLVL[p] -/
  lvl : Vector (Option Level) 256
deriving DecidableEq, Repr

/-! The model's own state, no part of the hardware's: what the agents outside the core do next and what they were told. -/

/-- Who moves next (rules R71 (e), R203, R204). Assumption log 3 and 4. -/
inductive Turn where
  /-- the host presents this word on the register bus -/
  | host (w : BitVec 41)
  /-- the core runs one whole sequencer step -/
  | coreStep
  /-- the core runs one micro-step (rule R203) -/
  | coreMicro
  /-- the platform asserts the reset input (rule R240) -/
  | reset
deriving DecidableEq, Repr

/-- The environment's answer to one pin transaction (rules R110 to R112): whether it succeeds, and the level a READ
finds. -/
structure PinAnswer where
  ok : Bool
  level : Level
deriving DecidableEq, Repr

/-- The place inside PH_SAMPLE between two micro-steps: which of the channel's two frames is being read and how many of
the 98 pin transactions of that frame are done (rule R32 leaves this to the model; CH names the channel). -/
structure SamplePos where
  second : Bool
  done : Nat
deriving DecidableEq, Repr

/-- The model's own fields (assumption log 1, 3, 5, 6, 7). -/
structure Surroundings where
  /-- the turns still to come; when none is left it is the core's turn for a whole step -/
  turns : List Turn
  /-- the environment's answers already settled, the next one first; when none is left they are free values -/
  answers : List PinAnswer
  /-- how many pin transactions the environment has answered -/
  drawn : Nat
  /-- the words REGRD has answered the host with, the latest first -/
  replies : List Word32
  /-- the PIN word waiting on the pin port; pop 0 is "no transaction" (rule R85) -/
  port : BitVec 11
  /-- the place inside a PH_SAMPLE that runs by micro-steps -/
  pos : Option SamplePos
deriving DecidableEq, Repr

/-- The whole state (rule R20). -/
structure State where
  params : Params
  dp : Datapath
  sq : Sequencer
  fl : Flags
  cfg : Configuration
  tab : Tables
  buf : SeriesBuffer
  pins : PinMirror
  /-- the event history of rule R57, the LATEST event first (assumption log 8) -/
  history : List Event
  io : Surroundings
deriving DecidableEq, Repr

/-- Why the machine stops with a fault. Each constructor but the last is a condition of rule R226, "what a model must
treat as its own bug": a step that meets it must fault and not continue. All are safe: no state reached from reset meets
one, and the model stops where the spec says a model must stop. -/
inductive Fault where
  /-- PHASE = 7 (rules R89, R226). Raised by `step`. Safe. -/
  | phaseReserved
  /-- LC = Running with CLAIMED = 0 (rule R226). Raised by `step`. Safe. -/
  | runningUnclaimed
  /-- an ENTRY with KIND = 3 in RES, RJRES, STAGE, RJSTAGE or BUF (rules R86, R226). Raised by `step`. Safe. -/
  | entryKindReserved
  /-- STAGE_LEN > NCH (rule R226). Raised by `step`. Safe. -/
  | stageLenOverNch
  /-- BUF_LEN > BUF_DEPTH (rule R226). Raised by `step`. Safe. -/
  | bufLenOverDepth
  /-- TICK > MAX_TICKS (rule R226). Raised by `step`. Safe. -/
  | tickOverMax
  /-- a READ with arg 1 on the pin port: the core never issues one (93_implementation_defined.md V6, rule R85). Raised by
  `step`. Safe. -/
  | pinWordReserved
deriving DecidableEq, Repr

/-- Why the machine gives an instruction no meaning. -/
inductive Refusal where
  /-- an instruction the model has no meaning for; raised by `exec`'s refused arms only, of which there is none. Safe. -/
  | notModelled (mnemonic : String)
deriving DecidableEq, Repr

/-- The state after reset (rules R56, R240): every piece of state the spec names has the value of rule R56's table. The
parameters have the defaults of rule R9 (assumption log 2), and the model's own fields are empty (assumption log 1, 3, 5,
6, 7). -/
def State.reset : State where
  params := {}
  dp :=
    { frame := 0, sr := 0, bitcnt := 0, bit := 0, tcq := 0, rjq := 0, fs := .none, val := 0, vscale := .tc,
      vunit := .celsius, res := 0, rjres := 0 }
  sq := { lc := .idle, stopReason := .none, phase := 0, ch := 0, tick := 0 }
  fl := { halt := false, intPending := false, claimed := false, err := .none }
  cfg :=
    { nch := 0, csPin := Vector.replicate 32 0, clkPin := 0, dataPin := 0, unit := .celsius, interval := 0,
      maxTicks := 0, policy := .haltOnFault }
  tab :=
    { stage := Vector.replicate 32 0, stageLen := 0, rjStage := Vector.replicate 32 0,
      quar := Vector.replicate 32 false, qfs := Vector.replicate 32 .none }
  buf := { seqs := Vector.replicate 32 [], len := 0, selCh := 0, selTick := 0 }
  pins := { dir := Vector.replicate 256 none, lvl := Vector.replicate 256 none }
  history := []
  io := { turns := [], answers := [], drawn := 0, replies := [], port := 0, pos := none }

end Sys2Proof.Machine
end

