-- ==== Sys2Proof/Machine/Operands.lean ====
section
/-! DEFINITION. Operand forms and words: the numeric codes of the enumerations (spec/30_encoding.md rule R90), the fields
of a frame (rules R80, R81) and what the decoder makes of them (spec/41_decoder.md), the converter's arithmetic
(spec/43_unit_converter.md), the ENTRY word (rule R86), the register map (spec/10_state.md rules R45, R46). -/

namespace Sys2Proof.Machine

/-! ### Codes (rule R90) -/

/-- The code of LC (rule R30). -/
def LoopState.code : LoopState → BitVec 2
  | .idle => 0
  | .running => 1
  | .stopped => 2
  | .aborted => 3

/-- The code of STOP_REASON (rule R30). -/
def StopReason.code : StopReason → BitVec 3
  | .none => 0
  | .completed => 1
  | .faultHalt => 2
  | .interrupted => 3
  | .transportFailure => 4
  | .contractViolation => 5

/-- The code of ERR (rules R34, R199). -/
def ErrCode.code : ErrCode → BitVec 3
  | .none => 0
  | .illegalCommand => 1
  | .busy => 2
  | .configError => 3
  | .badIndex => 4
  | .notClaimed => 5

/-- The code of a FaultStatus (rule R27). -/
def FaultStatus.code : FaultStatus → BitVec 3
  | .none => 0
  | .openCircuit => 1
  | .shortToGround => 2
  | .shortToVcc => 3
  | .unknown => 4

/-- The code of a unit (rule R40). -/
def TempUnit.code : TempUnit → BitVec 2
  | .celsius => 0
  | .kelvin => 1
  | .fahrenheit => 2

/-- The unit a code stands for; 3 is reserved (rule R40). -/
def TempUnit.ofCode (c : BitVec 2) : Option TempUnit :=
  match c.toNat with
  | 0 => some .celsius
  | 1 => some .kelvin
  | 2 => some .fahrenheit
  | _ => none

/-- The code of POLICY (rule R43). -/
def Policy.code : Policy → BitVec 1
  | .haltOnFault => 0
  | .quarantineFaultingChannel => 1

/-- The policy a bit stands for (rule R43). -/
def Policy.ofCode (c : BitVec 1) : Policy := if c = 1 then .quarantineFaultingChannel else .haltOnFault

/-- The scale bit of VSCALE and of an ENTRY (rules R28, R86, R90): 0 thermocouple, 1 reference junction. -/
def pathScale : Path → BitVec 1
  | .tc => 0
  | .rj => 1

/-- The bit a READ returns for a level (rule R112): 1 high, 0 low. -/
def readBit : Level → BitVec 1
  | .low => 0
  | .high => 1

/-! ### Fields of a frame (rules R80, R81) -/

/-- The thermocouple field, FRAME[31:18]. -/
def tcFieldOf (frame : Word32) : BitVec 14 := frame.extractLsb' 18 14

/-- The reference-junction field, FRAME[15:4]. -/
def rjFieldOf (frame : Word32) : BitVec 12 := frame.extractLsb' 4 12

/-- The thermocouple quantity, in quarter degrees, by the sign-and-magnitude pseudocode of rule R130. -/
def tcQuantity (frame : Word32) : Int :=
  let field := tcFieldOf frame
  if field &&& 0x2000 ≠ 0 then -((~~~field &&& 0x1FFF).toNat + 1 : Int)
  else (field &&& 0x1FFF).toNat

/-- The reference-junction quantity, in sixteenths of a degree, by the pseudocode of rule R131. -/
def rjQuantity (frame : Word32) : Int :=
  let field := rjFieldOf frame
  if field &&& 0x800 ≠ 0 then -((~~~field &&& 0x7FF).toNat + 1 : Int)
  else (field &&& 0x7FF).toNat

/-- The priority encoder of rule R140 over FRAME bits 16, 0, 1 and 2, tested in this order. -/
def classifyFrame (frame : Word32) : FaultStatus :=
  if frame.getLsbD 16 = false then .none
  else if frame.getLsbD 0 then .openCircuit
  else if frame.getLsbD 1 then .shortToGround
  else if frame.getLsbD 2 then .shortToVcc
  else .unknown

/-! ### The converter (rule R145) -/

/-- The scaled integer of rule R145 for the quantity `q` of a path in a unit: twentieths of a degree on the thermocouple
path, eightieths on the reference-junction path. -/
def convert (src : Path) (unit : TempUnit) (q : Int) : Int :=
  match src, unit with
  | .tc, .celsius => 5 * q
  | .tc, .kelvin => 5 * q + 5463
  | .tc, .fahrenheit => 9 * q + 640
  | .rj, .celsius => 5 * q
  | .rj, .kelvin => 5 * q + 21852
  | .rj, .fahrenheit => 9 * q + 2560

/-! ### The ENTRY word (rule R86) -/

/-- The Empty entry. -/
def entryEmpty : Word32 := 0

/-- Reading(u, s, v) = (1 << 30) | (u << 28) | (s << 27) | trunc_18(v). -/
def entryReading (u : TempUnit) (s : Path) (v : BitVec 18) : Word32 :=
  (1#32 <<< 30) ||| (u.code.setWidth 32 <<< 28) ||| ((pathScale s).setWidth 32 <<< 27) ||| v.setWidth 32

/-- FaultMarker(f) = (2 << 30) | (f << 24). -/
def entryFault (f : FaultStatus) : Word32 := (2#32 <<< 30) ||| (f.code.setWidth 32 <<< 24)

/-- KIND, bits 31:30: 0 Empty, 1 Reading, 2 FaultMarker. -/
def entryKind (e : Word32) : BitVec 2 := e.extractLsb' 30 2

/-- UNIT, bits 29:28. -/
def entryUnit (e : Word32) : BitVec 2 := e.extractLsb' 28 2

/-- SCALE, bit 27. -/
def entryScale (e : Word32) : BitVec 1 := e.extractLsb' 27 1

/-- FS, bits 26:24. -/
def entryFs (e : Word32) : BitVec 3 := e.extractLsb' 24 3

/-- VALUE, bits 17:0. -/
def entryValue (e : Word32) : BitVec 18 := e.extractLsb' 0 18

/-! ### The register map (rules R45, R46) -/

/-- The registers of the map of rule R45. A table register carries its slot. -/
inductive Reg where
  | cmd
  | status
  | nch
  | clkPin
  | dataPin
  | unit
  | interval
  | maxTicks
  | policy
  | tick
  | frame
  | sr
  | bitcnt
  | tcq
  | rjq
  | fs
  | val
  | vmeta
  | res
  | rjres
  | ch
  | stageLen
  | bufLen
  | bufCh
  | bufTick
  | bufData
  | bit
  | csPin (i : Nat)
  | stage (i : Nat)
  | rjStage (i : Nat)
  | qstat (i : Nat)
deriving DecidableEq, Repr

/-- The register of a number below 0x20 (rule R45); 0x1B to 0x1F are reserved (rule R46). -/
def scalarReg (n : Nat) : Option Reg :=
  match n with
  | 0x00 => some .cmd
  | 0x01 => some .status
  | 0x02 => some .nch
  | 0x03 => some .clkPin
  | 0x04 => some .dataPin
  | 0x05 => some .unit
  | 0x06 => some .interval
  | 0x07 => some .maxTicks
  | 0x08 => some .policy
  | 0x09 => some .tick
  | 0x0A => some .frame
  | 0x0B => some .sr
  | 0x0C => some .bitcnt
  | 0x0D => some .tcq
  | 0x0E => some .rjq
  | 0x0F => some .fs
  | 0x10 => some .val
  | 0x11 => some .vmeta
  | 0x12 => some .res
  | 0x13 => some .rjres
  | 0x14 => some .ch
  | 0x15 => some .stageLen
  | 0x16 => some .bufLen
  | 0x17 => some .bufCh
  | 0x18 => some .bufTick
  | 0x19 => some .bufData
  | 0x1A => some .bit
  | _ => none

/-- A slot of a table exists when its index is below NCH_MAX (rules R45, R46). -/
def tableReg (nchMax : Nat) (r : Nat → Reg) (i : Nat) : Option Reg := if i < nchMax then some (r i) else none

/-- The register of a register number, none for a reserved number (rules R45, R46). -/
def regOf (nchMax : Nat) (rn : RegNum) : Option Reg :=
  let n := rn.toNat
  if n < 0x20 then scalarReg n
  else if n < 0x40 then tableReg nchMax .csPin (n - 0x20)
  else if n < 0x60 then tableReg nchMax .stage (n - 0x40)
  else if n < 0x80 then tableReg nchMax .rjStage (n - 0x60)
  else if n < 0xA0 then tableReg nchMax .qstat (n - 0x80)
  else none

/-- The registers a host may write other than CMD, with their widths in bits (rules R45, R197); none for a read-only
register. -/
def Reg.writeWidth : Reg → Option Nat
  | .nch => some 6
  | .clkPin => some 8
  | .dataPin => some 8
  | .unit => some 2
  | .interval => some 32
  | .maxTicks => some 32
  | .policy => some 1
  | .frame => some 32
  | .bufCh => some 6
  | .bufTick => some 32
  | .csPin _ => some 8
  | .cmd | .status | .tick | .sr | .bitcnt | .tcq | .rjq | .fs | .val | .vmeta | .res | .rjres | .ch | .stageLen
  | .bufLen | .bufData | .bit | .stage _ | .rjStage _ | .qstat _ => none

/-- The pin registers, which freeze while CLAIMED = 1 (rule R197 test 4). -/
def Reg.isPinReg : Reg → Bool
  | .nch | .clkPin | .dataPin | .csPin _ => true
  | .cmd | .status | .unit | .interval | .maxTicks | .policy | .tick | .frame | .sr | .bitcnt | .tcq | .rjq | .fs
  | .val | .vmeta | .res | .rjres | .ch | .stageLen | .bufLen | .bufCh | .bufTick | .bufData | .bit | .stage _
  | .rjStage _ | .qstat _ => false

/-- The window registers, writable in every LC state (rules R51, R197 test 2). -/
def Reg.isWindow : Reg → Bool
  | .bufCh | .bufTick => true
  | .cmd | .status | .nch | .clkPin | .dataPin | .unit | .interval | .maxTicks | .policy | .tick | .frame | .sr
  | .bitcnt | .tcq | .rjq | .fs | .val | .vmeta | .res | .rjres | .ch | .stageLen | .bufLen | .bufData | .bit
  | .csPin _ | .stage _ | .rjStage _ | .qstat _ => false

end Sys2Proof.Machine
end

