-- ==== Sys2Proof/Machine/Ops.lean ====
section
/-! DEFINITION. The named operations over the state: tables, the time series buffer, the event history, the environment's
draws, the three pin transactions (spec/40_transport.md rules R110 to R112), the release (rule R114), and the two ways a
session ends: Stop (spec/46_loop_controller.md rule R190) and Abort (spec/60_exceptions.md rule R214). -/

namespace Sys2Proof.Machine

/-! ### Tables (rules R37, R47 to R49) -/

/-- Slot `i` of a table; an index no register number reaches reads as `d` (assumption log 13). -/
def tabGet {α : Type} (d : α) (t : Vector α 32) (i : Nat) : α := if h : i < 32 then t[i] else d

/-- Write of slot `i` of a table; an index no register number reaches is dropped (assumption log 13). -/
def tabSet {α : Type} (t : Vector α 32) (i : Nat) (a : α) : Vector α 32 := if h : i < 32 then t.set i a h else t

/-- CS_PIN[i] (rule R37). -/
def State.csPinAt (s : State) (i : Nat) : PinId := tabGet 0 s.cfg.csPin i

/-- STAGE[i] (rule R47). -/
def State.stageAt (s : State) (i : Nat) : Word32 := tabGet entryEmpty s.tab.stage i

/-- RJSTAGE[i] (rule R48). -/
def State.rjStageAt (s : State) (i : Nat) : Word32 := tabGet entryEmpty s.tab.rjStage i

/-- QUAR[i] (rule R49). -/
def State.quarAt (s : State) (i : Nat) : Bool := tabGet false s.tab.quar i

/-- QFS[i] (rule R49). -/
def State.qfsAt (s : State) (i : Nat) : FaultStatus := tabGet .none s.tab.qfs i

/-- The chip-select pins of the configured channels, CS_PIN[0] to CS_PIN[NCH-1] (rule R37). -/
def State.csPins (s : State) : List PinId := (List.range s.cfg.nch.toNat).map s.csPinAt

/-- The NCH + 2 configured pins in the order of rules R113 and R114: chip-selects, clock, data. -/
def State.busPins (s : State) : List PinId := s.csPins ++ [s.cfg.clkPin, s.cfg.dataPin]

/-! ### The time series buffer (rules R50, R51, R66) -/

/-- BUF[ch] (rule R50). -/
def State.seqAt (s : State) (ch : Nat) : List Word32 := tabGet [] s.buf.seqs ch

/-- MemRead(ch, t) (rule R66), defined for ch < NCH and t < BUF_LEN; Empty where the sequence has no entry. -/
def memRead (s : State) (ch t : Nat) : Word32 := (s.seqAt ch)[t]?.getD entryEmpty

/-- Write of entry `t` of one channel's sequence; a sequence shorter than `t` is first filled with Empty, which the rules
never ask for, since t = BUF_LEN is its length (assumption log 12). -/
def seqWrite (l : List Word32) (t : Nat) (e : Word32) : List Word32 := (l.rightpad (t + 1) entryEmpty).set t e

/-- MemWrite(ch, t, e) (rule R66). -/
def memWrite (ch t : Nat) (e : Word32) (s : State) : State :=
  { s with buf.seqs := tabSet s.buf.seqs ch (seqWrite (s.seqAt ch) t e) }

/-- MemWrite of one column: for every channel of the list, in its order, the entry `f ch` at index `t`. -/
def writeColumn (f : Nat → Word32) (t : Nat) : List Nat → State → State
  | [], s => s
  | ch :: chs, s => writeColumn f t chs (memWrite ch t (f ch) s)

/-! ### History and draws -/

/-- emit Ev (rules R13, R57). -/
def State.emit (e : Event) (s : State) : State := { s with history := e :: s.history }

/-- The event history in the order the events were emitted (rule R57). -/
def State.events (s : State) : List Event := s.history.reverse

/-- The environment's answer to the next pin transaction (rule R63): the next settled answer, or, when none is settled,
the free values of this draw (assumption log 1). -/
def State.nextAnswer (s : State) : PinAnswer :=
  match s.io.answers with
  | a :: _ => a
  | [] => { ok := Config.pinOk s.io.drawn, level := if Config.pinLevel s.io.drawn then .high else .low }

/-- The state after the environment has answered one pin transaction. -/
def State.drawn (s : State) : State := { s with io.answers := s.io.answers.drop 1, io.drawn := s.io.drawn + 1 }

/-! ### Operations that may raise -/

/-- The exceptions that end an operation at once (rule R13 `raise`, rules R212, R213). -/
inductive Cause where
  | transportFailure
  | contractViolation
deriving DecidableEq, Repr

/-- STOP_REASON of an exception (rule R210). -/
def Cause.reason : Cause → StopReason
  | .transportFailure => .transportFailure
  | .contractViolation => .contractViolation

/-- The outcome of an operation that may raise: it ran to its end with a result, or it raised an exception. Either way the
state holds every assignment made so far (rule R212). -/
inductive Flow (α : Type) where
  | done (a : α) (s : State)
  | raised (x : Cause) (s : State)

/-- Sequencing: after an exception nothing more runs (rule R13). -/
def Flow.andThen {α β : Type} (m : Flow α) (k : α → State → Flow β) : Flow β :=
  match m with
  | .done a s => k a s
  | .raised x s => .raised x s

/-! ### The pins (rules R52, R110 to R112) -/

/-- PDIR[p], none for unclaimed. -/
def State.pdir (s : State) (p : PinId) : Option Dir := s.pins.dir[p.toNat]'p.isLt

/-- PLVL[p], none for no level. -/
def State.plvl (s : State) (p : PinId) : Option Level := s.pins.lvl[p.toNat]'p.isLt

/-- PDIR[p] <- d. -/
def State.setPdir (p : PinId) (d : Option Dir) (s : State) : State :=
  { s with pins.dir := s.pins.dir.set p.toNat d p.isLt }

/-- PLVL[p] <- l. -/
def State.setPlvl (p : PinId) (l : Option Level) (s : State) : State :=
  { s with pins.lvl := s.pins.lvl.set p.toNat l p.isLt }

/-- The result of a transaction that returns no bit. -/
def PinAnswer.result (a : PinAnswer) : PinResult := if a.ok then .ok else .fail

/-- The result of a READ. -/
def PinAnswer.readResult (a : PinAnswer) : PinResult := if a.ok then .okBit a.level else .fail

/-- PinSetDir(pin, dir) (rule R110). -/
def pinSetDir (pin : PinId) (dir : Dir) (s : State) : Flow Unit :=
  let a := s.nextAnswer
  let s := s.drawn.emit (.pin (.setDir dir) pin a.result)
  if a.ok then .done () (s.setPdir pin (some dir)) else .raised .transportFailure s

/-- PinWrite(pin, level) (rule R111). -/
def pinWrite (pin : PinId) (level : Level) (s : State) : Flow Unit :=
  let a := s.nextAnswer
  let s := s.drawn.emit (.pin (.write level) pin a.result)
  if a.ok then .done () (s.setPlvl pin (some level)) else .raised .transportFailure s

/-- PinRead(pin) (rule R112). -/
def pinRead (pin : PinId) (s : State) : Flow Level :=
  let a := s.nextAnswer
  let s := s.drawn.emit (.pin .read pin a.readResult)
  if a.ok then .done a.level s else .raised .transportFailure s

/-! ### Release, Stop, Abort -/

/-- The release of one pin (rule R114): a pin still claimed is set to input, the answer is recorded and ignored, and the
pin is marked unclaimed. -/
def releasePin (p : PinId) (s : State) : State :=
  ((s.drawn.emit (.pin (.setDir .input) p s.nextAnswer.result)).setPdir p none).setPlvl p none

/-- The loop of Release (rule R114) over the pins still to look at; `k` counts the pins released. -/
def releasePins : List PinId → Nat → State → Nat × State
  | [], k, s => (k, s)
  | p :: ps, k, s =>
    if s.pdir p ≠ none then releasePins ps (k + 1) (releasePin p s) else releasePins ps k s

/-- Release() (rule R114). -/
def release (s : State) : State :=
  let r := releasePins s.busPins 0 s
  ({ r.2 with fl.claimed := false } : State).emit (.release r.1)

/-- The entry to a terminal state, shared by Stop and Abort: LC and STOP_REASON are written, EvStop is emitted, then the
pins are released (rules R190, R214, R215). A frame read in progress by micro-steps is over. -/
def endSession (lc : LoopState) (reason : StopReason) (s : State) : State :=
  release (({ s with sq.lc := lc, sq.stopReason := reason, io.pos := none } : State).emit (.stop lc reason))

/-- Stop(reason) (rule R190). There is no return from it (rule R216). -/
def stop (reason : StopReason) (s : State) : State := endSession .stopped reason s

/-- Abort(reason) (rule R214). There is no return from it (rule R216). -/
def abort (x : Cause) (s : State) : State := endSession .aborted x.reason s

/-- The state an operation leaves: an exception it raised is followed by the abort at once (rules R115, R212, R213). -/
def Flow.settle {α : Type} : Flow α → State
  | .done _ s => s
  | .raised x s => abort x s

end Sys2Proof.Machine
end

