-- ==== Sys2Proof/Machine/Flags.lean ====
section
/-! DEFINITION. The flags: ERR and the outcome of a host write (spec/47_host_bus.md rules R198 to R200), the STATUS word
(spec/10_state.md rule R35), and the conditions of spec/60_exceptions.md rule R226 under which a model must fault. -/

namespace Sys2Proof.Machine

/-- A flag as a bit. -/
def flagBit (b : Bool) : BitVec 1 := if b then 1 else 0

/-- The STATUS word (rule R35): bits 13:11 PHASE, 10:8 ERR, 7 HALT, 6 INT_PENDING, 5 CLAIMED, 4:2 STOP_REASON, 1:0 LC. -/
def statusWord (s : State) : Word32 :=
  (s.sq.phase ++ s.fl.err.code ++ flagBit s.fl.halt ++ flagBit s.fl.intPending ++ flagBit s.fl.claimed
    ++ s.sq.stopReason.code ++ s.sq.lc.code).setWidth 32

/-- refuse E (rule R199): ERR <- E and nothing else. -/
def refuse (e : ErrCode) (s : State) : State := { s with fl.err := e }

/-- An accepted write: ERR <- 0 (rules R196, R198 step 6). -/
def accept (s : State) : State := { s with fl.err := .none }

/-- A command accepted in Idle only (rule R200): Busy elsewhere; otherwise its own tests and its effect follow. -/
def inIdle (s : State) (k : State → State) : State := if s.sq.lc = .idle then k s else refuse .busy s

/-- A command that reads a channel (rules R117, R160): Busy, NotClaimed, BadIndex, tested in this order; then ERR <- 0 and
the operation runs, an exception being followed by the abort (rule R198 step 6). -/
def channelCommand (ch : BitVec 8) (body : Nat → State → Flow Unit) (s : State) : State :=
  inIdle s fun s =>
    if s.fl.claimed = false then refuse .notClaimed s
    else if s.cfg.nch.toNat ≤ ch.toNat then refuse .badIndex s
    else (body ch.toNat (accept s)).settle

/-- Every place that holds an ENTRY word (rule R86). -/
def State.entries (s : State) : List Word32 :=
  s.dp.res :: s.dp.rjres :: (s.tab.stage.toList ++ s.tab.rjStage.toList ++ s.buf.seqs.toList.flatten)

/-- The first condition of rule R226 the state meets, if any: "a model that meets one must fault and not continue". The
codes of FS, ERR and STOP_REASON that the rule names cannot be represented (assumption log 9, 10). -/
def bugOf (s : State) : Option Fault :=
  if s.sq.lc = .running ∧ s.fl.claimed = false then some .runningUnclaimed
  else if s.cfg.nch.toNat < s.tab.stageLen.toNat then some .stageLenOverNch
  else if s.params.bufDepth < s.buf.len.toNat then some .bufLenOverDepth
  else if s.cfg.maxTicks.toNat < s.sq.tick.toNat then some .tickOverMax
  else if s.entries.any (fun e => entryKind e == 3) then some .entryKindReserved
  else if s.sq.phase = 7 then some .phaseReserved
  else none

end Sys2Proof.Machine
end

