-- ==== Sys2Proof/Machine/FaultClassifier.lean ====
section
/-! DEFINITION. The fault classifier (spec/42_fault_classifier.md): CLASSIFY. -/

namespace Sys2Proof.Machine

/-- Classify() (rule R140): FS <- the status of FRAME. -/
def classify (s : State) : State := { s with dp.fs := classifyFrame s.dp.frame }

/-- CLASSIFY, rule R140. -/
def execClassify (s : State) : Host.Outcome State Fault Refusal := .next (inIdle s fun s => classify (accept s))

end Sys2Proof.Machine
end

