-- ==== Sys2Proof/Machine/FrameDecoder.lean ====
section
/-! DEFINITION. The frame decoder (spec/41_decoder.md): TCFIELD and RJFIELD. -/

namespace Sys2Proof.Machine

/-- TcField() (rule R130): TCQ <- q. -/
def tcField (s : State) : State := { s with dp.tcq := BitVec.ofInt 14 (tcQuantity s.dp.frame) }

/-- RjField() (rule R131): RJQ <- q. -/
def rjField (s : State) : State := { s with dp.rjq := BitVec.ofInt 12 (rjQuantity s.dp.frame) }

/-- TCFIELD, rule R130. -/
def execTcfield (s : State) : Host.Outcome State Fault Refusal := .next (inIdle s fun s => tcField (accept s))

/-- RJFIELD, rule R131. -/
def execRjfield (s : State) : Host.Outcome State Fault Refusal := .next (inIdle s fun s => rjField (accept s))

end Sys2Proof.Machine
end

