-- ==== Sys2Proof/Machine/Transport.lean ====
section
/-! DEFINITION. The transport (spec/40_transport.md): CLAIM, RELEASE, RDFRAME and the pin transactions SETDIR, WRITE and
READ as operations of their own. -/

namespace Sys2Proof.Machine

/-! ### Claim (rule R113) -/

/-- The configuration check of CLAIM: at least one channel, and the NCH + 2 pin ids pairwise different (rule R113). -/
def claimable (s : State) : Bool := decide (1 ≤ s.cfg.nch.toNat) && decide s.busPins.Nodup

/-- The chip-select loop of CLAIM: each line to output and high (rule R113). -/
def claimSelects : List PinId → State → Flow Unit
  | [], s => .done () s
  | p :: ps, s =>
    (pinSetDir p .output s).andThen fun _ s => (pinWrite p .high s).andThen fun _ s => claimSelects ps s

/-- The pseudocode of CLAIM (rule R113). -/
def claimPins (s : State) : Flow Unit :=
  (claimSelects s.csPins s).andThen fun _ s =>
    (pinSetDir s.cfg.clkPin .output s).andThen fun _ s =>
      (pinWrite s.cfg.clkPin .high s).andThen fun _ s =>
        (pinSetDir s.cfg.dataPin .input s).andThen fun _ s => .done () { s with fl.claimed := true }

/-- CLAIM (rule R113). -/
def claimCommand (s : State) : State :=
  inIdle s fun s =>
    if s.fl.claimed then accept s
    else if claimable s then (claimPins (accept s)).settle
    else refuse .configError s

/-- RELEASE as a command (rule R114): refused with Busy in Running, accepted in Idle, Stopped and Aborted. -/
def releaseCommand (s : State) : State := if s.sq.lc = .running then refuse .busy s else release (accept s)

/-! ### The frame read (rule R117) -/

/-- The head of a frame read: CH <- ch; SR <- 0; BITCNT <- 0. -/
def frameHead (ch : Nat) (s : State) : State :=
  { s with sq.ch := BitVec.ofNat 6 ch, dp.sr := 0, dp.bitcnt := 0 }

/-- BIT <- b; SR <- trunc_32(SR << 1) | b; BITCNT <- BITCNT + 1. -/
def shiftIn (b : BitVec 1) (s : State) : State :=
  { s with dp.bit := b, dp.sr := (s.dp.sr <<< 1) ||| b.setWidth 32, dp.bitcnt := s.dp.bitcnt + 1 }

/-- FRAME <- SR. -/
def latchFrame (s : State) : State := { s with dp.frame := s.dp.sr }

/-- The READ of a clock pulse with the assignments that follow it. -/
def sampleBit (s : State) : Flow Unit :=
  (pinRead s.cfg.dataPin s).andThen fun l s => .done () (shiftIn (readBit l) s)

/-- One clock pulse: clock low, read the data bit, clock high. -/
def clockPulse (s : State) : Flow Unit :=
  (pinWrite s.cfg.clkPin .low s).andThen fun _ s =>
    (sampleBit s).andThen fun _ s => pinWrite s.cfg.clkPin .high s

/-- `n` clock pulses. -/
def clockPulses : Nat → State → Flow Unit
  | 0, s => .done () s
  | n + 1, s => (clockPulse s).andThen fun _ s => clockPulses n s

/-- ReadFrame(ch) (rule R117). -/
def readFrame (ch : Nat) (s : State) : Flow Unit :=
  (pinWrite (s.csPinAt ch) .low (frameHead ch s)).andThen fun _ s =>
    (clockPulses 32 s).andThen fun _ s =>
      (pinWrite (s.csPinAt ch) .high s).andThen fun _ s => .done () (latchFrame s)

/-! ### The meanings -/

/-- CLAIM, rule R113. -/
def execClaim (s : State) : Host.Outcome State Fault Refusal := .next (claimCommand s)

/-- RELEASE, rule R114. -/
def execRelease (s : State) : Host.Outcome State Fault Refusal := .next (releaseCommand s)

/-- RDFRAME ch, rule R117. -/
def execRdframe (ch : BitVec 8) (s : State) : Host.Outcome State Fault Refusal := .next (channelCommand ch readFrame s)

/-- SETDIR pin, dir, rule R110; a failure is followed by the abort (rules R115, R214; assumption log 18). -/
def execSetdir (pin : PinId) (dir : Dir) (s : State) : Host.Outcome State Fault Refusal :=
  .next (pinSetDir pin dir s).settle

/-- WRITE pin, level, rule R111; a failure is followed by the abort (rules R115, R214; assumption log 18). -/
def execWrite (pin : PinId) (level : Level) (s : State) : Host.Outcome State Fault Refusal :=
  .next (pinWrite pin level s).settle

/-- READ pin, rule R112: the bit is returned in the event; RDFRAME is what writes BIT with it. A failure is followed by
the abort (rules R115, R214; assumption log 18). -/
def execRead (pin : PinId) (s : State) : Host.Outcome State Fault Refusal := .next (pinRead pin s).settle

end Sys2Proof.Machine
end

