-- ==== Sys2Proof/Machine/UnitConverter.lean ====
section
/-! DEFINITION. The unit converter (spec/43_unit_converter.md): TOUNIT. -/

namespace Sys2Proof.Machine

/-- The quantity a path converts: sext_14(TCQ) or sext_12(RJQ) (rule R145). -/
def pathQuantity (src : Path) (s : State) : Int :=
  match src with
  | .tc => s.dp.tcq.toInt
  | .rj => s.dp.rjq.toInt

/-- ToUnit(src, unit) (rule R145): VAL <- v; VSCALE <- src; VUNIT <- unit. -/
def toUnit (src : Path) (unit : TempUnit) (s : State) : State :=
  { s with dp.val := BitVec.ofInt 18 (convert src unit (pathQuantity src s)), dp.vscale := src, dp.vunit := unit }

/-- TOUNIT src, unit, rule R145: the reserved unit is refused with IllegalCommand before anything else is tested (rules
R84, R198 step 1; assumption log 20). -/
def execTounit (src : Path) (unit : BitVec 2) (s : State) : Host.Outcome State Fault Refusal :=
  .next (match TempUnit.ofCode unit with
    | none => refuse .illegalCommand s
    | some u => inIdle s fun s => toUnit src u (accept s))

end Sys2Proof.Machine
end

