-- ==== Sys2Proof/Machine/Channel.lean ====
section
/-! DEFINITION. The channel (spec/44_channel.md): GETRJ, GET, RDREADING. -/

namespace Sys2Proof.Machine

/-- What GETRJ does after its frame read (rule R155): RjField; ToUnit(1, UNIT); RJRES <- Reading(UNIT, 1, VAL). -/
def finishRj (s : State) : State :=
  let s := toUnit .rj s.cfg.unit (rjField s)
  { s with dp.rjres := entryReading s.cfg.unit .rj s.dp.val }

/-- What GET does after its frame read (rule R156): Classify; then either RES <- FaultMarker(FS), or TcField;
ToUnit(0, UNIT); RES <- Reading(UNIT, 0, VAL). -/
def finishTc (s : State) : State :=
  let s := classify s
  if s.dp.fs ≠ .none then { s with dp.res := entryFault s.dp.fs }
  else
    let s := toUnit .tc s.cfg.unit (tcField s)
    { s with dp.res := entryReading s.cfg.unit .tc s.dp.val }

/-- GetRj(ch) (rule R155). -/
def getRj (ch : Nat) (s : State) : Flow Unit := (readFrame ch s).andThen fun _ s => .done () (finishRj s)

/-- Get(ch) (rule R156): a new acquisition, not the frame of GetRj. -/
def getTc (ch : Nat) (s : State) : Flow Unit := (readFrame ch s).andThen fun _ s => .done () (finishTc s)

/-- ReadReading(ch) (rule R157): the reference-junction frame first, the thermocouple frame second. -/
def readReading (ch : Nat) (s : State) : Flow Unit := (getRj ch s).andThen fun _ s => getTc ch s

/-- GETRJ ch, rule R155, accepted by rule R160. -/
def execGetrj (ch : BitVec 8) (s : State) : Host.Outcome State Fault Refusal := .next (channelCommand ch getRj s)

/-- GET ch, rule R156, accepted by rule R160. -/
def execGet (ch : BitVec 8) (s : State) : Host.Outcome State Fault Refusal := .next (channelCommand ch getTc s)

/-- RDREADING ch, rule R157, accepted by rule R160. -/
def execRdreading (ch : BitVec 8) (s : State) : Host.Outcome State Fault Refusal :=
  .next (channelCommand ch readReading s)

end Sys2Proof.Machine
end

