-- ==== Sys2Proof/Machine/Sampler.lean ====
section
/-! DEFINITION. The sampler, the staging column, the buffer and the telemetry sink (spec/45_sampler_buffer.md): the steps
PH_SAMPLE, PH_APPEND, PH_TELEM and PH_HALT, and PH_SAMPLE once more by the micro-steps of spec/47_host_bus.md rule R203. -/

namespace Sys2Proof.Machine

/-! ### PH_SAMPLE (rule R165) -/

/-- PHASE <- p (rule R13). -/
def State.goto (p : BitVec 3) (s : State) : State := { s with sq.phase := p }

/-- The head of PH_SAMPLE: the first NCH_MAX slots of STAGE and RJSTAGE <- Empty; STAGE_LEN <- 0. -/
def clearStaging (s : State) : State :=
  { s with
    tab.stage := (List.range s.params.nchMax).foldl (fun t i => tabSet t i entryEmpty) s.tab.stage
    tab.rjStage := (List.range s.params.nchMax).foldl (fun t i => tabSet t i entryEmpty) s.tab.rjStage
    tab.stageLen := 0 }

/-- CH <- i. -/
def visit (i : Nat) (s : State) : State := { s with sq.ch := BitVec.ofNat 6 i }

/-- A quarantined channel: STAGE[i] <- FaultMarker(QFS[i]); STAGE_LEN <- i + 1. -/
def stageQuarantined (i : Nat) (s : State) : State :=
  { s with tab.stage := tabSet s.tab.stage i (entryFault (s.qfsAt i)), tab.stageLen := BitVec.ofNat 6 (i + 1) }

/-- A channel that was read: RJSTAGE[i] <- RJRES; STAGE[i] <- RES; STAGE_LEN <- i + 1. -/
def stageReading (i : Nat) (s : State) : State :=
  { s with
    tab.rjStage := tabSet s.tab.rjStage i s.dp.rjres
    tab.stage := tabSet s.tab.stage i s.dp.res
    tab.stageLen := BitVec.ofNat 6 (i + 1) }

/-- A sensor fault under HaltOnFault (rule R166): HALT <- 1; PHASE <- PH_HALT. -/
def haltSession (s : State) : State := ({ s with fl.halt := true } : State).goto 6

/-- A sensor fault under QuarantineFaultingChannel (rule R167): QUAR[i] <- 1; QFS[i] <- FS. -/
def quarantine (i : Nat) (s : State) : State :=
  { s with tab.quar := tabSet s.tab.quar i true, tab.qfs := tabSet s.tab.qfs i s.dp.fs }

/-- RES is a FaultMarker: RES[31:30] = 2. -/
def State.faulted (s : State) : Bool := entryKind s.dp.res == 2

/-- The loop of PH_SAMPLE over the channels still to visit (rule R165). -/
def sampleChannels : List Nat → State → Flow Unit
  | [], s => .done () (s.goto 2)
  | i :: is, s =>
    let s := visit i s
    if s.quarAt i then sampleChannels is (stageQuarantined i s)
    else
      (readReading i s).andThen fun _ s =>
        let s := stageReading i s
        if s.faulted then
          match s.cfg.policy with
          | .haltOnFault => .done () (haltSession s)
          | .quarantineFaultingChannel => sampleChannels is (quarantine i s)
        else sampleChannels is s

/-- The indices of the configured channels, 0 to NCH - 1, in the fixed configured order (rule R168). -/
def State.channels (s : State) : List Nat := List.range s.cfg.nch.toNat

/-- PhSample() (rule R165). -/
def phSample (s : State) : Flow Unit := sampleChannels s.channels (clearStaging s)

/-! ### PH_SAMPLE by micro-steps (rules R32, R203) -/

/-- From the visit of the next channel to the next pin transaction: quarantined channels are staged and passed over; the
first other channel's first frame read is begun; if none is left the step ends. -/
def enterChannels : List Nat → State → State
  | [], s => ({ s with io.pos := none } : State).goto 2
  | i :: is, s =>
    let s := visit i s
    if s.quarAt i then enterChannels is (stageQuarantined i s)
    else { frameHead i s with io.pos := some { second := false, done := 0 } }

/-- After the second frame of channel `i`: stage it, and halt, quarantine or go on (rule R165). -/
def leaveChannel (i : Nat) (s : State) : State :=
  let s := stageReading i s
  let rest := s.channels.drop (i + 1)
  if s.faulted then
    match s.cfg.policy with
    | .haltOnFault => haltSession { s with io.pos := none }
    | .quarantineFaultingChannel => enterChannels rest (quarantine i s)
  else enterChannels rest s

/-- Pin transaction number `done` (0 to 97) of the frame read of channel `ch`, with the assignments up to the next one
(rules R117, R118 (b)). -/
def framePin (ch done : Nat) (s : State) : Flow Unit :=
  if done = 0 then pinWrite (s.csPinAt ch) .low s
  else if 97 ≤ done then (pinWrite (s.csPinAt ch) .high s).andThen fun _ s => .done () (latchFrame s)
  else
    match (done - 1) % 3 with
    | 0 => pinWrite s.cfg.clkPin .low s
    | 1 => sampleBit s
    | _ => pinWrite s.cfg.clkPin .high s

/-- What follows a frame's pin transaction number `done` (rules R155 to R157, R165): inside the frame, the next
transaction; after the first frame, the reference-junction result and the head of the second frame; after the second
frame, the thermocouple result and the end of the channel's visit. -/
def afterFramePin (p : SamplePos) (ch : Nat) (s : State) : State :=
  if p.done < 97 then { s with io.pos := some { p with done := p.done + 1 } }
  else if p.second = false then { frameHead ch (finishRj s) with io.pos := some { second := true, done := 0 } }
  else leaveChannel ch (finishTc s)

/-- One micro-step of PH_SAMPLE (rule R203): without a position, the head of the step; with one, one pin transaction and
the assignments up to the next. -/
def sampleMicro (s : State) : State :=
  match s.io.pos with
  | none => enterChannels s.channels (clearStaging s)
  | some p =>
    ((framePin s.sq.ch.toNat p.done s).andThen fun _ t => .done () (afterFramePin p s.sq.ch.toNat t)).settle

/-! ### PH_APPEND (rule R169) -/

/-- PhAppend() (rule R169): a column of the wrong length is a contract violation (rule R170); otherwise the column is
pre-initialised to Empty, overwritten with the staging column, and BUF_LEN incremented. -/
def phAppend (s : State) : Flow Unit :=
  if s.tab.stageLen ≠ s.cfg.nch then .raised .contractViolation s
  else
    let t := s.buf.len.toNat
    let s := writeColumn (fun _ => entryEmpty) t s.channels s
    let s := writeColumn s.stageAt t s.channels s
    .done () (({ s with buf.len := s.buf.len + 1 } : State).goto 3)

/-! ### Telemetry (rules R95, R172, R173) -/

/-- The list of a telemetry record: (CS_PIN[i], STAGE[i], RJSTAGE[i]) for i = 0 to STAGE_LEN - 1. -/
def State.telemItems (s : State) : List TelemItem :=
  (List.range s.tab.stageLen.toNat).map fun i =>
    { channelId := s.csPinAt i, entry := s.stageAt i, rjEntry := s.rjStageAt i }

/-- emit EvTelem(TICK, …). -/
def emitTelem (s : State) : State := s.emit (.telem s.sq.tick s.telemItems)

/-! ### The meanings; each runs when LC = Running and PHASE names it, which is the fetch's test (assumption log 14) -/

/-- PH_SAMPLE, rule R165. -/
def execPhSample (s : State) : Host.Outcome State Fault Refusal := .next (phSample s).settle

/-- PH_APPEND, rule R169. -/
def execPhAppend (s : State) : Host.Outcome State Fault Refusal := .next (phAppend s).settle

/-- PH_TELEM, rule R172. -/
def execPhTelem (s : State) : Host.Outcome State Fault Refusal := .next ((emitTelem s).goto 4)

/-- PH_HALT, rule R173: the partial column is reported and not committed. -/
def execPhHalt (s : State) : Host.Outcome State Fault Refusal := .next (stop .faultHalt (emitTelem s))

end Sys2Proof.Machine
end

