-- ==== Sys2Proof/Machine/LoopController.lean ====
section
/-! DEFINITION. The loop controller (spec/46_loop_controller.md): START, INTR, PH_BOUNDARY, PH_TICK, PH_SLEEP. -/

namespace Sys2Proof.Machine

/-- START's own assignments: LC <- Running; PHASE <- PH_BOUNDARY (rule R180). -/
def enterRunning (s : State) : State := ({ s with sq.lc := .running } : State).goto 0

/-- START (rule R180): claims the pins itself when they are not claimed. -/
def startCommand (s : State) : State :=
  inIdle s fun s =>
    if s.cfg.nch.toNat < 1 then refuse .configError s
    else if s.fl.claimed then enterRunning (accept s)
    else if claimable s then ((claimPins (accept s)).andThen fun _ s => .done () (enterRunning s)).settle
    else refuse .configError s

/-- PhBoundary() (rule R182): Completed is tested before Interrupted (rule R184). -/
def phBoundary (s : State) : State :=
  if s.cfg.maxTicks.toNat ≤ s.sq.tick.toNat then stop .completed s
  else if s.fl.intPending then stop .interrupted s
  else s.goto 1

/-- PhTick() (rule R185). -/
def phTick (s : State) : State :=
  let s : State := { s with sq.tick := s.sq.tick + 1 }
  if s.cfg.maxTicks.toNat ≤ s.sq.tick.toNat then s.goto 0 else s.goto 5

/-- PhSleep() (rule R186). -/
def phSleep (s : State) : State := (s.emit (.sleep s.cfg.interval)).goto 0

/-- START, rule R180. -/
def execStart (s : State) : Host.Outcome State Fault Refusal := .next (startCommand s)

/-- INTR, rule R191: accepted in every LC state; INT_PENDING <- 1. -/
def execIntr (s : State) : Host.Outcome State Fault Refusal := .next { accept s with fl.intPending := true }

/-- PH_BOUNDARY, rule R182. -/
def execPhBoundary (s : State) : Host.Outcome State Fault Refusal := .next (phBoundary s)

/-- PH_TICK, rule R185. -/
def execPhTick (s : State) : Host.Outcome State Fault Refusal := .next (phTick s)

/-- PH_SLEEP, rule R186. -/
def execPhSleep (s : State) : Host.Outcome State Fault Refusal := .next (phSleep s)

end Sys2Proof.Machine
end

