-- ==== Sys2Proof/Machine/HostBus.lean ====
section
/-! DEFINITION. The host register bus (spec/47_host_bus.md): the read views, the write tests, the command decoder behind
CMD, and the transactions REGRD and REGWR. -/

namespace Sys2Proof.Machine

/-! ### Reads (rules R45, R54, R195) -/

/-- BUF_DATA (rule R51): the selected entry of a committed column, Empty outside. -/
def bufData (s : State) : Word32 :=
  if s.buf.selCh.toNat < s.cfg.nch.toNat ∧ s.buf.selTick.toNat < s.buf.len.toNat then
    memRead s s.buf.selCh.toNat s.buf.selTick.toNat
  else entryEmpty

/-- The 32-bit read view of a register (rules R45, R54): zero-extended, but TCQ, RJQ and VAL sign-extended; CMD reads as
zero. -/
def readView (s : State) : Reg → Word32
  | .cmd => 0
  | .status => statusWord s
  | .nch => s.cfg.nch.setWidth 32
  | .clkPin => s.cfg.clkPin.setWidth 32
  | .dataPin => s.cfg.dataPin.setWidth 32
  | .unit => s.cfg.unit.code.setWidth 32
  | .interval => s.cfg.interval
  | .maxTicks => s.cfg.maxTicks
  | .policy => s.cfg.policy.code.setWidth 32
  | .tick => s.sq.tick
  | .frame => s.dp.frame
  | .sr => s.dp.sr
  | .bitcnt => s.dp.bitcnt.setWidth 32
  | .tcq => s.dp.tcq.signExtend 32
  | .rjq => s.dp.rjq.signExtend 32
  | .fs => s.dp.fs.code.setWidth 32
  | .val => s.dp.val.signExtend 32
  | .vmeta => (pathScale s.dp.vscale ++ s.dp.vunit.code).setWidth 32
  | .res => s.dp.res
  | .rjres => s.dp.rjres
  | .ch => s.sq.ch.setWidth 32
  | .stageLen => s.tab.stageLen.setWidth 32
  | .bufLen => s.buf.len
  | .bufCh => s.buf.selCh.setWidth 32
  | .bufTick => s.buf.selTick
  | .bufData => bufData s
  | .bit => s.dp.bit.setWidth 32
  | .csPin i => (s.csPinAt i).setWidth 32
  | .stage i => s.stageAt i
  | .rjStage i => s.rjStageAt i
  | .qstat i => ((s.qfsAt i).code ++ flagBit (s.quarAt i)).setWidth 32

/-- RegRd(rn) (rule R195): zero for a reserved number. -/
def regRead (rn : RegNum) (s : State) : Word32 :=
  match regOf s.params.nchMax rn with
  | some r => readView s r
  | none => 0

/-! ### Writes to registers other than CMD (rule R197) -/

/-- register <- wdata (rule R197 steps 2 and 7); a read-only register is not reached. -/
def storeReg (r : Reg) (wdata : Word32) (s : State) : State :=
  match r with
  | .nch => { s with cfg.nch := wdata.setWidth 6 }
  | .clkPin => { s with cfg.clkPin := wdata.setWidth 8 }
  | .dataPin => { s with cfg.dataPin := wdata.setWidth 8 }
  | .unit => { s with cfg.unit := (TempUnit.ofCode (wdata.setWidth 2)).getD s.cfg.unit }
  | .interval => { s with cfg.interval := wdata }
  | .maxTicks => { s with cfg.maxTicks := wdata }
  | .policy => { s with cfg.policy := Policy.ofCode (wdata.setWidth 1) }
  | .frame => { s with dp.frame := wdata }
  | .bufCh => { s with buf.selCh := wdata.setWidth 6 }
  | .bufTick => { s with buf.selTick := wdata }
  | .csPin i => { s with cfg.csPin := tabSet s.cfg.csPin i (wdata.setWidth 8) }
  | .cmd | .status | .tick | .sr | .bitcnt | .tcq | .rjq | .fs | .val | .vmeta | .res | .rjres | .ch | .stageLen
  | .bufLen | .bufData | .bit | .stage _ | .rjStage _ | .qstat _ => s

/-- The value is outside the register's legal values (rule R197 steps 5 and 6). -/
def badValue (p : Params) (r : Reg) (width : Nat) (wdata : Word32) : Bool :=
  decide (2 ^ width ≤ wdata.toNat) ||
    match r with
    | .nch => decide (wdata.toNat < 1) || decide (p.nchMax < wdata.toNat)
    | .unit => decide (wdata.toNat = 3)
    | .maxTicks => decide (p.bufDepth < wdata.toNat)
    | .cmd | .status | .clkPin | .dataPin | .interval | .policy | .tick | .frame | .sr | .bitcnt | .tcq | .rjq | .fs
    | .val | .vmeta | .res | .rjres | .ch | .stageLen | .bufLen | .bufCh | .bufTick | .bufData | .bit | .csPin _
    | .stage _ | .rjStage _ | .qstat _ => false

/-- ConfigWrite on a writable register of the map, tests 2 to 7 of rule R197. -/
def writeReg (r : Reg) (width : Nat) (wdata : Word32) (s : State) : State :=
  if r.isWindow then
    if 2 ^ width ≤ wdata.toNat then refuse .configError s else accept (storeReg r wdata s)
  else if s.sq.lc ≠ .idle then refuse .busy s
  else if r.isPinReg ∧ s.fl.claimed then refuse .busy s
  else if badValue s.params r width wdata then refuse .configError s
  else accept (storeReg r wdata s)

/-- ConfigWrite(rn, wdata) (rule R197): a reserved or read-only register is refused first. -/
def configWrite (rn : RegNum) (wdata : Word32) (s : State) : Host.Outcome State Fault Refusal :=
  match regOf s.params.nchMax rn with
  | none => .next (refuse .illegalCommand s)
  | some r =>
    match r.writeWidth with
    | none => .next (refuse .illegalCommand s)
    | some width => .next (writeReg r width wdata s)

/-! ### Writes to CMD (rule R198) -/

/-- Command(wdata) (rule R198): an illegal word is refused; a legal one runs the command it selects, whose own tests
follow. The last arm is reached by no word: the command decoder answers commands only. -/
def command (wdata : Word32) (s : State) : Host.Outcome State Fault Refusal :=
  match decodeCmdWrite wdata with
  | none => .next (refuse .illegalCommand s)
  | some i =>
    match i with
    | .claim => execClaim s
    | .release => execRelease s
    | .rdframe ch => execRdframe ch s
    | .tcfield => execTcfield s
    | .rjfield => execRjfield s
    | .classify => execClassify s
    | .tounit src unit => execTounit src unit s
    | .getrj ch => execGetrj ch s
    | .get ch => execGet ch s
    | .rdreading ch => execRdreading ch s
    | .start => execStart s
    | .intr => execIntr s
    | .setdir _ _ | .write _ _ | .read _ | .phBoundary | .phSample | .phAppend | .phTelem | .phTick | .phSleep
    | .phHalt | .regrd _ | .regwr _ _ => .next (refuse .illegalCommand s)

/-! ### The meanings -/

/-- REGRD rn, rule R195: no state of the hardware changes; the host is answered with the read view (assumption log 7). -/
def execRegrd (rn : RegNum) (s : State) : Host.Outcome State Fault Refusal :=
  .next { s with io.replies := regRead rn s :: s.io.replies }

/-- REGWR rn, wdata, rule R196. -/
def execRegwr (rn : RegNum) (wdata : Word32) (s : State) : Host.Outcome State Fault Refusal :=
  if rn = 0 then command wdata s else configWrite rn wdata s

end Sys2Proof.Machine
end

