-- ==== Sys2Proof/Machine/Dispatch.lean ====
section
/-! DEFINITION. The meaning of every operation, one arm each. -/

namespace Sys2Proof.Machine

def exec (i : Instr) (s : State) : Host.Outcome State Fault Refusal :=
  match i with
  | .claim => Sys2Proof.Machine.execClaim s
  | .release => Sys2Proof.Machine.execRelease s
  | .rdframe ch => Sys2Proof.Machine.execRdframe ch s
  | .tcfield => Sys2Proof.Machine.execTcfield s
  | .rjfield => Sys2Proof.Machine.execRjfield s
  | .classify => Sys2Proof.Machine.execClassify s
  | .tounit src unit => Sys2Proof.Machine.execTounit src unit s
  | .getrj ch => Sys2Proof.Machine.execGetrj ch s
  | .get ch => Sys2Proof.Machine.execGet ch s
  | .rdreading ch => Sys2Proof.Machine.execRdreading ch s
  | .start => Sys2Proof.Machine.execStart s
  | .intr => Sys2Proof.Machine.execIntr s
  | .setdir pin dir => Sys2Proof.Machine.execSetdir pin dir s
  | .write pin level => Sys2Proof.Machine.execWrite pin level s
  | .read pin => Sys2Proof.Machine.execRead pin s
  | .phBoundary => Sys2Proof.Machine.execPhBoundary s
  | .phSample => Sys2Proof.Machine.execPhSample s
  | .phAppend => Sys2Proof.Machine.execPhAppend s
  | .phTelem => Sys2Proof.Machine.execPhTelem s
  | .phTick => Sys2Proof.Machine.execPhTick s
  | .phSleep => Sys2Proof.Machine.execPhSleep s
  | .phHalt => Sys2Proof.Machine.execPhHalt s
  | .regrd rn => Sys2Proof.Machine.execRegrd rn s
  | .regwr rn wdata => Sys2Proof.Machine.execRegwr rn wdata s

end Sys2Proof.Machine
end

