-- ==== Sys2Proof/Machine/Fetch.lean ====
section
/-! DEFINITION. What the machine does next: whose turn it is, and which encoded operation stands at that agent's port
(spec/20_memory.md rule R71 (e), spec/30_encoding.md rule R89, spec/47_host_bus.md rules R202 to R204). There is no
instruction memory: a host's operation is the BUS word it presents, the sequencer's is the value of PHASE. -/

namespace Sys2Proof.Machine

/-- The action of a step, with the state it starts from (the turn is used up). -/
inductive Action where
  /-- the operation an encoded word stands for -/
  | run (w : Encoded) (s : State)
  /-- one micro-step of PH_SAMPLE (rule R203) -/
  | micro (s : State)
  /-- the core is at rest: LC is not Running (rules R192, R241) -/
  | rest (s : State)
  /-- the reset input (rule R240) -/
  | reset (s : State)
deriving DecidableEq, Repr

/-- The turn that is next used up. -/
def State.popTurn (s : State) : State := { s with io.turns := s.io.turns.tail }

/-- The PIN word on the port taken off it. -/
def State.takePort (s : State) : State := { s with io.port := 0 }

/-- The core's turn: a transaction waiting on the pin port; else, while LC = Running, the sequencer step in progress or
the one PHASE names, by micro-steps when `fine`; else rest (assumption log 4, 5, 6). Of the steps only PH_SAMPLE has more
than one micro-step (assumption log 4). -/
def coreTurn (fine : Bool) (s : State) : Action :=
  if pinPop s.io.port ≠ 0 then .run (.pin s.io.port) s.takePort
  else if s.sq.lc ≠ .running then .rest s
  else if s.io.pos.isSome then .micro s
  else if fine ∧ s.sq.phase = 1 then .micro s
  else .run (.seq s.sq.phase) s

/-- The next action. -/
def nextAction (s : State) : Action :=
  match s.io.turns with
  | [] => coreTurn false s
  | .host w :: _ => .run (.bus w) s.popTurn
  | .coreStep :: _ => coreTurn false s.popTurn
  | .coreMicro :: _ => coreTurn true s.popTurn
  | .reset :: _ => .reset s.popTurn

/-- The reset input (rule R240): every piece of state takes its value of rule R56; the parameters are no state, and the
agents outside the core are not reset (assumption log 11). -/
def resetInput (s : State) : State :=
  { State.reset with
    params := s.params
    io := { s.io with port := 0, pos := none } }

/-- The fault of a word that stands for no operation: PHASE 7, or a PIN word that is never issued (rules R85, R89; V5 and
V6 of 93_implementation_defined.md). A CMD word is never fetched as such, and every BUS word is an operation. -/
def undecoded : Encoded → Fault
  | .seq _ => .phaseReserved
  | .pin _ | .cmd _ | .bus _ => .pinWordReserved

/-- `s` with the encoded operation placed where the next step takes it: a BUS word as the host's next transaction, a CMD
word inside the host's write of it to register CMD (rule R44), a PIN word on the pin port, a SEQ word in PHASE of a
running session, which takes LC = Running, CLAIMED = 1 and no step in progress (assumption log 15). -/
def State.withOperation (s : State) (w : Encoded) : State :=
  match w with
  | .bus w => { s with io.turns := .host w :: s.io.turns }
  | .cmd w => { s with io.turns := .host (busWord 1 0 (w.setWidth 32)) :: s.io.turns }
  | .pin w => { s with io.turns := .coreStep :: s.io.turns, io.port := w }
  | .seq w =>
    { s with
      io.turns := .coreStep :: s.io.turns
      io.port := 0
      io.pos := none
      sq.lc := .running
      sq.phase := w
      fl.claimed := true }

end Sys2Proof.Machine
end

