-- ==== Sys2Proof/Machine/Step.lean ====
section
/-! DEFINITION. One step of the machine. -/

namespace Sys2Proof.Machine

/-- One step: a state that meets a condition of rule R226 faults; otherwise the next agent's action happens, an encoded
operation by its meaning. -/
def step (s : State) : Host.Outcome State Fault Refusal :=
  match bugOf s with
  | some f => .fault f
  | none =>
    match nextAction s with
    | .run w t =>
      match decode w with
      | some i => exec i t
      | none => .fault (undecoded w)
    | .micro t => .next (sampleMicro t)
    | .rest t => .next t
    | .reset t => .next (resetInput t)

/-- `s` with the opcode-table word placed where the next step takes its operation; unchanged where the table's lengths
admit no such word. -/
def State.withFetchWord (s : State) (nbits w : Nat) : State :=
  match tableWord nbits w with
  | some e => s.withOperation e
  | none => s

end Sys2Proof.Machine
end

