-- ==== Sys2Proof/Safety.lean ====
section
/-! DEFINITION. What counts as a good state and a good run of the TCFR, in the terms the statements use: the end of a run
(spec/46_loop_controller.md rule R194), the environment's answers as a stream (spec/20_memory.md rule R63), and three
invariants: the sequencer's (spec/60_exceptions.md rule R226), the bus's (spec/10_state.md rule R53, spec/40_transport.md
rules R116, R119) and the buffer's (spec/45_sampler_buffer.md rule R171). -/

namespace Sys2Proof.Machine

/-! ### The end of a run (rule R194) -/

/-- The session reached a final state: LC = Stopped. -/
def State.finished (s : State) : Prop := s.sq.lc = .stopped

/-- The session ended in a fault of the run: LC = Aborted. -/
def State.aborted (s : State) : Prop := s.sq.lc = .aborted

/-! ### The environment's answers -/

/-- The answer the environment gives the pin transaction that is `k` transactions ahead: a settled answer, or the free
values of that draw. -/
def State.answerAt (s : State) (k : Nat) : PinAnswer :=
  match s.io.answers[k]? with
  | some a => a
  | none =>
    { ok := Config.pinOk (s.io.drawn + k), level := if Config.pinLevel (s.io.drawn + k) then .high else .low }

/-- The state after the environment has answered `n` more transactions. -/
def State.drawnBy (n : Nat) (s : State) : State :=
  { s with io.answers := s.io.answers.drop n, io.drawn := s.io.drawn + n }

/-- None of the `n` pin transactions from number `from` on fails. -/
def State.allOk (s : State) (start n : Nat) : Prop := ∀ k, k < n → (s.answerAt (start + k)).ok = true

/-- The level that is bit `31 - k` of `F`, the k-th bit of its stream. -/
def streamLevel (F : Word32) (k : Nat) : Level := if F.getLsbD (31 - k) then .high else .low

/-- The 98 pin transactions from number `start` on succeed, and their 32 READs return the bits of `F`, most significant
first (rules R61, R118): READ number k is transaction number 2 + 3 k of a frame read. -/
def State.answersFrame (s : State) (start : Nat) (F : Word32) : Prop :=
  s.allOk start 98 ∧ ∀ k, k < 32 → (s.answerAt (start + (2 + 3 * k))).level = streamLevel F k

/-- A list of settled answers that makes a frame read return `F`. -/
def frameAnswers (F : Word32) : List PinAnswer :=
  { ok := true, level := .low } ::
    (List.range 32).flatMap (fun k =>
      [{ ok := true, level := .low }, { ok := true, level := streamLevel F k },
        { ok := true, level := .low }])
    ++ [{ ok := true, level := .low }]

/-- `n` settled answers that make `n` transactions succeed. -/
def okAnswers (n : Nat) : List PinAnswer := List.replicate n { ok := true, level := .low }

/-! ### A completed frame read (rules R61, R117, R118, R120) -/

/-- The events of one clock pulse whose READ returns `l`. -/
def pulseTrace (clk data : PinId) (l : Level) : List Event :=
  [.pin (.write .low) clk .ok, .pin .read data (.okBit l), .pin (.write .high) clk .ok]

/-- The 98 events of a frame read that returns `F`, in their order (rules R118 (b), R120). -/
def frameTrace (cs clk data : PinId) (F : Word32) : List Event :=
  .pin (.write .low) cs .ok :: ((List.range 32).flatMap fun k => pulseTrace clk data (streamLevel F k))
    ++ [.pin (.write .high) cs .ok]

/-- What pin transaction number `k` (0 to 97) of a frame read asks, and of which pin (rules R117, R118 (b)): the
chip-select low, 32 groups of clock low, READ, clock high, the chip-select high. -/
def frameOp (cs clk data : PinId) (k : Nat) : PinOp × PinId :=
  if k = 0 then (.write .low, cs)
  else if 97 ≤ k then (.write .high, cs)
  else
    match k % 3 with
    | 1 => (.write .low, clk)
    | 2 => (.read, data)
    | _ => (.write .high, clk)

/-- The event of a transaction the environment answers with `a` (rules R110 to R112). -/
def pinEvent (o : PinOp × PinId) (a : PinAnswer) : Event :=
  .pin o.1 o.2 (match o.1 with
    | .read => a.readResult
    | .setDir _ | .write _ => a.result)

/-- The events of the first `n` transactions of a frame read of channel `ch`, with the environment's answers. -/
def State.frameEvents (s : State) (ch n : Nat) : List Event :=
  (List.range n).map fun k => pinEvent (frameOp (s.csPinAt ch) s.cfg.clkPin s.cfg.dataPin k) (s.answerAt k)

/-- The state a completed frame read of channel `ch` leaves when the environment answered `F` (rules R117, R118): CH, SR,
BITCNT, BIT, FRAME, the levels of the clock and of the channel's chip-select, 98 events, 98 answers used up. -/
def State.frameRead (ch : Nat) (F : Word32) (s : State) : State :=
  { s with
    dp := { s.dp with frame := F, sr := F, bitcnt := 32, bit := F.extractLsb' 0 1 }
    sq.ch := BitVec.ofNat 6 ch
    pins.lvl := (s.pins.lvl.set s.cfg.clkPin.toNat (some .high) s.cfg.clkPin.isLt).set (s.csPinAt ch).toNat
      (some .high) (s.csPinAt ch).isLt
    history := (frameTrace (s.csPinAt ch) s.cfg.clkPin s.cfg.dataPin F).reverse ++ s.history
    io := { s.io with answers := s.io.answers.drop 98, drawn := s.io.drawn + 98 } }

/-! ### Traces and entries the statements speak of -/

/-- The events of a CLAIM in which no transaction fails, in their order (rule R113). -/
def claimTrace (css : List PinId) (clk data : PinId) : List Event :=
  (css.flatMap fun p => [.pin (.setDir .output) p .ok, .pin (.write .high) p .ok])
    ++ [.pin (.setDir .output) clk .ok, .pin (.write .high) clk .ok, .pin (.setDir .input) data .ok]

/-- The pins a release sets to input: the configured pins still claimed, each once, in the release's order (rule R114). -/
def State.claimedPins (s : State) : List PinId := (s.busPins.filter fun p => s.pdir p != none).eraseDups

/-- The events of a release's pin transactions, each with the environment's answer (rule R114). -/
def State.releaseTrace (s : State) : List Event :=
  s.claimedPins.zipIdx.map fun pk => .pin (.setDir .input) pk.1 (s.answerAt pk.2).result

/-- The entry GETRJ makes of the frame `F` (rules R131, R145, R155). -/
def rjEntryOf (u : TempUnit) (F : Word32) : Word32 :=
  entryReading u .rj (BitVec.ofInt 18 (convert .rj u (rjFieldOf F).toInt))

/-- The entry GET makes of the frame `F` (rules R130, R140, R145, R156). -/
def tcEntryOf (u : TempUnit) (F : Word32) : Word32 :=
  if classifyFrame F = .none then entryReading u .tc (BitVec.ofInt 18 (convert .tc u (tcFieldOf F).toInt))
  else entryFault (classifyFrame F)

/-- The datapath after the two frame reads of a channel that return `F`, then `G` (rules R155 to R157): the union of what
GETRJ writes from `F` and GET from `G`; TCQ keeps its value, and VAL and VSCALE those of the reference junction, when `G`
has its fault flag set (rules R156, R259). -/
def Datapath.afterReading (u : TempUnit) (F G : Word32) (d : Datapath) : Datapath :=
  let fault := G.getLsbD 16
  { frame := G
    sr := G
    bitcnt := 32
    bit := G.extractLsb' 0 1
    tcq := if fault then d.tcq else tcFieldOf G
    rjq := rjFieldOf F
    fs := classifyFrame G
    val := BitVec.ofInt 18
      (if fault then convert .rj u (rjFieldOf F).toInt else convert .tc u (tcFieldOf G).toInt)
    vscale := if fault then .rj else .tc
    vunit := u
    res := tcEntryOf u G
    rjres := rjEntryOf u F }

/-- How many of the channels below `i` are not quarantined, so that PH_SAMPLE reads them (rule R167). -/
def State.activeBelow (s : State) (i : Nat) : Nat := ((List.range i).filter fun j => !s.quarAt j).length

/-- The one form of the buffer (rules R50, R171): every configured channel's sequence has BUF_LEN entries, and no other
channel has any, so that equal buffers are equal data. It is the machine's one data memory (rule R60). -/
abbrev Memory.wf (s : State) : Prop :=
  ∀ ch, ch < 32 → (s.seqAt ch).length = if ch < s.cfg.nch.toNat then s.buf.len.toNat else 0

/-! ### The sequencer's invariant (rules R30, R33, R171, R226) -/

/-- STOP_REASON fits LC, and the reason ContractViolation has not occurred (rules R30, R170). -/
def reasonFits : LoopState → StopReason → Bool
  | .idle, .none => true
  | .running, .none => true
  | .stopped, .completed => true
  | .stopped, .faultHalt => true
  | .stopped, .interrupted => true
  | .aborted, .transportFailure => true
  | _, _ => false

/-- The phases 1, 2, 3, 4 and 6, in which a cycle is in progress (rules R171, R181). -/
def inCycle (phase : BitVec 3) : Bool := phase == 1 || phase == 2 || phase == 3 || phase == 4 || phase == 6

/-- The phases 3 and 4, in which the column of the present tick is already committed (rule R171 (c)). -/
def committed (phase : BitVec 3) : Bool := phase == 3 || phase == 4

/-- What holds of the sequencer in every reachable state: everything rule R226 says cannot happen does not, and what that
takes. -/
structure SequencerInv (s : State) : Prop where
  params : s.params.wf
  nch : s.cfg.nch.toNat ≤ s.params.nchMax
  maxTicks : s.cfg.maxTicks.toNat ≤ s.params.bufDepth
  port : s.io.port = 0
  phase : s.sq.phase ≠ 7
  reason : reasonFits s.sq.lc s.sq.stopReason = true
  running : s.sq.lc = .running → s.fl.claimed = true ∧ 1 ≤ s.cfg.nch.toNat
  idle : s.sq.lc = .idle → s.sq.tick = 0 ∧ s.buf.len = 0 ∧ s.tab.stageLen = 0
  stageLen : s.tab.stageLen.toNat ≤ s.cfg.nch.toNat
  staged : s.sq.lc = .running → s.sq.phase = 2 → s.tab.stageLen = s.cfg.nch
  tick : s.sq.tick.toNat ≤ s.cfg.maxTicks.toNat
  cycle : s.sq.lc = .running → inCycle s.sq.phase = true → s.sq.tick.toNat < s.cfg.maxTicks.toNat
  length : s.buf.len.toNat =
    if s.sq.lc = .running ∧ committed s.sq.phase = true then s.sq.tick.toNat + 1 else s.sq.tick.toNat
  pos : s.io.pos.isSome = true → s.sq.lc = .running ∧ s.sq.phase = 1 ∧ s.sq.ch.toNat < s.cfg.nch.toNat
  kinds : ∀ e ∈ s.entries, entryKind e ≠ 3

/-! ### The bus's invariant (rules R52, R53, R116, R119) -/

/-- The line of pin `p` is an output of the core at level `l`. -/
def State.drives (s : State) (p : PinId) (l : Level) : Prop := s.pdir p = some .output ∧ s.plvl p = some l

/-- The bus is idle and claimed: the clock and every chip-select are outputs and high, the data pin is an input (rules
R53, R116). -/
def State.busIdle (s : State) : Prop :=
  (∀ i, i < s.cfg.nch.toNat → s.drives (s.csPinAt i) .high) ∧ s.drives s.cfg.clkPin .high ∧
    s.pdir s.cfg.dataPin = some .input

/-- What holds of the pins in every reachable state. Without CLAIMED no pin is claimed; with it the configured pins are
pairwise different, no other pin is claimed, and the bus is idle, but inside a frame read, where the chip-select of the
channel CH alone is low once the read's first transaction is done, and the clock is low between transactions 1 and 3 of
each pulse (numbers 3 k + 1 to 3 k + 3 of the frame). -/
structure BusInv (s : State) : Prop where
  port : s.io.port = 0
  unclaimed : s.fl.claimed = false → ∀ p, s.pdir p = none ∧ s.plvl p = none
  distinct : s.fl.claimed = true → s.busPins.Nodup
  others : s.fl.claimed = true → ∀ p, p ∉ s.busPins → s.pdir p = none ∧ s.plvl p = none
  idle : s.fl.claimed = true → s.io.pos = none → s.busIdle
  running : s.io.pos.isSome = true → s.sq.lc = .running ∧ s.fl.claimed = true ∧ s.sq.ch.toNat < s.cfg.nch.toNat
  terminal : s.sq.lc = .stopped ∨ s.sq.lc = .aborted → s.fl.claimed = false
  inFrame : ∀ p, s.io.pos = some p →
    (∀ i, i < s.cfg.nch.toNat →
      s.drives (s.csPinAt i) (if i = s.sq.ch.toNat ∧ p.done ≠ 0 then .low else .high)) ∧
    s.drives s.cfg.clkPin (if p.done = 0 ∨ p.done % 3 = 1 then .high else .low) ∧
    s.pdir s.cfg.dataPin = some .input ∧ p.done ≤ 97

/-! ### The buffer's invariant (rules R50, R87, R166, R171) -/

/-- What holds of the buffer in every reachable state: in Idle it is empty and no channel is quarantined; afterwards every
configured channel's sequence has BUF_LEN entries; and under HaltOnFault no channel is quarantined and no FaultMarker is
staged for an append or committed. -/
structure BufferInv (s : State) : Prop where
  seq : SequencerInv s
  idle : s.sq.lc = .idle → ∀ ch, s.seqAt ch = [] ∧ s.quarAt ch = false
  lengths : ∀ ch, ch < s.cfg.nch.toNat → (s.seqAt ch).length = s.buf.len.toNat
  noQuarantine : s.cfg.policy = .haltOnFault → ∀ ch, s.quarAt ch = false
  noMarkerStaged : s.cfg.policy = .haltOnFault → s.sq.lc = .running → s.sq.phase = 2 →
    ∀ ch, ch < s.cfg.nch.toNat → entryKind (s.stageAt ch) ≠ 2
  noMarkerInPass : s.cfg.policy = .haltOnFault → s.io.pos.isSome = true →
    ∀ ch, ch < s.sq.ch.toNat → entryKind (s.stageAt ch) ≠ 2
  noMarkerCommitted : s.cfg.policy = .haltOnFault → ∀ ch, ch < s.cfg.nch.toNat →
    ∀ e ∈ s.seqAt ch, entryKind e ≠ 2

end Sys2Proof.Machine
end

