-- ==== Sys2Proof/Certificates/Slice0/Obligations.lean ====
section
/-! DEFINITION. The statements for the provers, each about the machine of `step` and `exec`; none rests on the value of a
free value. Where a statement needs the environment not to fail it says for how many transactions. -/

open Sys2Proof Sys2Proof.Machine

/-! ### Encoding -/

/-- Rules R83, R85, R88, R89: decoding the encoding of a well-formed operation gives it back, every operand included. -/
def Obligations.DecodeOfEncode : Prop :=
  ∀ i : Instr, i.wellFormed = true → decode (encode i) = some i

/-- Rules R83, R85, R89, R92: a word that decodes is the encoding of what it decodes to, and that is well-formed; of the
BUS words, whose reads ignore wdata, this is said of the writes. -/
def Obligations.EncodeOfDecode : Prop :=
  (∀ w i, decode (.cmd w) = some i → encode i = .cmd w ∧ i.wellFormed = true) ∧
  (∀ w i, decode (.pin w) = some i → encode i = .pin w ∧ i.wellFormed = true) ∧
  (∀ w i, decode (.seq w) = some i → encode i = .seq w ∧ i.wellFormed = true) ∧
  (∀ w rn d, decode (.bus w) = some (.regwr rn d) → encode (.regwr rn d) = .bus w)

/-- Words written out from the tables of rules R83, R85, R88 and R89, and from the examples of the spec, decode to the
operations they stand for. -/
def Obligations.WrittenWordsDecode : Prop :=
  decode (.cmd 0x0800) = some .claim ∧ decode (.cmd 0x1805) = some (.rdframe 5) ∧
  decode (.cmd 0x2000) = some .tcfield ∧ decode (.cmd 0x3000) = some .classify ∧
  decode (.cmd 0x3E00) = some (.tounit .rj 2) ∧ decode (.cmd 0x5001) = some (.rdreading 1) ∧
  decode (.cmd 0x5800) = some .start ∧ decode (.pin 0x308) = some (.setdir 8 .output) ∧
  decode (.pin 0x40B) = some (.write 11 .low) ∧ decode (.pin 0x609) = some (.read 9) ∧
  decode (.seq 1) = some .phSample ∧ decode (.seq 7) = none ∧ decode (.cmd 0x3B00) = none ∧
  decode (.bus 0x00D00000000) = some (.regrd 0x0D) ∧ decode (.bus 0x10A_FFFC8010) = some (.regwr 0x0A 0xFFFC8010)

/-- Rule R84: a word written to CMD is illegal exactly when one of the rule's conditions holds (bits 31:16 not zero; op
0x00 or 0x0D to 0x1F; mod not zero outside TOUNIT; idx not zero in a command without an index; unit 3 in TOUNIT), and an
illegal word is refused with IllegalCommand and no other effect. -/
def Obligations.IllegalCommandWordsRefused : Prop :=
  ∀ (w : Word32) (s : State),
    (decodeCmdWrite w = none ↔
      2 ^ 16 ≤ w.toNat ∨ w.toNat / 2 ^ 11 % 32 = 0 ∨ 0x0D ≤ w.toNat / 2 ^ 11 % 32 ∨
      (w.toNat / 2 ^ 11 % 32 ≠ 0x07 ∧ w.toNat / 2 ^ 8 % 8 ≠ 0) ∨
      (w.toNat / 2 ^ 11 % 32 ∈ [0x01, 0x02, 0x04, 0x05, 0x06, 0x07, 0x0B, 0x0C] ∧ w.toNat % 2 ^ 8 ≠ 0) ∨
      (w.toNat / 2 ^ 11 % 32 = 0x07 ∧ w.toNat / 2 ^ 8 % 4 = 3)) ∧
    (decodeCmdWrite w = none → exec (.regwr 0 w) s = .next { s with fl.err := .illegalCommand })

/-- Rules R196, R198: a write of a legal word to CMD runs the command the word selects, in every state. -/
def Obligations.CommandWriteRunsCommand : Prop :=
  ∀ (w : Word32) (i : Instr) (s : State), decodeCmdWrite w = some i → exec (.regwr 0 w) s = exec i s

/-! ### The step -/

/-- Rules R89, R195, R196, R203, R204, R226, R241: what a step does. In a state that meets a condition of rule R226
(PHASE = 7 among them) it faults. In every other state: on the host's turn it runs the operation the BUS word decodes to.
On the core's turn, when a PIN word waits on the port, it runs the transaction the word decodes to, and faults when it
decodes to none; otherwise, outside Running, it changes nothing but the turns; in Running with a place inside PH_SAMPLE, or
at PH_SAMPLE on a turn for a micro-step, it makes one micro-step; else it runs the step PHASE decodes to. Around this it
only uses up the turn and takes the word off the port. Turns, port and place are the model's own (assumption log 3, 4, 5,
6), and so is that the conditions are tested on every turn (assumption log 10). -/
def Obligations.StepRunsDecodedOperation : Prop :=
  ∀ s : State,
    let bug := s.sq.phase = 7 ∨ (s.sq.lc = .running ∧ s.fl.claimed = false) ∨
      (∃ e, entryKind e = 3 ∧ (e = s.dp.res ∨ e = s.dp.rjres ∨ (∃ i, i < 32 ∧ (e = s.stageAt i ∨ e = s.rjStageAt i)) ∨
        ∃ ch, ch < 32 ∧ e ∈ s.seqAt ch)) ∨
      s.cfg.nch.toNat < s.tab.stageLen.toNat ∨ s.params.bufDepth < s.buf.len.toNat ∨
      s.cfg.maxTicks.toNat < s.sq.tick.toNat
    let micro := ∃ ts, s.io.turns = .coreMicro :: ts
    let core := s.io.turns = [] ∨ (∃ ts, s.io.turns = .coreStep :: ts) ∨ micro
    let s' : State := { s with io.turns := s.io.turns.tail }
    (bug → ∃ f, step s = .fault f) ∧
    (¬ bug →
      (∀ w ts i, s.io.turns = .host w :: ts → decode (.bus w) = some i → step s = exec i s') ∧
      (core → pinPop s.io.port ≠ 0 →
        (∀ i, decode (.pin s.io.port) = some i → step s = exec i { s' with io.port := 0 }) ∧
        (decode (.pin s.io.port) = none → ∃ f, step s = .fault f)) ∧
      (core → pinPop s.io.port = 0 →
        (s.sq.lc ≠ .running → step s = .next s') ∧
        (s.sq.lc = .running → s.io.pos.isSome = true ∨ (micro ∧ s.sq.phase = 1) → step s = .next (sampleMicro s')) ∧
        (s.sq.lc = .running → s.io.pos = none → ¬ (micro ∧ s.sq.phase = 1) →
          ∀ i, decode (.seq s.sq.phase) = some i → step s = exec i s')))

/-- Every operation answers a next state in every state: no operation of the table is refused or faults (the host's
misuse is refused in ERR, rule R199, and failures end in the state Aborted, rule R214). That exec does not test again what
the fetch has tested is the model's choice (assumption log 14). -/
def Obligations.EveryOperationAnswersNext : Prop :=
  ∀ (i : Instr) (s : State), ∃ t, exec i s = .next t

/-- Rule R192: in Stopped and Aborted the sequencer takes no step, and no host transaction changes a register of the
datapath, the sequencer or the configuration, a table, the committed buffer or HALT; only reset leaves these states. -/
def Obligations.TerminalStatesStay : Prop :=
  ∀ s t : State, s.sq.lc = .stopped ∨ s.sq.lc = .aborted → s.io.port = 0 → (∀ ts, s.io.turns ≠ .reset :: ts) →
    step s = .next t →
    t.sq = s.sq ∧ t.dp = s.dp ∧ t.cfg = s.cfg ∧ t.tab = s.tab ∧ t.buf.seqs = s.buf.seqs ∧ t.buf.len = s.buf.len ∧
      t.fl.halt = s.fl.halt

/-! ### Reset -/

/-- Rule R56: the state after reset, register by register. -/
def Obligations.ResetValues : Prop :=
  let s := State.reset
  (s.dp.frame = 0 ∧ s.dp.sr = 0 ∧ s.dp.tcq = 0 ∧ s.dp.rjq = 0 ∧ s.dp.val = 0 ∧ s.dp.res = 0 ∧ s.dp.rjres = 0) ∧
  (s.dp.bitcnt = 0 ∧ s.dp.bit = 0 ∧ s.dp.fs = .none ∧ s.dp.vscale = .tc ∧ s.dp.vunit = .celsius ∧ s.sq.ch = 0) ∧
  (s.sq.lc = .idle ∧ s.sq.stopReason = .none ∧ s.sq.phase = 0 ∧ s.sq.tick = 0) ∧
  (s.fl.halt = false ∧ s.fl.intPending = false ∧ s.fl.claimed = false ∧ s.fl.err = .none) ∧
  (s.cfg.nch = 0 ∧ (∀ i, s.csPinAt i = 0) ∧ s.cfg.clkPin = 0 ∧ s.cfg.dataPin = 0 ∧ s.cfg.unit = .celsius) ∧
  (s.cfg.interval = 0 ∧ s.cfg.maxTicks = 0 ∧ s.cfg.policy = .haltOnFault) ∧
  (∀ i, s.stageAt i = 0 ∧ s.rjStageAt i = 0 ∧ s.quarAt i = false ∧ s.qfsAt i = .none) ∧ s.tab.stageLen = 0 ∧
  (s.buf.len = 0 ∧ (∀ ch, s.seqAt ch = []) ∧ s.buf.selCh = 0 ∧ s.buf.selTick = 0) ∧
  (∀ p, s.pdir p = none ∧ s.plvl p = none) ∧ s.events = []

/-- Rule R240: the reset input gives every piece of state its reset value at once, with no pin transaction and no event;
the parameters, which are no state, and the agents outside the core stay (assumption log 11). -/
def Obligations.ResetInputResets : Prop :=
  ∀ (s : State) (ts : List Turn), bugOf s = none → s.io.turns = .reset :: ts →
    step s = .next
      { State.reset with params := s.params, io := { s.io with turns := ts, port := 0, pos := none } }

/-! ### Invariants -/

/-- Rule R226: in the state after reset, for every choice of the parameters, the three invariants hold. -/
def Obligations.InvariantsAtReset : Prop :=
  ∀ p : Params, p.wf →
    SequencerInv { State.reset with params := p } ∧ BusInv { State.reset with params := p } ∧
      BufferInv { State.reset with params := p }

/-- Rules R170, R171, R226: from a state with the sequencer's invariant every step answers a next state (it meets no
condition of rule R226), and the invariant holds there; so nothing rule R226 lists and no ContractViolation is reached. The
clauses about port and pos speak of the model's own fields (assumption log 5, 6). -/
def Obligations.SequencerInvariantKept : Prop :=
  ∀ s : State, SequencerInv s → ∃ t, step s = .next t ∧ SequencerInv t

/-- Rules R53, R116, R119: every step keeps the bus's invariant: the bus idle between frame reads, at most one
chip-select low inside one, no pin claimed without CLAIMED. The clauses about port and pos speak of the model's own fields
(assumption log 5, 6). -/
def Obligations.BusInvariantKept : Prop :=
  ∀ s t : State, BusInv s → step s = .next t → BusInv t

/-- Rules R50, R166, R171: every step keeps the buffer's invariant: aligned lengths equal to BUF_LEN, and no FaultMarker
committed under HaltOnFault. The clauses about port and pos speak of the model's own fields (assumption log 5, 6). -/
def Obligations.BufferInvariantKept : Prop :=
  ∀ s t : State, BufferInv s → step s = .next t → BufferInv t

/-- Rule R50: the buffer is append-only: a step other than reset extends a configured channel's sequence by at most one
entry and changes no committed entry. -/
def Obligations.BufferOnlyGrows : Prop :=
  ∀ s t : State, BufferInv s → (∀ ts, s.io.turns ≠ .reset :: ts) → step s = .next t →
    ∀ ch, ch < s.cfg.nch.toNat → ∃ l, t.seqAt ch = s.seqAt ch ++ l ∧ l.length ≤ 1

/-! ### The fine and the coarse sequencer -/

/-- Rules R203, R204: the micro-steps of a PH_SAMPLE, run from its beginning with no host transaction between them, end
in exactly the state the whole step gives, and between them the step is still in progress. How the place inside the step
is held is the model's choice (assumption log 4, 5). -/
def Obligations.MicroStepsMakeWholeStep : Prop :=
  ∀ s : State, s.io.pos = none → ∃ n : Nat,
    exec .phSample s = .next (sampleMicro^[n + 1] s) ∧ ∀ m, 0 < m → m ≤ n → (sampleMicro^[m] s).io.pos.isSome = true

/-- Rule R204: BUF_CH and BUF_TICK are read by no sequencer step, and INT_PENDING by none but PH_BOUNDARY: changing them
before such a step is changing them after it. -/
def Obligations.SequencerIgnoresHostWindow : Prop :=
  ∀ (i : Instr) (s t : State) (a : BitVec 6) (b : Word32) (c : Bool), exec i s = .next t →
    (i ∈ [.phBoundary, .phSample, .phAppend, .phTelem, .phTick, .phSleep, .phHalt] →
      exec i { s with buf.selCh := a, buf.selTick := b } = .next { t with buf.selCh := a, buf.selTick := b }) ∧
    (i ∈ [.phSample, .phAppend, .phTelem, .phTick, .phSleep, .phHalt] →
      exec i { s with buf.selCh := a, buf.selTick := b, fl.intPending := c } =
        .next { t with buf.selCh := a, buf.selTick := b, fl.intPending := c })

/-! ### Who writes what -/

/-- Rules R33, R34, R47 to R50, R55, R74: TICK is written by PH_TICK alone, the committed buffer by PH_APPEND alone, the
tables and HALT by PH_SAMPLE alone, INT_PENDING by INTR alone (or the write that gives the command), the configuration
and the window by REGWR alone; the parameters by nothing. -/
def Obligations.OnlyWriters : Prop :=
  ∀ (i : Instr) (s t : State), exec i s = .next t →
    (i ≠ .phTick → t.sq.tick = s.sq.tick) ∧
    (i ≠ .phAppend → t.buf.seqs = s.buf.seqs ∧ t.buf.len = s.buf.len) ∧
    (i ≠ .phSample → t.tab = s.tab ∧ t.fl.halt = s.fl.halt) ∧
    (i ≠ .intr → (∀ rn w, i ≠ .regwr rn w) → t.fl.intPending = s.fl.intPending) ∧
    ((∀ rn w, i ≠ .regwr rn w) → t.cfg = s.cfg ∧ t.buf.selCh = s.buf.selCh ∧ t.buf.selTick = s.buf.selTick) ∧
    t.params = s.params

/-- Rules R34, R57: no operation clears HALT or INT_PENDING, and none removes or changes an event of the history. -/
def Obligations.LatchesAndHistoryStay : Prop :=
  ∀ (i : Instr) (s t : State), exec i s = .next t →
    (s.fl.halt = true → t.fl.halt = true) ∧ (s.fl.intPending = true → t.fl.intPending = true) ∧
      ∃ l, t.events = s.events ++ l

/-! ### Pin transactions -/

/-- Rules R110 to R112: a transaction the environment answers ok is recorded, and writes PDIR, PLVL or nothing; nothing
else changes but the environment's answer being used up. -/
def Obligations.PinTransactionSucceeds : Prop :=
  ∀ (p : PinId) (s : State), (s.answerAt 0).ok = true →
    (∀ d, exec (.setdir p d) s = .next
      { s.drawnBy 1 with
        pins.dir := s.pins.dir.set p.toNat (some d) p.isLt
        history := .pin (.setDir d) p .ok :: s.history }) ∧
    (∀ l, exec (.write p l) s = .next
      { s.drawnBy 1 with
        pins.lvl := s.pins.lvl.set p.toNat (some l) p.isLt
        history := .pin (.write l) p .ok :: s.history }) ∧
    exec (.read p) s = .next
      { s.drawnBy 1 with history := .pin .read p (.okBit (s.answerAt 0).level) :: s.history }

/-- Rules R115, R212, R214: a transaction the environment answers fail is recorded as failed and followed at once by the
abort: LC = Aborted, STOP_REASON = TransportFailure, EvStop, then the release of the configured pins; the datapath, the
configuration, the tables, the buffer, PHASE, CH and TICK keep their values. That a transaction run on its own aborts too is
the model's reading (assumption log 18). -/
def Obligations.PinTransactionFails : Prop :=
  ∀ (i : Instr) (p : PinId) (op : PinOp) (s : State), (s.answerAt 0).ok = false →
    ((∃ d, i = .setdir p d ∧ op = .setDir d) ∨ (∃ l, i = .write p l ∧ op = .write l) ∨ (i = .read p ∧ op = .read)) →
    ∃ t, exec i s = .next t ∧ t.sq = { s.sq with lc := .aborted, stopReason := .transportFailure } ∧
      t.fl = { s.fl with claimed := false } ∧ t.dp = s.dp ∧ t.cfg = s.cfg ∧ t.tab = s.tab ∧ t.buf = s.buf ∧
      t.params = s.params ∧ (∀ q, t.pdir q = if q ∈ s.busPins then none else s.pdir q) ∧
      (∀ q, t.plvl q = if q ∈ s.busPins ∧ s.pdir q ≠ none then none else s.plvl q) ∧
      t.events = s.events ++ [.pin op p .fail, .stop .aborted .transportFailure] ++ (s.drawnBy 1).releaseTrace
        ++ [.release s.claimedPins.length] ∧
      t.io = { (s.drawnBy (1 + s.claimedPins.length)).io with pos := none }

/-! ### Claim and release -/

/-- Rule R113: in Idle, with no pin claimed, at least one channel and pairwise different pins, and with no transaction
failing, CLAIM makes every chip-select and the clock outputs and high and the data pin an input, by the 2 NCH + 3
transactions of the rule in their order, sets CLAIMED, and changes nothing else but ERR <- 0. -/
def Obligations.ClaimClaimsPins : Prop :=
  ∀ s : State, s.sq.lc = .idle → s.fl.claimed = false → 1 ≤ s.cfg.nch.toNat → s.busPins.Nodup →
    s.allOk 0 (2 * s.cfg.nch.toNat + 3) →
    ∃ t, exec .claim s = .next t ∧ t.fl = { s.fl with claimed := true, err := .none } ∧ t.busIdle ∧
      (∀ p, p ∉ s.busPins → t.pdir p = s.pdir p ∧ t.plvl p = s.plvl p) ∧
      t.plvl s.cfg.dataPin = s.plvl s.cfg.dataPin ∧
      t.events = s.events ++ claimTrace s.csPins s.cfg.clkPin s.cfg.dataPin ∧
      t.dp = s.dp ∧ t.sq = s.sq ∧ t.cfg = s.cfg ∧ t.tab = s.tab ∧ t.buf = s.buf ∧ t.params = s.params ∧
      t.io = (s.drawnBy (2 * s.cfg.nch.toNat + 3)).io

/-- Rule R113: in Idle, CLAIM with the pins already claimed is accepted and does nothing; with no pin claimed and no
channel, or with two equal pins, it is refused with ConfigError and changes nothing else. -/
def Obligations.ClaimWithoutTransactions : Prop :=
  ∀ s : State, s.sq.lc = .idle →
    (s.fl.claimed = true → exec .claim s = .next { s with fl.err := .none }) ∧
    (s.fl.claimed = false → (s.cfg.nch = 0 ∨ ¬ s.busPins.Nodup) →
      exec .claim s = .next { s with fl.err := .configError } ∧ exec .start s = .next { s with fl.err := .configError })

/-- Rule R114: in Idle, Stopped and Aborted, RELEASE unclaims every configured pin whatever the environment answers,
clears CLAIMED, emits EvRelease(k) after its k transactions, and changes nothing else but ERR <- 0. -/
def Obligations.ReleaseFreesPins : Prop :=
  ∀ s : State, s.sq.lc ≠ .running →
    ∃ t, exec .release s = .next t ∧ t.fl = { s.fl with claimed := false, err := .none } ∧
      (∀ q, t.pdir q = if q ∈ s.busPins then none else s.pdir q) ∧
      (∀ q, t.plvl q = if q ∈ s.busPins ∧ s.pdir q ≠ none then none else s.plvl q) ∧
      t.events = s.events ++ s.releaseTrace ++ [.release s.claimedPins.length] ∧
      t.dp = s.dp ∧ t.sq = s.sq ∧ t.cfg = s.cfg ∧ t.tab = s.tab ∧ t.buf = s.buf ∧ t.params = s.params ∧
      t.io = (s.drawnBy s.claimedPins.length).io

/-- Rule R114: the release is idempotent: a second RELEASE issues no transaction and emits EvRelease(0) alone. -/
def Obligations.ReleaseIsIdempotent : Prop :=
  ∀ s t : State, s.sq.lc ≠ .running → exec .release s = .next t →
    exec .release t = .next { t with history := .release 0 :: t.history }

/-! ### The frame read and the channel -/

/-- Rules R61, R117, R118: in Idle, with the pins claimed and ch < NCH, RDFRAME whose 98 transactions succeed makes them
in the rule's order, and FRAME is the 32 bits read, the first in bit 31; SR = FRAME, BITCNT = 32, BIT is the last bit, CH
the channel, the clock and the chip-select end high; nothing else changes but ERR <- 0. -/
def Obligations.RdframeAssemblesFrame : Prop :=
  ∀ (ch : BitVec 8) (s : State), s.sq.lc = .idle → s.fl.claimed = true → ch.toNat < s.cfg.nch.toNat → s.allOk 0 98 →
    ∃ F : Word32, (∀ k, k < 32 → (F.getLsbD (31 - k) = true ↔ (s.answerAt (2 + 3 * k)).level = .high)) ∧
      exec (.rdframe ch) s = .next (({ s with fl.err := .none } : State).frameRead ch.toNat F)

/-- Rules R114, R115, R117, R212, R214: when transaction number n of RDFRAME is the first to fail, FRAME keeps its value, SR
holds the n / 3 bits read so far, BITCNT counts them, BIT is the last of them or as it was, and the session is aborted at
once: the transactions up to the failed one are recorded, then EvStop, then the release of the configured pins still
claimed. The level of an unclaimed chip-select or clock alone, which no run meets, is not said. -/
def Obligations.RdframeFailureAborts : Prop :=
  ∀ (ch : BitVec 8) (s : State) (n : Nat), s.sq.lc = .idle → s.fl.claimed = true → ch.toNat < s.cfg.nch.toNat →
    n < 98 → s.allOk 0 n → (s.answerAt n).ok = false →
    ∃ t, exec (.rdframe ch) s = .next t ∧
      t.sq = { s.sq with lc := .aborted, stopReason := .transportFailure, ch := BitVec.ofNat 6 ch.toNat } ∧
      t.dp = { s.dp with sr := t.dp.sr, bitcnt := BitVec.ofNat 6 (n / 3), bit := t.dp.bit } ∧
      (∀ j, j < n / 3 → (t.dp.sr.getLsbD (n / 3 - 1 - j) = true ↔ (s.answerAt (2 + 3 * j)).level = .high)) ∧
      (∀ j, n / 3 ≤ j → t.dp.sr.getLsbD j = false) ∧
      (n / 3 = 0 → t.dp.bit = s.dp.bit) ∧
      (∀ j, n / 3 = j + 1 → (t.dp.bit = 1 ↔ (s.answerAt (2 + 3 * j)).level = .high)) ∧
      t.fl = { s.fl with claimed := false, err := .none } ∧ t.cfg = s.cfg ∧ t.tab = s.tab ∧ t.buf = s.buf ∧
      t.params = s.params ∧ (∀ q, t.pdir q = if q ∈ s.busPins then none else s.pdir q) ∧
      (∀ q, q ∈ s.busPins → s.pdir q ≠ none → t.plvl q = none) ∧
      (∀ q, q ∉ s.busPins ∨ (s.pdir q = none ∧ q ≠ s.csPinAt ch.toNat ∧ q ≠ s.cfg.clkPin) → t.plvl q = s.plvl q) ∧
      t.events = s.events ++ s.frameEvents ch.toNat (n + 1) ++ [.stop .aborted .transportFailure]
        ++ (s.drawnBy (n + 1)).releaseTrace ++ [.release s.claimedPins.length] ∧
      t.io = { (s.drawnBy (n + 1 + s.claimedPins.length)).io with pos := none }

/-- Rules R115, R198, R212, R214: a command given in Idle that drives the bus leaves LC = Aborted exactly when one of its
pin transactions failed; then STOP_REASON is TransportFailure and every configured pin is unclaimed; otherwise LC stays
Idle, but for START, which may leave Running. Whatever the environment answers, the configuration, the tables, the buffer,
TICK, HALT and INT_PENDING stay. -/
def Obligations.IdleCommandOutcomes : Prop :=
  ∀ (i : Instr) (ch : BitVec 8) (s t : State), i ∈ [.claim, .start, .rdframe ch, .getrj ch, .get ch, .rdreading ch] →
    s.sq.lc = .idle → exec i s = .next t →
    t.cfg = s.cfg ∧ t.tab = s.tab ∧ t.buf = s.buf ∧ t.sq.tick = s.sq.tick ∧ t.fl.halt = s.fl.halt ∧
      t.fl.intPending = s.fl.intPending ∧ t.params = s.params ∧
      ∃ l, t.events = s.events ++ l ∧
        (t.sq.lc = .aborted ↔ ∃ op p, Event.pin op p .fail ∈ l) ∧
        (t.sq.lc = .aborted → t.sq.stopReason = .transportFailure ∧ t.sq.phase = s.sq.phase ∧ t.fl.claimed = false ∧
          ∀ p, p ∈ s.busPins → t.pdir p = none) ∧
        (t.sq.lc ≠ .aborted → t.sq.stopReason = s.sq.stopReason ∧
          (t.sq.lc = .idle ∨ (i = .start ∧ t.sq.lc = .running ∧ t.sq.phase = 0)))

/-- Rules R131, R145, R155: in Idle, with the pins claimed, ch < NCH and the environment answering F, GETRJ leaves the
frame read, RJQ = F[15:4], the converted value and RJRES = Reading; F's fault bits have no effect; nothing else changes. -/
def Obligations.GetrjReadsReferenceJunction : Prop :=
  ∀ (ch : BitVec 8) (s : State) (F : Word32), s.sq.lc = .idle → s.fl.claimed = true → ch.toNat < s.cfg.nch.toNat →
    s.answersFrame 0 F →
    ∃ v : BitVec 18, v.toInt = convert .rj s.cfg.unit (F.extractLsb' 4 12).toInt ∧
      exec (.getrj ch) s = .next
        { ({ s with fl.err := .none } : State).frameRead ch.toNat F with
          dp := { (s.frameRead ch.toNat F).dp with
            rjq := F.extractLsb' 4 12, val := v, vscale := .rj, vunit := s.cfg.unit,
            rjres := entryReading s.cfg.unit .rj v } }

/-- Rules R130, R140, R145, R156: in Idle, with the pins claimed, ch < NCH and the environment answering F, GET leaves the
frame read and FS; without a fault also TCQ = F[31:18], the converted value and RES = Reading; with one RES = FaultMarker
and TCQ, VAL, VSCALE, VUNIT as before. -/
def Obligations.GetReadsThermocouple : Prop :=
  ∀ (ch : BitVec 8) (s : State) (F : Word32), s.sq.lc = .idle → s.fl.claimed = true → ch.toNat < s.cfg.nch.toNat →
    s.answersFrame 0 F →
    (F.getLsbD 16 = false →
      ∃ v : BitVec 18, v.toInt = convert .tc s.cfg.unit (F.extractLsb' 18 14).toInt ∧
        exec (.get ch) s = .next
          { ({ s with fl.err := .none } : State).frameRead ch.toNat F with
            dp := { (s.frameRead ch.toNat F).dp with
              fs := .none, tcq := F.extractLsb' 18 14, val := v, vscale := .tc, vunit := s.cfg.unit,
              res := entryReading s.cfg.unit .tc v } }) ∧
    (F.getLsbD 16 = true →
      exec (.get ch) s = .next
        { ({ s with fl.err := .none } : State).frameRead ch.toNat F with
          dp := { (s.frameRead ch.toNat F).dp with fs := classifyFrame F, res := entryFault (classifyFrame F) } })

/-- Rules R155 to R158: RDREADING reads two frames, F then G: RJQ and RJRES come from F, RES and FS from G, FRAME, SR and
BIT hold G; without a fault in G, TCQ, VAL and VSCALE come from G; with one, TCQ is as it was and VAL and VSCALE are the
reference junction's. In all 196 transactions, those of F before those of G; nothing else changes but CH and ERR <- 0. -/
def Obligations.RdreadingReadsTwoFrames : Prop :=
  ∀ (ch : BitVec 8) (s : State) (F G : Word32), s.sq.lc = .idle → s.fl.claimed = true →
    ch.toNat < s.cfg.nch.toNat → s.answersFrame 0 F → s.answersFrame 98 G →
    ∃ (t : State) (rj tc : BitVec 18), exec (.rdreading ch) s = .next t ∧
      rj.toInt = convert .rj s.cfg.unit (F.extractLsb' 4 12).toInt ∧
      tc.toInt = convert .tc s.cfg.unit (G.extractLsb' 18 14).toInt ∧
      t.dp =
        { s.dp with
          frame := G, sr := G, bitcnt := 32, bit := G.extractLsb' 0 1, rjq := F.extractLsb' 4 12
          rjres := entryReading s.cfg.unit .rj rj, fs := classifyFrame G, vunit := s.cfg.unit
          tcq := if G.getLsbD 16 then s.dp.tcq else G.extractLsb' 18 14
          val := if G.getLsbD 16 then rj else tc
          vscale := if G.getLsbD 16 then .rj else .tc
          res := if G.getLsbD 16 then entryFault (classifyFrame G) else entryReading s.cfg.unit .tc tc } ∧
      t.sq = { s.sq with ch := BitVec.ofNat 6 ch.toNat } ∧ t.fl = { s.fl with err := .none } ∧ t.cfg = s.cfg ∧
      t.tab = s.tab ∧ t.buf = s.buf ∧ t.params = s.params ∧ t.pins.dir = s.pins.dir ∧
      (∀ p, t.plvl p = if p = s.csPinAt ch.toNat ∨ p = s.cfg.clkPin then some .high else s.plvl p) ∧
      t.io = (s.drawnBy 196).io ∧
      t.events = s.events ++ frameTrace (s.csPinAt ch.toNat) s.cfg.clkPin s.cfg.dataPin F
        ++ frameTrace (s.csPinAt ch.toNat) s.cfg.clkPin s.cfg.dataPin G

/-- Rules R117, R160, R199: in Idle a channel command without CLAIMED is refused with NotClaimed, and with CLAIMED but
ch >= NCH with BadIndex, in this order; only ERR changes. -/
def Obligations.ChannelCommandRefusals : Prop :=
  ∀ (i : Instr) (ch : BitVec 8) (s : State), i ∈ [.rdframe ch, .getrj ch, .get ch, .rdreading ch] →
    s.sq.lc = .idle →
    (s.fl.claimed = false → exec i s = .next { s with fl.err := .notClaimed }) ∧
    (s.fl.claimed = true → s.cfg.nch.toNat ≤ ch.toNat → exec i s = .next { s with fl.err := .badIndex })

/-! ### Decoder, classifier, converter -/

/-- Rules R130 to R132: in Idle, TCFIELD writes TCQ with FRAME[31:18] and RJFIELD writes RJQ with FRAME[15:4], the two's
complement reading of the fields; nothing else changes but ERR <- 0. -/
def Obligations.FieldsAreTwosComplement : Prop :=
  ∀ s : State, s.sq.lc = .idle →
    exec .tcfield s = .next { s with dp.tcq := s.dp.frame.extractLsb' 18 14, fl.err := .none } ∧
    exec .rjfield s = .next { s with dp.rjq := s.dp.frame.extractLsb' 4 12, fl.err := .none } ∧
    tcQuantity s.dp.frame = (s.dp.frame.extractLsb' 18 14).toInt ∧
    rjQuantity s.dp.frame = (s.dp.frame.extractLsb' 4 12).toInt

/-- Rule R135: the 12-bit two's-complement encoding of -m decodes to -m for 1 <= m <= 0x7FF, and m itself to m for
0 <= m <= 0x7FF, whatever the other bits of the frame are. -/
def Obligations.ReferenceJunctionRoundTrip : Prop :=
  ∀ (F : Word32) (m : Nat), m ≤ 0x7FF →
    (rjFieldOf F = BitVec.ofNat 12 m → rjQuantity F = m) ∧
    (1 ≤ m → rjFieldOf F = BitVec.ofNat 12 (0x1000 - m) → rjQuantity F = -m)

/-- Rules R141, R142: in Idle, CLASSIFY writes FS by the truth table, bit 0 over bit 1 over bit 2, and nothing else but
ERR <- 0. -/
def Obligations.ClassifyTruthTable : Prop :=
  ∀ s : State, s.sq.lc = .idle →
    ∃ f, exec .classify s = .next { s with dp.fs := f, fl.err := .none } ∧
      (s.dp.frame.getLsbD 16 = false → f = .none) ∧
      (s.dp.frame.getLsbD 16 = true → s.dp.frame.getLsbD 0 = true → f = .openCircuit) ∧
      (s.dp.frame.getLsbD 16 = true → s.dp.frame.getLsbD 0 = false → s.dp.frame.getLsbD 1 = true →
        f = .shortToGround) ∧
      (s.dp.frame.getLsbD 16 = true → s.dp.frame.getLsbD 0 = false → s.dp.frame.getLsbD 1 = false →
        s.dp.frame.getLsbD 2 = true → f = .shortToVcc) ∧
      (s.dp.frame.getLsbD 16 = true → s.dp.frame.getLsbD 0 = false → s.dp.frame.getLsbD 1 = false →
        s.dp.frame.getLsbD 2 = false → f = .unknown)

/-- Rules R145, R148: in Idle, TOUNIT writes VAL with the exact scaled integer of its path and unit (no overflow of the
18 bits), VSCALE with the path and VUNIT with the unit, and nothing else but ERR <- 0. -/
def Obligations.TounitConvertsExactly : Prop :=
  ∀ s : State, s.sq.lc = .idle →
    ∀ c ∈ [(Path.tc, (0 : BitVec 2), TempUnit.celsius, 5 * s.dp.tcq.toInt),
           (Path.tc, (1 : BitVec 2), TempUnit.kelvin, 5 * s.dp.tcq.toInt + 5463),
           (Path.tc, (2 : BitVec 2), TempUnit.fahrenheit, 9 * s.dp.tcq.toInt + 640),
           (Path.rj, (0 : BitVec 2), TempUnit.celsius, 5 * s.dp.rjq.toInt),
           (Path.rj, (1 : BitVec 2), TempUnit.kelvin, 5 * s.dp.rjq.toInt + 21852),
           (Path.rj, (2 : BitVec 2), TempUnit.fahrenheit, 9 * s.dp.rjq.toInt + 2560)],
      ∃ v : BitVec 18, v.toInt = c.2.2.2 ∧
        exec (.tounit c.1 c.2.1) s = .next { s with dp.val := v, dp.vscale := c.1, dp.vunit := c.2.2.1, fl.err := .none }

/-! ### Commands by LC state -/

/-- Rule R200: a command in an LC state that does not accept it is refused with Busy, and only ERR changes; for
RELEASE that state is Running, for every command but RELEASE and INTR it is every state but Idle. A command given through
register CMD leaves ERR = Busy in no other case. -/
def Obligations.BusyCommands : Prop :=
  (∀ (i : Instr) (s : State),
    ((i ∈ [.claim, .tcfield, .rjfield, .classify, .start] ∨
        (∃ ch, i ∈ [.rdframe ch, .getrj ch, .get ch, .rdreading ch]) ∨ (∃ src unit, i = .tounit src unit ∧ unit ≠ 3)) →
      s.sq.lc ≠ .idle → exec i s = .next { s with fl.err := .busy }) ∧
    (i = .release → s.sq.lc = .running → exec i s = .next { s with fl.err := .busy })) ∧
  ∀ (w : Word32) (i : Instr) (s t : State), decodeCmdWrite w = some i → exec (.regwr 0 w) s = .next t →
    (t.fl.err = .busy ↔ (i = .release ∧ s.sq.lc = .running) ∨ (i ≠ .release ∧ i ≠ .intr ∧ s.sq.lc ≠ .idle))

/-- The model's choice (assumption log 20, DEDUCED from rules R84, R145, R198): TOUNIT with the reserved unit 3, which no word
decodes to, is refused with IllegalCommand in every LC state, and only ERR changes. -/
def Obligations.TounitReservedUnit : Prop :=
  ∀ (src : Path) (s : State), exec (.tounit src 3) s = .next { s with fl.err := .illegalCommand }

/-- Rule R180: in Idle with the pins claimed and NCH >= 1, START enters Running at PH_BOUNDARY and changes nothing else
but ERR <- 0. -/
def Obligations.StartEntersRunning : Prop :=
  ∀ s : State, s.sq.lc = .idle → s.fl.claimed = true → 1 ≤ s.cfg.nch.toNat →
    exec .start s = .next { s with sq.lc := .running, sq.phase := 0, fl.err := .none }

/-- Rules R113, R180: in Idle with no pin claimed, START first does what CLAIM does, and then enters Running at
PH_BOUNDARY. -/
def Obligations.StartClaimsFirst : Prop :=
  ∀ s : State, s.sq.lc = .idle → s.fl.claimed = false → 1 ≤ s.cfg.nch.toNat → s.busPins.Nodup →
    s.allOk 0 (2 * s.cfg.nch.toNat + 3) →
    ∃ t, exec .claim s = .next t ∧ t.fl.claimed = true ∧
      exec .start s = .next { t with sq.lc := .running, sq.phase := 0 }

/-- Rule R191: INTR is accepted in every state: INT_PENDING <- 1, ERR <- 0, nothing else. -/
def Obligations.IntrSetsLatch : Prop :=
  ∀ s : State, exec .intr s = .next { s with fl.intPending := true, fl.err := .none }

/-! ### Sequencer steps -/

/-- Rule R165 with R167 and R168: PH_SAMPLE visits every channel in ascending order: a quarantined one is staged as
FaultMarker(QFS) with an Empty reference-junction entry and not read; each other one is read by two frames, whose results
are staged, a faulting one being quarantined with its status. Under HaltOnFault this is said of a pass without a fault. It
ends at PH_APPEND with NCH entries staged, the slots above Empty, CH at the last channel, the datapath as the readings leave
it one after another, the clock and the chip-selects of the channels read high, and the 196 transactions of each channel
read, in the channels' order. -/
def Obligations.PhSampleVisitsEveryChannel : Prop :=
  ∀ (s : State) (FR FT : Nat → Word32), s.params.wf → s.cfg.nch.toNat ≤ s.params.nchMax →
    (∀ i, i < s.cfg.nch.toNat → s.quarAt i = false →
      s.answersFrame (196 * s.activeBelow i) (FR i) ∧ s.answersFrame (196 * s.activeBelow i + 98) (FT i)) →
    (s.cfg.policy = .quarantineFaultingChannel ∨
      ∀ i, i < s.cfg.nch.toNat → s.quarAt i = false → (FT i).getLsbD 16 = false) →
    ∃ t, exec .phSample s = .next t ∧ t.tab.stageLen = s.cfg.nch ∧
      (∀ i, i < s.cfg.nch.toNat → s.quarAt i = true →
        t.stageAt i = entryFault (s.qfsAt i) ∧ t.rjStageAt i = entryEmpty ∧ t.quarAt i = true ∧
          t.qfsAt i = s.qfsAt i) ∧
      (∀ i, i < s.cfg.nch.toNat → s.quarAt i = false →
        t.stageAt i = tcEntryOf s.cfg.unit (FT i) ∧ t.rjStageAt i = rjEntryOf s.cfg.unit (FR i) ∧
          t.quarAt i = (FT i).getLsbD 16 ∧
          t.qfsAt i = if (FT i).getLsbD 16 then classifyFrame (FT i) else s.qfsAt i) ∧
      (∀ i, s.cfg.nch.toNat ≤ i → i < s.params.nchMax → t.stageAt i = entryEmpty ∧ t.rjStageAt i = entryEmpty) ∧
      (∀ i, s.cfg.nch.toNat ≤ i → t.quarAt i = s.quarAt i ∧ t.qfsAt i = s.qfsAt i) ∧
      t.sq = { s.sq with phase := 2, ch := if s.cfg.nch = 0 then s.sq.ch else s.cfg.nch - 1 } ∧ t.fl = s.fl ∧
      t.cfg = s.cfg ∧ t.buf = s.buf ∧ t.params = s.params ∧ t.pins.dir = s.pins.dir ∧
      t.dp = ((List.range s.cfg.nch.toNat).filter fun i => !s.quarAt i).foldl
        (fun d i => d.afterReading s.cfg.unit (FR i) (FT i)) s.dp ∧
      (∀ p, ((∃ i, i < s.cfg.nch.toNat ∧ s.quarAt i = false ∧ (p = s.csPinAt i ∨ p = s.cfg.clkPin)) →
          t.plvl p = some .high) ∧
        ((∀ i, i < s.cfg.nch.toNat → s.quarAt i = false → p ≠ s.csPinAt i ∧ p ≠ s.cfg.clkPin) →
          t.plvl p = s.plvl p)) ∧
      t.io = (s.drawnBy (196 * s.activeBelow s.cfg.nch.toNat)).io ∧
      t.events = s.events ++ ((List.range s.cfg.nch.toNat).filter fun i => !s.quarAt i).flatMap fun i =>
        frameTrace (s.csPinAt i) s.cfg.clkPin s.cfg.dataPin (FR i)
          ++ frameTrace (s.csPinAt i) s.cfg.clkPin s.cfg.dataPin (FT i)

/-- Rule R166: under HaltOnFault, when j is the first channel whose thermocouple frame has its fault flag set, PH_SAMPLE
stages the entries up to j, the last a FaultMarker, reads no later channel, sets HALT and goes to PH_HALT; the buffer and
TICK are unchanged. -/
def Obligations.PhSampleHaltsOnFault : Prop :=
  ∀ (s : State) (FR FT : Nat → Word32) (j : Nat), s.params.wf → s.cfg.nch.toNat ≤ s.params.nchMax →
    s.cfg.policy = .haltOnFault → j < s.cfg.nch.toNat → (∀ i, i ≤ j → s.quarAt i = false) →
    (∀ i, i ≤ j → s.answersFrame (196 * i) (FR i) ∧ s.answersFrame (196 * i + 98) (FT i)) →
    (∀ i, i < j → (FT i).getLsbD 16 = false) → (FT j).getLsbD 16 = true →
    ∃ t, exec .phSample s = .next t ∧ t.sq = { s.sq with phase := 6, ch := BitVec.ofNat 6 j } ∧
      t.fl = { s.fl with halt := true } ∧ t.tab.stageLen = BitVec.ofNat 6 (j + 1) ∧
      (∀ i, i ≤ j → t.stageAt i = tcEntryOf s.cfg.unit (FT i) ∧ t.rjStageAt i = rjEntryOf s.cfg.unit (FR i)) ∧
      t.stageAt j = entryFault (classifyFrame (FT j)) ∧ t.dp.fs = classifyFrame (FT j) ∧
      (∀ i, j < i → i < s.params.nchMax → t.stageAt i = entryEmpty ∧ t.rjStageAt i = entryEmpty) ∧
      t.tab.quar = s.tab.quar ∧ t.tab.qfs = s.tab.qfs ∧ t.cfg = s.cfg ∧ t.buf = s.buf ∧ t.params = s.params ∧
      t.dp = (List.range (j + 1)).foldl (fun d i => d.afterReading s.cfg.unit (FR i) (FT i)) s.dp ∧
      t.pins.dir = s.pins.dir ∧
      (∀ p, ((p = s.cfg.clkPin ∨ ∃ i, i ≤ j ∧ p = s.csPinAt i) → t.plvl p = some .high) ∧
        (p ≠ s.cfg.clkPin → (∀ i, i ≤ j → p ≠ s.csPinAt i) → t.plvl p = s.plvl p)) ∧
      t.io = (s.drawnBy (196 * (j + 1))).io ∧
      t.events = s.events ++ (List.range (j + 1)).flatMap fun i =>
        frameTrace (s.csPinAt i) s.cfg.clkPin s.cfg.dataPin (FR i)
          ++ frameTrace (s.csPinAt i) s.cfg.clkPin s.cfg.dataPin (FT i)

/-- Rules R165, R181, R212, R214: whatever the environment answers, a PH_SAMPLE of a running session ends in one of three
ways: at PH_APPEND with NCH entries staged; at PH_HALT with HALT set, under HaltOnFault only; or Aborted by a
TransportFailure, PHASE as it was and the pins released. It never writes the configuration, the buffer or TICK. -/
def Obligations.PhSampleOutcomes : Prop :=
  ∀ s t : State, s.params.wf → s.cfg.nch.toNat ≤ s.params.nchMax → s.sq.lc = .running → exec .phSample s = .next t →
    t.cfg = s.cfg ∧ t.buf = s.buf ∧ t.sq.tick = s.sq.tick ∧
    ((t.sq.lc = .running ∧ t.sq.phase = 2 ∧ t.tab.stageLen = s.cfg.nch ∧ t.fl = s.fl) ∨
     (t.sq.lc = .running ∧ t.sq.phase = 6 ∧ t.fl = { s.fl with halt := true } ∧ s.cfg.policy = .haltOnFault ∧
        entryKind t.dp.res = 2 ∧ 1 ≤ t.tab.stageLen.toNat ∧ t.tab.stageLen.toNat ≤ s.cfg.nch.toNat ∧
        t.stageAt (t.tab.stageLen.toNat - 1) = t.dp.res) ∨
     (t.sq.lc = .aborted ∧ t.sq.stopReason = .transportFailure ∧ t.sq.phase = s.sq.phase ∧
        t.fl = { s.fl with claimed := false } ∧ ∀ p, p ∈ s.busPins → t.pdir p = none))

/-- Rules R66, R169: with one entry staged for every channel, PH_APPEND writes STAGE[ch] at index BUF_LEN of every
configured channel, leaves every other entry as it reads, increments BUF_LEN, goes to PH_TELEM and changes nothing else. In
states no run reaches, where a sequence is not BUF_LEN long, what lies between is the model's own (assumption log 12). -/
def Obligations.PhAppendCommitsColumn : Prop :=
  ∀ s : State, s.params.wf → s.cfg.nch.toNat ≤ s.params.nchMax → s.tab.stageLen = s.cfg.nch →
    ∃ t, exec .phAppend s = .next t ∧
      t = { s with buf.seqs := t.buf.seqs, buf.len := s.buf.len + 1, sq.phase := 3 } ∧
      ∀ ch k, memRead t ch k = if ch < s.cfg.nch.toNat ∧ k = s.buf.len.toNat then s.stageAt ch else memRead s ch k

/-- Rules R170, R213, R214: with another number of entries staged, PH_APPEND writes no entry and aborts the session with
ContractViolation, releasing the pins. -/
def Obligations.PhAppendContractViolation : Prop :=
  ∀ s : State, s.tab.stageLen ≠ s.cfg.nch →
    ∃ t, exec .phAppend s = .next t ∧ t.sq = { s.sq with lc := .aborted, stopReason := .contractViolation } ∧
      t.fl = { s.fl with claimed := false } ∧ t.dp = s.dp ∧ t.cfg = s.cfg ∧ t.tab = s.tab ∧ t.buf = s.buf ∧
      t.params = s.params ∧ (∀ q, t.pdir q = if q ∈ s.busPins then none else s.pdir q) ∧
      (∀ q, t.plvl q = if q ∈ s.busPins ∧ s.pdir q ≠ none then none else s.plvl q) ∧
      t.events = s.events ++ [.stop .aborted .contractViolation] ++ s.releaseTrace
        ++ [.release s.claimedPins.length] ∧
      t.io = { (s.drawnBy s.claimedPins.length).io with pos := none }

/-- Rule R95: PH_TELEM emits EvTelem(TICK, …) with one item for every staged entry, in ascending channel index,
and goes to PH_TICK; nothing else changes. -/
def Obligations.PhTelemEmitsRecord : Prop :=
  ∀ s : State, ∃ items : List TelemItem,
    items.length = s.tab.stageLen.toNat ∧
    (∀ i, i < s.tab.stageLen.toNat → items[i]? = some ⟨s.csPinAt i, s.stageAt i, s.rjStageAt i⟩) ∧
    exec .phTelem s = .next { s with history := .telem s.sq.tick items :: s.history, sq.phase := 4 }

/-- Rule R185: PH_TICK increments TICK and goes to PH_BOUNDARY when the new TICK has reached MAX_TICKS, to PH_SLEEP
otherwise; nothing else changes. -/
def Obligations.PhTickCounts : Prop :=
  ∀ s : State, s.sq.tick.toNat < s.cfg.maxTicks.toNat →
    ∃ n : Word32, n.toNat = s.sq.tick.toNat + 1 ∧
      exec .phTick s = .next
        { s with sq.tick := n, sq.phase := if s.cfg.maxTicks.toNat ≤ n.toNat then 0 else 5 }

/-- Rule R186: PH_SLEEP emits EvSleep(INTERVAL) and goes to PH_BOUNDARY; nothing else changes. -/
def Obligations.PhSleepEmitsInterval : Prop :=
  ∀ s : State, exec .phSleep s = .next { s with history := .sleep s.cfg.interval :: s.history, sq.phase := 0 }

/-- Rules R182, R184, R187, R189, R190: PH_BOUNDARY stops with Completed when TICK has reached MAX_TICKS, else with
Interrupted when INT_PENDING is set, else goes to PH_SAMPLE and changes nothing else. A stop writes LC and STOP_REASON,
emits EvStop, releases the configured pins, clears CLAIMED, and leaves every other register as it was. -/
def Obligations.PhBoundaryDecides : Prop :=
  ∀ s : State,
    (s.sq.tick.toNat < s.cfg.maxTicks.toNat → s.fl.intPending = false →
      exec .phBoundary s = .next { s with sq.phase := 1 }) ∧
    (∀ reason, (s.cfg.maxTicks.toNat ≤ s.sq.tick.toNat ∧ reason = StopReason.completed ∨
        s.sq.tick.toNat < s.cfg.maxTicks.toNat ∧ s.fl.intPending = true ∧ reason = StopReason.interrupted) →
      ∃ t, exec .phBoundary s = .next t ∧ t.sq = { s.sq with lc := .stopped, stopReason := reason } ∧
        t.fl = { s.fl with claimed := false } ∧ t.dp = s.dp ∧ t.cfg = s.cfg ∧ t.tab = s.tab ∧ t.buf = s.buf ∧
        t.params = s.params ∧ (∀ q, t.pdir q = if q ∈ s.busPins then none else s.pdir q) ∧
        (∀ q, t.plvl q = if q ∈ s.busPins ∧ s.pdir q ≠ none then none else s.plvl q) ∧
        t.events = s.events ++ [.stop .stopped reason] ++ s.releaseTrace ++ [.release s.claimedPins.length] ∧
        t.io = { (s.drawnBy s.claimedPins.length).io with pos := none })

/-- Rules R173, R188, R190: PH_HALT emits the telemetry record of the entries staged so far, then stops with FaultHalt:
EvStop, the release, CLAIMED cleared; the buffer, TICK and every other register keep their values. -/
def Obligations.PhHaltStops : Prop :=
  ∀ s : State, ∃ t, exec .phHalt s = .next t ∧ t.sq = { s.sq with lc := .stopped, stopReason := .faultHalt } ∧
    t.fl = { s.fl with claimed := false } ∧ t.dp = s.dp ∧ t.cfg = s.cfg ∧ t.tab = s.tab ∧ t.buf = s.buf ∧
    t.params = s.params ∧ (∀ q, t.pdir q = if q ∈ s.busPins then none else s.pdir q) ∧
    (∀ q, t.plvl q = if q ∈ s.busPins ∧ s.pdir q ≠ none then none else s.plvl q) ∧
    t.events = s.events
      ++ [.telem s.sq.tick ((List.range s.tab.stageLen.toNat).map fun i => ⟨s.csPinAt i, s.stageAt i, s.rjStageAt i⟩),
          .stop .stopped .faultHalt] ++ s.releaseTrace ++ [.release s.claimedPins.length] ∧
    t.io = { (s.drawnBy s.claimedPins.length).io with pos := none }

/-! ### The host bus -/

/-- Rules R45, R46, R54, R195: REGRD answers the read view of the register and changes nothing else, ERR included; the
views of the scalar registers: zero-extended, but TCQ, RJQ and VAL sign-extended; the enumerations by the numbers of rules R27, R28, R40, R43, R90; CMD
and the reserved numbers read 0. -/
def Obligations.RegrdAnswersReadView : Prop :=
  ∀ s : State,
    (∀ rn, exec (.regrd rn) s = .next { s with io.replies := regRead rn s :: s.io.replies }) ∧
    regRead 0x00 s = 0 ∧ (regRead 0x02 s).toNat = s.cfg.nch.toNat ∧ (regRead 0x03 s).toNat = s.cfg.clkPin.toNat ∧
    (regRead 0x04 s).toNat = s.cfg.dataPin.toNat ∧
    (∀ c ∈ [(TempUnit.celsius, 0), (.kelvin, 1), (.fahrenheit, 2)], s.cfg.unit = c.1 → (regRead 0x05 s).toNat = c.2) ∧
    regRead 0x06 s = s.cfg.interval ∧ regRead 0x07 s = s.cfg.maxTicks ∧
    (∀ c ∈ [(Policy.haltOnFault, 0), (.quarantineFaultingChannel, 1)],
      s.cfg.policy = c.1 → (regRead 0x08 s).toNat = c.2) ∧
    regRead 0x09 s = s.sq.tick ∧ regRead 0x0A s = s.dp.frame ∧
    regRead 0x0B s = s.dp.sr ∧ (regRead 0x0C s).toNat = s.dp.bitcnt.toNat ∧ (regRead 0x0D s).toInt = s.dp.tcq.toInt ∧
    (regRead 0x0E s).toInt = s.dp.rjq.toInt ∧
    (∀ c ∈ [(FaultStatus.none, 0), (.openCircuit, 1), (.shortToGround, 2), (.shortToVcc, 3), (.unknown, 4)],
      s.dp.fs = c.1 → (regRead 0x0F s).toNat = c.2) ∧
    (regRead 0x10 s).toInt = s.dp.val.toInt ∧
    (∀ p ∈ [(Path.tc, 0), (.rj, 1)], ∀ u ∈ [(TempUnit.celsius, 0), (.kelvin, 1), (.fahrenheit, 2)],
      s.dp.vscale = p.1 → s.dp.vunit = u.1 → (regRead 0x11 s).toNat = 4 * p.2 + u.2) ∧
    regRead 0x12 s = s.dp.res ∧ regRead 0x13 s = s.dp.rjres ∧ (regRead 0x14 s).toNat = s.sq.ch.toNat ∧
    (regRead 0x15 s).toNat = s.tab.stageLen.toNat ∧ regRead 0x16 s = s.buf.len ∧
    (regRead 0x17 s).toNat = s.buf.selCh.toNat ∧ regRead 0x18 s = s.buf.selTick ∧
    (regRead 0x1A s).toNat = s.dp.bit.toNat ∧
    (∀ rn : RegNum, 0x1B ≤ rn.toNat ∧ rn.toNat ≤ 0x1F ∨ 0xA0 ≤ rn.toNat → regRead rn s = 0)

/-- Rules R37, R45 to R49: the table windows: slot i < NCH_MAX of CS_PIN, STAGE, RJSTAGE and QSTAT (QUAR in bit 0, QFS in
bits 3:1) at 0x20, 0x40, 0x60 and 0x80 + i; the slots from NCH_MAX to 31 read 0. -/
def Obligations.RegrdTableWindows : Prop :=
  ∀ (s : State) (i : Nat), i < 32 →
    (i < s.params.nchMax →
      (regRead (BitVec.ofNat 8 (0x20 + i)) s).toNat = (s.csPinAt i).toNat ∧
      regRead (BitVec.ofNat 8 (0x40 + i)) s = s.stageAt i ∧ regRead (BitVec.ofNat 8 (0x60 + i)) s = s.rjStageAt i ∧
      (∀ c ∈ [(FaultStatus.none, 0), (.openCircuit, 1), (.shortToGround, 2), (.shortToVcc, 3), (.unknown, 4)],
        s.qfsAt i = c.1 →
          (regRead (BitVec.ofNat 8 (0x80 + i)) s).toNat = (if s.quarAt i then 1 else 0) + 2 * c.2)) ∧
    (s.params.nchMax ≤ i → ∀ base ∈ [0x20, 0x40, 0x60, 0x80], regRead (BitVec.ofNat 8 (base + i)) s = 0)

/-- Rule R35: the STATUS word, register number 0x01: LC in bits 1:0, STOP_REASON in 4:2, CLAIMED, INT_PENDING and HALT in
bits 5, 6 and 7, ERR in 10:8, PHASE in 13:11, zero above; it is read-only. The enumerations stand there by the numbers
rules R30 and R34 give their members. -/
def Obligations.StatusLayout : Prop :=
  ∀ s : State,
    (∀ c ∈ [(LoopState.idle, 0), (.running, 1), (.stopped, 2), (.aborted, 3)],
      s.sq.lc = c.1 → ((regRead 0x01 s).extractLsb' 0 2).toNat = c.2) ∧
    (∀ c ∈ [(StopReason.none, 0), (.completed, 1), (.faultHalt, 2), (.interrupted, 3), (.transportFailure, 4),
        (.contractViolation, 5)],
      s.sq.stopReason = c.1 → ((regRead 0x01 s).extractLsb' 2 3).toNat = c.2) ∧
    (regRead 0x01 s).getLsbD 5 = s.fl.claimed ∧ (regRead 0x01 s).getLsbD 6 = s.fl.intPending ∧
    (regRead 0x01 s).getLsbD 7 = s.fl.halt ∧
    (∀ c ∈ [(ErrCode.none, 0), (.illegalCommand, 1), (.busy, 2), (.configError, 3), (.badIndex, 4), (.notClaimed, 5)],
      s.fl.err = c.1 → ((regRead 0x01 s).extractLsb' 8 3).toNat = c.2) ∧
    (regRead 0x01 s).extractLsb' 11 3 = s.sq.phase ∧ (regRead 0x01 s).extractLsb' 14 18 = 0 ∧
    exec (.regrd 0x01) s = .next { s with io.replies := regRead 0x01 s :: s.io.replies } ∧
    ∀ w, exec (.regwr 0x01 w) s = .next { s with fl.err := .illegalCommand }

/-- Rule R51: BUF_CH (6 bits) and BUF_TICK are written and read in every LC state and select an entry; a read of BUF_DATA
answers the committed entry they select, and 0 where BUF_CH >= NCH or BUF_TICK >= BUF_LEN, and has no side effect; no write
of a host register changes the buffer. -/
def Obligations.BufferWindow : Prop :=
  ∀ s : State,
    (∀ w : Word32, w.toNat < 2 ^ 6 →
      ∃ t, exec (.regwr 0x17 w) s = .next t ∧ t = { s with buf.selCh := w.setWidth 6, fl.err := .none } ∧
        regRead 0x17 t = w) ∧
    (∀ w : Word32, ∃ t, exec (.regwr 0x18 w) s = .next t ∧ t = { s with buf.selTick := w, fl.err := .none } ∧
      regRead 0x18 t = w) ∧
    exec (.regrd 0x19) s = .next { s with io.replies := regRead 0x19 s :: s.io.replies } ∧
    (s.buf.selCh.toNat < s.cfg.nch.toNat ∧ s.buf.selTick.toNat < s.buf.len.toNat →
      regRead 0x19 s = memRead s s.buf.selCh.toNat s.buf.selTick.toNat) ∧
    (¬ (s.buf.selCh.toNat < s.cfg.nch.toNat ∧ s.buf.selTick.toNat < s.buf.len.toNat) → regRead 0x19 s = 0) ∧
    ∀ rn w t, exec (.regwr rn w) s = .next t → t.buf.seqs = s.buf.seqs ∧ t.buf.len = s.buf.len

/-- Rule R54: TCQ, RJQ and VAL read sign-extended to 32 bits; the VALUE field of an ENTRY is the 18-bit two's-complement
pattern in bits 17:0, as a host reads it in RES too. -/
def Obligations.SignedRegisterReads : Prop :=
  ∀ s : State,
    (regRead 0x0D s).toInt = s.dp.tcq.toInt ∧ (regRead 0x0E s).toInt = s.dp.rjq.toInt ∧
    (regRead 0x10 s).toInt = s.dp.val.toInt ∧
    ∀ u p v, s.dp.res = entryReading u p v → (regRead 0x12 s).extractLsb' 0 18 = v

/-- Rule R86: the fields of the three entry words: KIND in bits 31:30, UNIT in 29:28, SCALE in 27, FS in 26:24, zero in
23:18, VALUE in 17:0, with the numbers of rules R27, R40 and R90 for the unit, the scale and the fault status. -/
def Obligations.EntryWordFields : Prop :=
  (∀ u ∈ [(TempUnit.celsius, 0), (.kelvin, 1), (.fahrenheit, 2)], ∀ p ∈ [(Path.tc, 0), (.rj, 1)], ∀ v : BitVec 18,
    let e := entryReading u.1 p.1 v
    (e.extractLsb' 30 2).toNat = 1 ∧ (e.extractLsb' 28 2).toNat = u.2 ∧ (e.extractLsb' 27 1).toNat = p.2 ∧
      (e.extractLsb' 24 3).toNat = 0 ∧ (e.extractLsb' 18 6).toNat = 0 ∧ e.extractLsb' 0 18 = v) ∧
  (∀ f ∈ [(FaultStatus.none, 0), (.openCircuit, 1), (.shortToGround, 2), (.shortToVcc, 3), (.unknown, 4)],
    let e := entryFault f.1
    (e.extractLsb' 30 2).toNat = 2 ∧ (e.extractLsb' 27 3).toNat = 0 ∧ (e.extractLsb' 24 3).toNat = f.2 ∧
      (e.extractLsb' 0 24).toNat = 0) ∧
  entryEmpty = 0 ∧
  ∀ e, entryKind e = e.extractLsb' 30 2 ∧ entryUnit e = e.extractLsb' 28 2 ∧ entryScale e = e.extractLsb' 27 1 ∧
    entryFs e = e.extractLsb' 24 3 ∧ entryValue e = e.extractLsb' 0 18

/-- Rule R46: the reserved register numbers (0x1B to 0x1F, the table slots from NCH_MAX to 31, 0xA0 to 0xFF) read 0 and
nothing changes; a write to a reserved or a read-only number is refused with IllegalCommand and changes nothing else. -/
def Obligations.ReservedAndReadOnlyRegisters : Prop :=
  ∀ (s : State) (rn : RegNum), s.params.wf →
    let n := rn.toNat
    let reserved := (0x1B ≤ n ∧ n ≤ 0x1F) ∨ 0xA0 ≤ n ∨
      ∃ base ∈ [0x20, 0x40, 0x60, 0x80], base + s.params.nchMax ≤ n ∧ n ≤ base + 31
    let readOnly := n = 0x01 ∨ n = 0x09 ∨ (0x0B ≤ n ∧ n ≤ 0x16) ∨ n = 0x19 ∨ n = 0x1A ∨
      ∃ base ∈ [0x40, 0x60, 0x80], base ≤ n ∧ n < base + s.params.nchMax
    (reserved → exec (.regrd rn) s = .next { s with io.replies := 0 :: s.io.replies }) ∧
    (reserved ∨ readOnly → ∀ w, exec (.regwr rn w) s = .next { s with fl.err := .illegalCommand })

/-- Rules R36 to R43, R51, R196, R197: a write the rule accepts sets its register to the value written and ERR to 0, and
changes nothing else: the pin registers in Idle with no pin claimed, the other configuration registers and FRAME in Idle,
the window registers always. -/
def Obligations.RegwrAcceptedWrites : Prop :=
  ∀ (s : State) (w : Word32), s.params.wf →
    (s.sq.lc = .idle → s.fl.claimed = false →
      (1 ≤ w.toNat → w.toNat ≤ s.params.nchMax →
        exec (.regwr 0x02 w) s = .next { s with cfg.nch := BitVec.ofNat 6 w.toNat, fl.err := .none }) ∧
      (w.toNat < 2 ^ 8 →
        exec (.regwr 0x03 w) s = .next { s with cfg.clkPin := BitVec.ofNat 8 w.toNat, fl.err := .none } ∧
        exec (.regwr 0x04 w) s = .next { s with cfg.dataPin := BitVec.ofNat 8 w.toNat, fl.err := .none } ∧
        ∀ i, (h : i < 32) → i < s.params.nchMax →
          exec (.regwr (BitVec.ofNat 8 (0x20 + i)) w) s =
            .next { s with cfg.csPin := s.cfg.csPin.set i (BitVec.ofNat 8 w.toNat) h, fl.err := .none })) ∧
    (s.sq.lc = .idle →
      (∀ c ∈ [(TempUnit.celsius, 0), (.kelvin, 1), (.fahrenheit, 2)], w.toNat = c.2 →
        exec (.regwr 0x05 w) s = .next { s with cfg.unit := c.1, fl.err := .none }) ∧
      exec (.regwr 0x06 w) s = .next { s with cfg.interval := w, fl.err := .none } ∧
      (w.toNat ≤ s.params.bufDepth → exec (.regwr 0x07 w) s = .next { s with cfg.maxTicks := w, fl.err := .none }) ∧
      (∀ c ∈ [(Policy.haltOnFault, 0), (.quarantineFaultingChannel, 1)], w.toNat = c.2 →
        exec (.regwr 0x08 w) s = .next { s with cfg.policy := c.1, fl.err := .none }) ∧
      exec (.regwr 0x0A w) s = .next { s with dp.frame := w, fl.err := .none }) ∧
    (w.toNat < 2 ^ 6 →
      exec (.regwr 0x17 w) s = .next { s with buf.selCh := BitVec.ofNat 6 w.toNat, fl.err := .none }) ∧
    exec (.regwr 0x18 w) s = .next { s with buf.selTick := w, fl.err := .none }

/-- Rules R46, R197, R199: the refusals of a register write in the order of the rule's tests, each changing ERR alone: a
reserved or read-only number IllegalCommand in every state; BUF_CH above its width ConfigError; a configuration register
outside Idle Busy; a pin register while claimed Busy; a value outside the register's legal values ConfigError. -/
def Obligations.RegwrRefusals : Prop :=
  ∀ (s : State) (w : Word32) (rn : RegNum), s.params.wf →
    let writable := rn.toNat ∈ [2, 3, 4, 5, 6, 7, 8, 0x0A] ∨ (0x20 ≤ rn.toNat ∧ rn.toNat < 0x20 + s.params.nchMax)
    let pinReg := rn.toNat ∈ [2, 3, 4] ∨ 0x20 ≤ rn.toNat
    (rn.toNat ≠ 0 → ¬ writable → rn.toNat ∉ [0x17, 0x18] →
      exec (.regwr rn w) s = .next { s with fl.err := .illegalCommand }) ∧
    (rn = 0x17 → 2 ^ 6 ≤ w.toNat → exec (.regwr rn w) s = .next { s with fl.err := .configError }) ∧
    (writable → s.sq.lc ≠ .idle → exec (.regwr rn w) s = .next { s with fl.err := .busy }) ∧
    (writable → s.sq.lc = .idle → pinReg → s.fl.claimed = true →
      exec (.regwr rn w) s = .next { s with fl.err := .busy }) ∧
    (writable → s.sq.lc = .idle → (pinReg → s.fl.claimed = false) →
      (rn = 2 ∧ (w = 0 ∨ s.params.nchMax < w.toNat)) ∨ ((rn = 3 ∨ rn = 4 ∨ 0x20 ≤ rn.toNat) ∧ 2 ^ 8 ≤ w.toNat) ∨
        (rn = 5 ∧ 3 ≤ w.toNat) ∨ (rn = 7 ∧ s.params.bufDepth < w.toNat) ∨ (rn = 8 ∧ 2 ≤ w.toNat) →
      exec (.regwr rn w) s = .next { s with fl.err := .configError })
end

