-- ==== Sys2Proof/Laws/State.lean ====
section
/-! SUPPORT. One lemma per named update of the state and per group of fields: the group the update writes has its new
value, every other group is unchanged. All hold by unfolding one record update, so that no later proof unfolds it. -/

namespace Sys2Proof.Machine

/-! ### memWrite -/

@[simp] theorem memWrite_params (ch t : Nat) (e : Word32) (s : State) : (memWrite ch t e s).params = s.params := rfl
@[simp] theorem memWrite_dp (ch t : Nat) (e : Word32) (s : State) : (memWrite ch t e s).dp = s.dp := rfl
@[simp] theorem memWrite_sq (ch t : Nat) (e : Word32) (s : State) : (memWrite ch t e s).sq = s.sq := rfl
@[simp] theorem memWrite_fl (ch t : Nat) (e : Word32) (s : State) : (memWrite ch t e s).fl = s.fl := rfl
@[simp] theorem memWrite_cfg (ch t : Nat) (e : Word32) (s : State) : (memWrite ch t e s).cfg = s.cfg := rfl
@[simp] theorem memWrite_tab (ch t : Nat) (e : Word32) (s : State) : (memWrite ch t e s).tab = s.tab := rfl
@[simp] theorem memWrite_buf (ch t : Nat) (e : Word32) (s : State) :
    (memWrite ch t e s).buf = { s.buf with seqs := tabSet s.buf.seqs ch (seqWrite (s.seqAt ch) t e) } := rfl
@[simp] theorem memWrite_pins (ch t : Nat) (e : Word32) (s : State) : (memWrite ch t e s).pins = s.pins := rfl
@[simp] theorem memWrite_history (ch t : Nat) (e : Word32) (s : State) :
    (memWrite ch t e s).history = s.history := rfl
@[simp] theorem memWrite_io (ch t : Nat) (e : Word32) (s : State) : (memWrite ch t e s).io = s.io := rfl

/-! ### emit -/

@[simp] theorem emit_params (e : Event) (s : State) : (s.emit e).params = s.params := rfl
@[simp] theorem emit_dp (e : Event) (s : State) : (s.emit e).dp = s.dp := rfl
@[simp] theorem emit_sq (e : Event) (s : State) : (s.emit e).sq = s.sq := rfl
@[simp] theorem emit_fl (e : Event) (s : State) : (s.emit e).fl = s.fl := rfl
@[simp] theorem emit_cfg (e : Event) (s : State) : (s.emit e).cfg = s.cfg := rfl
@[simp] theorem emit_tab (e : Event) (s : State) : (s.emit e).tab = s.tab := rfl
@[simp] theorem emit_buf (e : Event) (s : State) : (s.emit e).buf = s.buf := rfl
@[simp] theorem emit_pins (e : Event) (s : State) : (s.emit e).pins = s.pins := rfl
@[simp] theorem emit_history (e : Event) (s : State) : (s.emit e).history = e :: s.history := rfl
@[simp] theorem emit_io (e : Event) (s : State) : (s.emit e).io = s.io := rfl

/-! ### drawn -/

@[simp] theorem drawn_params (s : State) : (s.drawn).params = s.params := rfl
@[simp] theorem drawn_dp (s : State) : (s.drawn).dp = s.dp := rfl
@[simp] theorem drawn_sq (s : State) : (s.drawn).sq = s.sq := rfl
@[simp] theorem drawn_fl (s : State) : (s.drawn).fl = s.fl := rfl
@[simp] theorem drawn_cfg (s : State) : (s.drawn).cfg = s.cfg := rfl
@[simp] theorem drawn_tab (s : State) : (s.drawn).tab = s.tab := rfl
@[simp] theorem drawn_buf (s : State) : (s.drawn).buf = s.buf := rfl
@[simp] theorem drawn_pins (s : State) : (s.drawn).pins = s.pins := rfl
@[simp] theorem drawn_history (s : State) : (s.drawn).history = s.history := rfl
@[simp] theorem drawn_io (s : State) :
    (s.drawn).io = { s.io with answers := s.io.answers.drop 1, drawn := s.io.drawn + 1 } := rfl

/-! ### setPdir -/

@[simp] theorem setPdir_params (p : PinId) (d : Option Dir) (s : State) : (s.setPdir p d).params = s.params := rfl
@[simp] theorem setPdir_dp (p : PinId) (d : Option Dir) (s : State) : (s.setPdir p d).dp = s.dp := rfl
@[simp] theorem setPdir_sq (p : PinId) (d : Option Dir) (s : State) : (s.setPdir p d).sq = s.sq := rfl
@[simp] theorem setPdir_fl (p : PinId) (d : Option Dir) (s : State) : (s.setPdir p d).fl = s.fl := rfl
@[simp] theorem setPdir_cfg (p : PinId) (d : Option Dir) (s : State) : (s.setPdir p d).cfg = s.cfg := rfl
@[simp] theorem setPdir_tab (p : PinId) (d : Option Dir) (s : State) : (s.setPdir p d).tab = s.tab := rfl
@[simp] theorem setPdir_buf (p : PinId) (d : Option Dir) (s : State) : (s.setPdir p d).buf = s.buf := rfl
@[simp] theorem setPdir_pins (p : PinId) (d : Option Dir) (s : State) :
    (s.setPdir p d).pins = { s.pins with dir := s.pins.dir.set p.toNat d p.isLt } := rfl
@[simp] theorem setPdir_history (p : PinId) (d : Option Dir) (s : State) : (s.setPdir p d).history = s.history := rfl
@[simp] theorem setPdir_io (p : PinId) (d : Option Dir) (s : State) : (s.setPdir p d).io = s.io := rfl

/-! ### setPlvl -/

@[simp] theorem setPlvl_params (p : PinId) (l : Option Level) (s : State) : (s.setPlvl p l).params = s.params := rfl
@[simp] theorem setPlvl_dp (p : PinId) (l : Option Level) (s : State) : (s.setPlvl p l).dp = s.dp := rfl
@[simp] theorem setPlvl_sq (p : PinId) (l : Option Level) (s : State) : (s.setPlvl p l).sq = s.sq := rfl
@[simp] theorem setPlvl_fl (p : PinId) (l : Option Level) (s : State) : (s.setPlvl p l).fl = s.fl := rfl
@[simp] theorem setPlvl_cfg (p : PinId) (l : Option Level) (s : State) : (s.setPlvl p l).cfg = s.cfg := rfl
@[simp] theorem setPlvl_tab (p : PinId) (l : Option Level) (s : State) : (s.setPlvl p l).tab = s.tab := rfl
@[simp] theorem setPlvl_buf (p : PinId) (l : Option Level) (s : State) : (s.setPlvl p l).buf = s.buf := rfl
@[simp] theorem setPlvl_pins (p : PinId) (l : Option Level) (s : State) :
    (s.setPlvl p l).pins = { s.pins with lvl := s.pins.lvl.set p.toNat l p.isLt } := rfl
@[simp] theorem setPlvl_history (p : PinId) (l : Option Level) (s : State) :
    (s.setPlvl p l).history = s.history := rfl
@[simp] theorem setPlvl_io (p : PinId) (l : Option Level) (s : State) : (s.setPlvl p l).io = s.io := rfl

/-! ### refuse -/

@[simp] theorem refuse_params (e : ErrCode) (s : State) : (refuse e s).params = s.params := rfl
@[simp] theorem refuse_dp (e : ErrCode) (s : State) : (refuse e s).dp = s.dp := rfl
@[simp] theorem refuse_sq (e : ErrCode) (s : State) : (refuse e s).sq = s.sq := rfl
@[simp] theorem refuse_fl (e : ErrCode) (s : State) : (refuse e s).fl = { s.fl with err := e } := rfl
@[simp] theorem refuse_cfg (e : ErrCode) (s : State) : (refuse e s).cfg = s.cfg := rfl
@[simp] theorem refuse_tab (e : ErrCode) (s : State) : (refuse e s).tab = s.tab := rfl
@[simp] theorem refuse_buf (e : ErrCode) (s : State) : (refuse e s).buf = s.buf := rfl
@[simp] theorem refuse_pins (e : ErrCode) (s : State) : (refuse e s).pins = s.pins := rfl
@[simp] theorem refuse_history (e : ErrCode) (s : State) : (refuse e s).history = s.history := rfl
@[simp] theorem refuse_io (e : ErrCode) (s : State) : (refuse e s).io = s.io := rfl

/-! ### accept -/

@[simp] theorem accept_params (s : State) : (accept s).params = s.params := rfl
@[simp] theorem accept_dp (s : State) : (accept s).dp = s.dp := rfl
@[simp] theorem accept_sq (s : State) : (accept s).sq = s.sq := rfl
@[simp] theorem accept_fl (s : State) : (accept s).fl = { s.fl with err := .none } := rfl
@[simp] theorem accept_cfg (s : State) : (accept s).cfg = s.cfg := rfl
@[simp] theorem accept_tab (s : State) : (accept s).tab = s.tab := rfl
@[simp] theorem accept_buf (s : State) : (accept s).buf = s.buf := rfl
@[simp] theorem accept_pins (s : State) : (accept s).pins = s.pins := rfl
@[simp] theorem accept_history (s : State) : (accept s).history = s.history := rfl
@[simp] theorem accept_io (s : State) : (accept s).io = s.io := rfl

/-! ### frameHead -/

@[simp] theorem frameHead_params (ch : Nat) (s : State) : (frameHead ch s).params = s.params := rfl
@[simp] theorem frameHead_dp (ch : Nat) (s : State) : (frameHead ch s).dp = { s.dp with sr := 0, bitcnt := 0 } := rfl
@[simp] theorem frameHead_sq (ch : Nat) (s : State) :
    (frameHead ch s).sq = { s.sq with ch := BitVec.ofNat 6 ch } := rfl
@[simp] theorem frameHead_fl (ch : Nat) (s : State) : (frameHead ch s).fl = s.fl := rfl
@[simp] theorem frameHead_cfg (ch : Nat) (s : State) : (frameHead ch s).cfg = s.cfg := rfl
@[simp] theorem frameHead_tab (ch : Nat) (s : State) : (frameHead ch s).tab = s.tab := rfl
@[simp] theorem frameHead_buf (ch : Nat) (s : State) : (frameHead ch s).buf = s.buf := rfl
@[simp] theorem frameHead_pins (ch : Nat) (s : State) : (frameHead ch s).pins = s.pins := rfl
@[simp] theorem frameHead_history (ch : Nat) (s : State) : (frameHead ch s).history = s.history := rfl
@[simp] theorem frameHead_io (ch : Nat) (s : State) : (frameHead ch s).io = s.io := rfl

/-! ### shiftIn -/

@[simp] theorem shiftIn_params (b : BitVec 1) (s : State) : (shiftIn b s).params = s.params := rfl
@[simp] theorem shiftIn_dp (b : BitVec 1) (s : State) :
    (shiftIn b s).dp = { s.dp with bit := b, sr := (s.dp.sr <<< 1) ||| b.setWidth 32, bitcnt := s.dp.bitcnt + 1 } := rfl
@[simp] theorem shiftIn_sq (b : BitVec 1) (s : State) : (shiftIn b s).sq = s.sq := rfl
@[simp] theorem shiftIn_fl (b : BitVec 1) (s : State) : (shiftIn b s).fl = s.fl := rfl
@[simp] theorem shiftIn_cfg (b : BitVec 1) (s : State) : (shiftIn b s).cfg = s.cfg := rfl
@[simp] theorem shiftIn_tab (b : BitVec 1) (s : State) : (shiftIn b s).tab = s.tab := rfl
@[simp] theorem shiftIn_buf (b : BitVec 1) (s : State) : (shiftIn b s).buf = s.buf := rfl
@[simp] theorem shiftIn_pins (b : BitVec 1) (s : State) : (shiftIn b s).pins = s.pins := rfl
@[simp] theorem shiftIn_history (b : BitVec 1) (s : State) : (shiftIn b s).history = s.history := rfl
@[simp] theorem shiftIn_io (b : BitVec 1) (s : State) : (shiftIn b s).io = s.io := rfl

/-! ### latchFrame -/

@[simp] theorem latchFrame_params (s : State) : (latchFrame s).params = s.params := rfl
@[simp] theorem latchFrame_dp (s : State) : (latchFrame s).dp = { s.dp with frame := s.dp.sr } := rfl
@[simp] theorem latchFrame_sq (s : State) : (latchFrame s).sq = s.sq := rfl
@[simp] theorem latchFrame_fl (s : State) : (latchFrame s).fl = s.fl := rfl
@[simp] theorem latchFrame_cfg (s : State) : (latchFrame s).cfg = s.cfg := rfl
@[simp] theorem latchFrame_tab (s : State) : (latchFrame s).tab = s.tab := rfl
@[simp] theorem latchFrame_buf (s : State) : (latchFrame s).buf = s.buf := rfl
@[simp] theorem latchFrame_pins (s : State) : (latchFrame s).pins = s.pins := rfl
@[simp] theorem latchFrame_history (s : State) : (latchFrame s).history = s.history := rfl
@[simp] theorem latchFrame_io (s : State) : (latchFrame s).io = s.io := rfl

/-! ### tcField -/

@[simp] theorem tcField_params (s : State) : (tcField s).params = s.params := rfl
@[simp] theorem tcField_dp (s : State) :
    (tcField s).dp = { s.dp with tcq := BitVec.ofInt 14 (tcQuantity s.dp.frame) } := rfl
@[simp] theorem tcField_sq (s : State) : (tcField s).sq = s.sq := rfl
@[simp] theorem tcField_fl (s : State) : (tcField s).fl = s.fl := rfl
@[simp] theorem tcField_cfg (s : State) : (tcField s).cfg = s.cfg := rfl
@[simp] theorem tcField_tab (s : State) : (tcField s).tab = s.tab := rfl
@[simp] theorem tcField_buf (s : State) : (tcField s).buf = s.buf := rfl
@[simp] theorem tcField_pins (s : State) : (tcField s).pins = s.pins := rfl
@[simp] theorem tcField_history (s : State) : (tcField s).history = s.history := rfl
@[simp] theorem tcField_io (s : State) : (tcField s).io = s.io := rfl

/-! ### rjField -/

@[simp] theorem rjField_params (s : State) : (rjField s).params = s.params := rfl
@[simp] theorem rjField_dp (s : State) :
    (rjField s).dp = { s.dp with rjq := BitVec.ofInt 12 (rjQuantity s.dp.frame) } := rfl
@[simp] theorem rjField_sq (s : State) : (rjField s).sq = s.sq := rfl
@[simp] theorem rjField_fl (s : State) : (rjField s).fl = s.fl := rfl
@[simp] theorem rjField_cfg (s : State) : (rjField s).cfg = s.cfg := rfl
@[simp] theorem rjField_tab (s : State) : (rjField s).tab = s.tab := rfl
@[simp] theorem rjField_buf (s : State) : (rjField s).buf = s.buf := rfl
@[simp] theorem rjField_pins (s : State) : (rjField s).pins = s.pins := rfl
@[simp] theorem rjField_history (s : State) : (rjField s).history = s.history := rfl
@[simp] theorem rjField_io (s : State) : (rjField s).io = s.io := rfl

/-! ### classify -/

@[simp] theorem classify_params (s : State) : (classify s).params = s.params := rfl
@[simp] theorem classify_dp (s : State) : (classify s).dp = { s.dp with fs := classifyFrame s.dp.frame } := rfl
@[simp] theorem classify_sq (s : State) : (classify s).sq = s.sq := rfl
@[simp] theorem classify_fl (s : State) : (classify s).fl = s.fl := rfl
@[simp] theorem classify_cfg (s : State) : (classify s).cfg = s.cfg := rfl
@[simp] theorem classify_tab (s : State) : (classify s).tab = s.tab := rfl
@[simp] theorem classify_buf (s : State) : (classify s).buf = s.buf := rfl
@[simp] theorem classify_pins (s : State) : (classify s).pins = s.pins := rfl
@[simp] theorem classify_history (s : State) : (classify s).history = s.history := rfl
@[simp] theorem classify_io (s : State) : (classify s).io = s.io := rfl

/-! ### toUnit -/

@[simp] theorem toUnit_params (p : Path) (u : TempUnit) (s : State) : (toUnit p u s).params = s.params := rfl
@[simp] theorem toUnit_dp (p : Path) (u : TempUnit) (s : State) :
    (toUnit p u s).dp = { s.dp with val := BitVec.ofInt 18 (convert p u (pathQuantity p s)), vscale := p, vunit := u } := rfl
@[simp] theorem toUnit_sq (p : Path) (u : TempUnit) (s : State) : (toUnit p u s).sq = s.sq := rfl
@[simp] theorem toUnit_fl (p : Path) (u : TempUnit) (s : State) : (toUnit p u s).fl = s.fl := rfl
@[simp] theorem toUnit_cfg (p : Path) (u : TempUnit) (s : State) : (toUnit p u s).cfg = s.cfg := rfl
@[simp] theorem toUnit_tab (p : Path) (u : TempUnit) (s : State) : (toUnit p u s).tab = s.tab := rfl
@[simp] theorem toUnit_buf (p : Path) (u : TempUnit) (s : State) : (toUnit p u s).buf = s.buf := rfl
@[simp] theorem toUnit_pins (p : Path) (u : TempUnit) (s : State) : (toUnit p u s).pins = s.pins := rfl
@[simp] theorem toUnit_history (p : Path) (u : TempUnit) (s : State) : (toUnit p u s).history = s.history := rfl
@[simp] theorem toUnit_io (p : Path) (u : TempUnit) (s : State) : (toUnit p u s).io = s.io := rfl

/-! ### goto -/

@[simp] theorem goto_params (p : BitVec 3) (s : State) : (s.goto p).params = s.params := rfl
@[simp] theorem goto_dp (p : BitVec 3) (s : State) : (s.goto p).dp = s.dp := rfl
@[simp] theorem goto_sq (p : BitVec 3) (s : State) : (s.goto p).sq = { s.sq with phase := p } := rfl
@[simp] theorem goto_fl (p : BitVec 3) (s : State) : (s.goto p).fl = s.fl := rfl
@[simp] theorem goto_cfg (p : BitVec 3) (s : State) : (s.goto p).cfg = s.cfg := rfl
@[simp] theorem goto_tab (p : BitVec 3) (s : State) : (s.goto p).tab = s.tab := rfl
@[simp] theorem goto_buf (p : BitVec 3) (s : State) : (s.goto p).buf = s.buf := rfl
@[simp] theorem goto_pins (p : BitVec 3) (s : State) : (s.goto p).pins = s.pins := rfl
@[simp] theorem goto_history (p : BitVec 3) (s : State) : (s.goto p).history = s.history := rfl
@[simp] theorem goto_io (p : BitVec 3) (s : State) : (s.goto p).io = s.io := rfl

/-! ### visit -/

@[simp] theorem visit_params (i : Nat) (s : State) : (visit i s).params = s.params := rfl
@[simp] theorem visit_dp (i : Nat) (s : State) : (visit i s).dp = s.dp := rfl
@[simp] theorem visit_sq (i : Nat) (s : State) : (visit i s).sq = { s.sq with ch := BitVec.ofNat 6 i } := rfl
@[simp] theorem visit_fl (i : Nat) (s : State) : (visit i s).fl = s.fl := rfl
@[simp] theorem visit_cfg (i : Nat) (s : State) : (visit i s).cfg = s.cfg := rfl
@[simp] theorem visit_tab (i : Nat) (s : State) : (visit i s).tab = s.tab := rfl
@[simp] theorem visit_buf (i : Nat) (s : State) : (visit i s).buf = s.buf := rfl
@[simp] theorem visit_pins (i : Nat) (s : State) : (visit i s).pins = s.pins := rfl
@[simp] theorem visit_history (i : Nat) (s : State) : (visit i s).history = s.history := rfl
@[simp] theorem visit_io (i : Nat) (s : State) : (visit i s).io = s.io := rfl

/-! ### clearStaging -/

@[simp] theorem clearStaging_params (s : State) : (clearStaging s).params = s.params := rfl
@[simp] theorem clearStaging_dp (s : State) : (clearStaging s).dp = s.dp := rfl
@[simp] theorem clearStaging_sq (s : State) : (clearStaging s).sq = s.sq := rfl
@[simp] theorem clearStaging_fl (s : State) : (clearStaging s).fl = s.fl := rfl
@[simp] theorem clearStaging_cfg (s : State) : (clearStaging s).cfg = s.cfg := rfl
@[simp] theorem clearStaging_buf (s : State) : (clearStaging s).buf = s.buf := rfl
@[simp] theorem clearStaging_pins (s : State) : (clearStaging s).pins = s.pins := rfl
@[simp] theorem clearStaging_history (s : State) : (clearStaging s).history = s.history := rfl
@[simp] theorem clearStaging_io (s : State) : (clearStaging s).io = s.io := rfl

/-! ### stageQuarantined -/

@[simp] theorem stageQuarantined_params (i : Nat) (s : State) : (stageQuarantined i s).params = s.params := rfl
@[simp] theorem stageQuarantined_dp (i : Nat) (s : State) : (stageQuarantined i s).dp = s.dp := rfl
@[simp] theorem stageQuarantined_sq (i : Nat) (s : State) : (stageQuarantined i s).sq = s.sq := rfl
@[simp] theorem stageQuarantined_fl (i : Nat) (s : State) : (stageQuarantined i s).fl = s.fl := rfl
@[simp] theorem stageQuarantined_cfg (i : Nat) (s : State) : (stageQuarantined i s).cfg = s.cfg := rfl
@[simp] theorem stageQuarantined_tab (i : Nat) (s : State) :
    (stageQuarantined i s).tab = { s.tab with stage := tabSet s.tab.stage i (entryFault (s.qfsAt i)), stageLen := BitVec.ofNat 6 (i + 1) } := rfl
@[simp] theorem stageQuarantined_buf (i : Nat) (s : State) : (stageQuarantined i s).buf = s.buf := rfl
@[simp] theorem stageQuarantined_pins (i : Nat) (s : State) : (stageQuarantined i s).pins = s.pins := rfl
@[simp] theorem stageQuarantined_history (i : Nat) (s : State) : (stageQuarantined i s).history = s.history := rfl
@[simp] theorem stageQuarantined_io (i : Nat) (s : State) : (stageQuarantined i s).io = s.io := rfl

/-! ### stageReading -/

@[simp] theorem stageReading_params (i : Nat) (s : State) : (stageReading i s).params = s.params := rfl
@[simp] theorem stageReading_dp (i : Nat) (s : State) : (stageReading i s).dp = s.dp := rfl
@[simp] theorem stageReading_sq (i : Nat) (s : State) : (stageReading i s).sq = s.sq := rfl
@[simp] theorem stageReading_fl (i : Nat) (s : State) : (stageReading i s).fl = s.fl := rfl
@[simp] theorem stageReading_cfg (i : Nat) (s : State) : (stageReading i s).cfg = s.cfg := rfl
@[simp] theorem stageReading_tab (i : Nat) (s : State) :
    (stageReading i s).tab = { s.tab with rjStage := tabSet s.tab.rjStage i s.dp.rjres, stage := tabSet s.tab.stage i s.dp.res, stageLen := BitVec.ofNat 6 (i + 1) } := rfl
@[simp] theorem stageReading_buf (i : Nat) (s : State) : (stageReading i s).buf = s.buf := rfl
@[simp] theorem stageReading_pins (i : Nat) (s : State) : (stageReading i s).pins = s.pins := rfl
@[simp] theorem stageReading_history (i : Nat) (s : State) : (stageReading i s).history = s.history := rfl
@[simp] theorem stageReading_io (i : Nat) (s : State) : (stageReading i s).io = s.io := rfl

/-! ### haltSession -/

@[simp] theorem haltSession_params (s : State) : (haltSession s).params = s.params := rfl
@[simp] theorem haltSession_dp (s : State) : (haltSession s).dp = s.dp := rfl
@[simp] theorem haltSession_sq (s : State) : (haltSession s).sq = { s.sq with phase := 6 } := rfl
@[simp] theorem haltSession_fl (s : State) : (haltSession s).fl = { s.fl with halt := true } := rfl
@[simp] theorem haltSession_cfg (s : State) : (haltSession s).cfg = s.cfg := rfl
@[simp] theorem haltSession_tab (s : State) : (haltSession s).tab = s.tab := rfl
@[simp] theorem haltSession_buf (s : State) : (haltSession s).buf = s.buf := rfl
@[simp] theorem haltSession_pins (s : State) : (haltSession s).pins = s.pins := rfl
@[simp] theorem haltSession_history (s : State) : (haltSession s).history = s.history := rfl
@[simp] theorem haltSession_io (s : State) : (haltSession s).io = s.io := rfl

/-! ### quarantine -/

@[simp] theorem quarantine_params (i : Nat) (s : State) : (quarantine i s).params = s.params := rfl
@[simp] theorem quarantine_dp (i : Nat) (s : State) : (quarantine i s).dp = s.dp := rfl
@[simp] theorem quarantine_sq (i : Nat) (s : State) : (quarantine i s).sq = s.sq := rfl
@[simp] theorem quarantine_fl (i : Nat) (s : State) : (quarantine i s).fl = s.fl := rfl
@[simp] theorem quarantine_cfg (i : Nat) (s : State) : (quarantine i s).cfg = s.cfg := rfl
@[simp] theorem quarantine_tab (i : Nat) (s : State) :
    (quarantine i s).tab = { s.tab with quar := tabSet s.tab.quar i true, qfs := tabSet s.tab.qfs i s.dp.fs } := rfl
@[simp] theorem quarantine_buf (i : Nat) (s : State) : (quarantine i s).buf = s.buf := rfl
@[simp] theorem quarantine_pins (i : Nat) (s : State) : (quarantine i s).pins = s.pins := rfl
@[simp] theorem quarantine_history (i : Nat) (s : State) : (quarantine i s).history = s.history := rfl
@[simp] theorem quarantine_io (i : Nat) (s : State) : (quarantine i s).io = s.io := rfl

/-! ### enterRunning -/

@[simp] theorem enterRunning_params (s : State) : (enterRunning s).params = s.params := rfl
@[simp] theorem enterRunning_dp (s : State) : (enterRunning s).dp = s.dp := rfl
@[simp] theorem enterRunning_sq (s : State) : (enterRunning s).sq = { s.sq with lc := .running, phase := 0 } := rfl
@[simp] theorem enterRunning_fl (s : State) : (enterRunning s).fl = s.fl := rfl
@[simp] theorem enterRunning_cfg (s : State) : (enterRunning s).cfg = s.cfg := rfl
@[simp] theorem enterRunning_tab (s : State) : (enterRunning s).tab = s.tab := rfl
@[simp] theorem enterRunning_buf (s : State) : (enterRunning s).buf = s.buf := rfl
@[simp] theorem enterRunning_pins (s : State) : (enterRunning s).pins = s.pins := rfl
@[simp] theorem enterRunning_history (s : State) : (enterRunning s).history = s.history := rfl
@[simp] theorem enterRunning_io (s : State) : (enterRunning s).io = s.io := rfl

/-! ### popTurn -/

@[simp] theorem popTurn_params (s : State) : (s.popTurn).params = s.params := rfl
@[simp] theorem popTurn_dp (s : State) : (s.popTurn).dp = s.dp := rfl
@[simp] theorem popTurn_sq (s : State) : (s.popTurn).sq = s.sq := rfl
@[simp] theorem popTurn_fl (s : State) : (s.popTurn).fl = s.fl := rfl
@[simp] theorem popTurn_cfg (s : State) : (s.popTurn).cfg = s.cfg := rfl
@[simp] theorem popTurn_tab (s : State) : (s.popTurn).tab = s.tab := rfl
@[simp] theorem popTurn_buf (s : State) : (s.popTurn).buf = s.buf := rfl
@[simp] theorem popTurn_pins (s : State) : (s.popTurn).pins = s.pins := rfl
@[simp] theorem popTurn_history (s : State) : (s.popTurn).history = s.history := rfl
@[simp] theorem popTurn_io (s : State) : (s.popTurn).io = { s.io with turns := s.io.turns.tail } := rfl

/-! ### takePort -/

@[simp] theorem takePort_params (s : State) : (s.takePort).params = s.params := rfl
@[simp] theorem takePort_dp (s : State) : (s.takePort).dp = s.dp := rfl
@[simp] theorem takePort_sq (s : State) : (s.takePort).sq = s.sq := rfl
@[simp] theorem takePort_fl (s : State) : (s.takePort).fl = s.fl := rfl
@[simp] theorem takePort_cfg (s : State) : (s.takePort).cfg = s.cfg := rfl
@[simp] theorem takePort_tab (s : State) : (s.takePort).tab = s.tab := rfl
@[simp] theorem takePort_buf (s : State) : (s.takePort).buf = s.buf := rfl
@[simp] theorem takePort_pins (s : State) : (s.takePort).pins = s.pins := rfl
@[simp] theorem takePort_history (s : State) : (s.takePort).history = s.history := rfl
@[simp] theorem takePort_io (s : State) : (s.takePort).io = { s.io with port := 0 } := rfl

end Sys2Proof.Machine
end

