-- ==== Sys2Proof/Laws/Flow.lean ====
section
/-! SUPPORT. Reasoning about operations that may raise: what holds of the state an operation leaves, whether it ran to its
end or raised an exception (spec/60_exceptions.md rule R212), is carried through sequencing once. -/

namespace Sys2Proof.Machine

section Flow
variable {α β : Type}

/-- `P` holds of the result and the state if the operation ran to its end, `Q` of the state if it raised. -/
def Flow.Post (P : α → State → Prop) (Q : Cause → State → Prop) : Flow α → Prop
  | .done a s => P a s
  | .raised x s => Q x s

@[simp] theorem Flow.post_done (P : α → State → Prop) (Q : Cause → State → Prop) (a : α) (s : State) :
    (Flow.done a s).Post P Q ↔ P a s := Iff.rfl

@[simp] theorem Flow.post_raised (P : α → State → Prop) (Q : Cause → State → Prop) (x : Cause) (s : State) :
    (Flow.raised x s : Flow α).Post P Q ↔ Q x s := Iff.rfl

@[simp] theorem Flow.andThen_done (a : α) (s : State) (k : α → State → Flow β) :
    (Flow.done a s).andThen k = k a s := rfl

@[simp] theorem Flow.andThen_raised (x : Cause) (s : State) (k : α → State → Flow β) :
    (Flow.raised x s : Flow α).andThen k = .raised x s := rfl

@[simp] theorem Flow.settle_done (a : α) (s : State) : (Flow.done a s).settle = s := rfl

@[simp] theorem Flow.settle_raised (x : Cause) (s : State) : (Flow.raised x s : Flow α).settle = abort x s := rfl

theorem Flow.andThen_assoc {γ : Type} (m : Flow α) (k : α → State → Flow β) (l : β → State → Flow γ) :
    (m.andThen k).andThen l = m.andThen fun a s => (k a s).andThen l := by
  cases m <;> rfl

/-- Sequencing: the first operation establishes `P`, and the second takes it from there. -/
theorem Flow.Post.andThen {m : Flow α} {k : α → State → Flow β} {P : α → State → Prop} {R : β → State → Prop}
    {Q : Cause → State → Prop} (hm : m.Post P Q) (hk : ∀ a s, P a s → (k a s).Post R Q) : (m.andThen k).Post R Q := by
  cases m with
  | done a s => exact hk a s hm
  | raised x s => exact hm

theorem Flow.Post.mono {m : Flow α} {P P' : α → State → Prop} {Q Q' : Cause → State → Prop} (hm : m.Post P Q)
    (hP : ∀ a s, P a s → P' a s) (hQ : ∀ x s, Q x s → Q' x s) : m.Post P' Q' := by
  cases m with
  | done a s => exact hP a s hm
  | raised x s => exact hQ x s hm

/-- What holds of the settled state: `P` if the operation ran to its end, and `P` of the abort where it raised. -/
theorem Flow.Post.settle {m : Flow α} {P : State → Prop} {Q : Cause → State → Prop} (hm : m.Post (fun _ s => P s) Q)
    (hQ : ∀ x s, Q x s → P (abort x s)) : P m.settle := by
  cases m with
  | done a s => exact hm
  | raised x s => exact hQ x s hm

end Flow

end Sys2Proof.Machine
end

