-- ==== Sys2Proof/Laws/Pins.lean ====
section
/-! SUPPORT. The pins, the environment's answers, the three pin transactions (spec/40_transport.md rules R110 to R112),
the release (rule R114) and the entry to a terminal state (spec/46_loop_controller.md rule R190, spec/60_exceptions.md
rule R214): for each, once, what it can do. -/

namespace Sys2Proof.Machine

/-! ### Reading the mirror after a write of it -/

theorem pdir_eq_of_pins {s t : State} (h : t.pins.dir = s.pins.dir) (p : PinId) : t.pdir p = s.pdir p := by
  simp [State.pdir, h]

theorem plvl_eq_of_pins {s t : State} (h : t.pins.lvl = s.pins.lvl) (p : PinId) : t.plvl p = s.plvl p := by
  simp [State.plvl, h]

theorem pdir_setPdir (p q : PinId) (d : Option Dir) (s : State) :
    (s.setPdir p d).pdir q = if q = p then d else s.pdir q := by
  simp only [State.pdir, setPdir_pins, Vector.getElem_set]
  by_cases h : q = p
  · simp [h]
  · have : ¬ p.toNat = q.toNat := fun e => h (BitVec.eq_of_toNat_eq e.symm)
    simp [h, this]

theorem plvl_setPlvl (p q : PinId) (l : Option Level) (s : State) :
    (s.setPlvl p l).plvl q = if q = p then l else s.plvl q := by
  simp only [State.plvl, setPlvl_pins, Vector.getElem_set]
  by_cases h : q = p
  · simp [h]
  · have : ¬ p.toNat = q.toNat := fun e => h (BitVec.eq_of_toNat_eq e.symm)
    simp [h, this]

@[simp] theorem plvl_setPdir (p q : PinId) (d : Option Dir) (s : State) : (s.setPdir p d).plvl q = s.plvl q := rfl

@[simp] theorem pdir_setPlvl (p q : PinId) (l : Option Level) (s : State) : (s.setPlvl p l).pdir q = s.pdir q := rfl

/-- Two mirrors of one state's pins that read alike are equal. -/
theorem pins_ext {m n : PinMirror} (hd : ∀ p : PinId, m.dir[p.toNat]'p.isLt = n.dir[p.toNat]'p.isLt)
    (hl : ∀ p : PinId, m.lvl[p.toNat]'p.isLt = n.lvl[p.toNat]'p.isLt) : m = n := by
  obtain ⟨md, ml⟩ := m
  obtain ⟨nd, nl⟩ := n
  congr 1
  · ext i hi : 1
    have := hd (BitVec.ofNat 8 i)
    simpa [Nat.mod_eq_of_lt hi] using this
  · ext i hi : 1
    have := hl (BitVec.ofNat 8 i)
    simpa [Nat.mod_eq_of_lt hi] using this

/-! ### The answers -/

theorem nextAnswer_eq_answerAt (s : State) : s.nextAnswer = s.answerAt 0 := by
  unfold State.nextAnswer State.answerAt
  cases s.io.answers <;> rfl

/-- The answers seen after `n` transactions are the later ones of the stream. -/
theorem answerAt_of_drawn {s t : State} {n : Nat} (ha : t.io.answers = s.io.answers.drop n)
    (hd : t.io.drawn = s.io.drawn + n) (k : Nat) : t.answerAt k = s.answerAt (n + k) := by
  simp [State.answerAt, ha, hd, List.getElem?_drop, Nat.add_assoc]

theorem nextAnswer_of_drawn {s t : State} {n : Nat} (ha : t.io.answers = s.io.answers.drop n)
    (hd : t.io.drawn = s.io.drawn + n) : t.nextAnswer = s.answerAt n := by
  rw [nextAnswer_eq_answerAt, answerAt_of_drawn ha hd, Nat.add_zero]

theorem nextAnswer_of_io {s t : State} (h : t.io = s.io) : t.nextAnswer = s.nextAnswer := by
  simp [State.nextAnswer, h]

/-! ### The transactions: what each can do -/

/-- The state a successful SETDIR leaves (rule R110). -/
def afterSetDir (p : PinId) (d : Dir) (s : State) : State := (s.drawn.emit (.pin (.setDir d) p .ok)).setPdir p (some d)

/-- The state a successful WRITE leaves (rule R111). -/
def afterWrite (p : PinId) (l : Level) (s : State) : State := (s.drawn.emit (.pin (.write l) p .ok)).setPlvl p (some l)

/-- The state a successful READ leaves (rule R112). -/
def afterRead (p : PinId) (s : State) : State := s.drawn.emit (.pin .read p (.okBit s.nextAnswer.level))

theorem pinSetDir_eq (p : PinId) (d : Dir) (s : State) :
    pinSetDir p d s = if s.nextAnswer.ok then .done () (afterSetDir p d s)
      else .raised .transportFailure (s.drawn.emit (.pin (.setDir d) p .fail)) := by
  unfold pinSetDir afterSetDir PinAnswer.result
  cases h : s.nextAnswer.ok <;> simp [h]

theorem pinWrite_eq (p : PinId) (l : Level) (s : State) :
    pinWrite p l s = if s.nextAnswer.ok then .done () (afterWrite p l s)
      else .raised .transportFailure (s.drawn.emit (.pin (.write l) p .fail)) := by
  unfold pinWrite afterWrite PinAnswer.result
  cases h : s.nextAnswer.ok <;> simp [h]

theorem pinRead_eq (p : PinId) (s : State) :
    pinRead p s = if s.nextAnswer.ok then .done s.nextAnswer.level (afterRead p s)
      else .raised .transportFailure (s.drawn.emit (.pin .read p .fail)) := by
  unfold pinRead afterRead PinAnswer.readResult
  cases h : s.nextAnswer.ok <;> simp [h]

theorem pinSetDir_ok (p : PinId) (d : Dir) (s : State) (h : s.nextAnswer.ok = true) :
    pinSetDir p d s = .done () (afterSetDir p d s) := by simp [pinSetDir_eq, h]

theorem pinWrite_ok (p : PinId) (l : Level) (s : State) (h : s.nextAnswer.ok = true) :
    pinWrite p l s = .done () (afterWrite p l s) := by simp [pinWrite_eq, h]

theorem pinRead_ok (p : PinId) (s : State) (h : s.nextAnswer.ok = true) :
    pinRead p s = .done s.nextAnswer.level (afterRead p s) := by simp [pinRead_eq, h]

/-- A WRITE emits one event, with the environment's answer (rule R111). -/
theorem events_pinWrite (p : PinId) (l : Level) (s : State) :
    (pinWrite p l s).Post (fun _ t => t.events = s.events ++ [pinEvent (.write l, p) (s.answerAt 0)])
      (fun _ t => t.events = s.events ++ [pinEvent (.write l, p) (s.answerAt 0)]) := by
  rw [pinWrite_eq, ← nextAnswer_eq_answerAt]
  cases h : s.nextAnswer.ok <;>
    simp [afterWrite, pinEvent, PinAnswer.result, h, State.events, State.emit, State.drawn]

/-- A READ emits one event, with the environment's answer (rule R112). -/
theorem events_pinRead (p : PinId) (s : State) :
    (pinRead p s).Post (fun _ t => t.events = s.events ++ [pinEvent (.read, p) (s.answerAt 0)])
      (fun _ t => t.events = s.events ++ [pinEvent (.read, p) (s.answerAt 0)]) := by
  rw [pinRead_eq, ← nextAnswer_eq_answerAt]
  cases h : s.nextAnswer.ok <;>
    simp [afterRead, pinEvent, PinAnswer.readResult, h, State.events, State.emit, State.drawn]

/-! ### What the pins' operations leave alone -/

/-- `t` differs from `s` in the pins, the history and the environment's answers alone. -/
structure OnlyPins (s t : State) : Prop where
  params : t.params = s.params
  dp : t.dp = s.dp
  sq : t.sq = s.sq
  fl : t.fl = s.fl
  cfg : t.cfg = s.cfg
  tab : t.tab = s.tab
  buf : t.buf = s.buf
  turns : t.io.turns = s.io.turns
  replies : t.io.replies = s.io.replies
  port : t.io.port = s.io.port
  pos : t.io.pos = s.io.pos
  history : ∃ l, t.history = l ++ s.history

theorem OnlyPins.refl (s : State) : OnlyPins s s := by constructor <;> first | rfl | exact ⟨[], rfl⟩

theorem OnlyPins.trans {s t u : State} (h : OnlyPins s t) (k : OnlyPins t u) : OnlyPins s u where
  params := k.params.trans h.params
  dp := k.dp.trans h.dp
  sq := k.sq.trans h.sq
  fl := k.fl.trans h.fl
  cfg := k.cfg.trans h.cfg
  tab := k.tab.trans h.tab
  buf := k.buf.trans h.buf
  turns := k.turns.trans h.turns
  replies := k.replies.trans h.replies
  port := k.port.trans h.port
  pos := k.pos.trans h.pos
  history := by
    obtain ⟨l, hl⟩ := h.history
    obtain ⟨m, hm⟩ := k.history
    exact ⟨m ++ l, by rw [hm, hl, List.append_assoc]⟩

/-- The configured pins are read from the configuration. -/
theorem csPinAt_of_cfg {s t : State} (h : t.cfg = s.cfg) (i : Nat) : t.csPinAt i = s.csPinAt i := by
  simp [State.csPinAt, h]

theorem csPins_of_cfg {s t : State} (h : t.cfg = s.cfg) : t.csPins = s.csPins := by
  simp [State.csPins, State.csPinAt, h]

theorem busPins_of_cfg {s t : State} (h : t.cfg = s.cfg) : t.busPins = s.busPins := by
  simp [State.busPins, csPins_of_cfg h, h]

theorem onlyPins_drawn_emit (s : State) (e : Event) : OnlyPins s (s.drawn.emit e) := by
  constructor <;> first | rfl | exact ⟨[e], rfl⟩

theorem onlyPins_afterSetDir (p : PinId) (d : Dir) (s : State) : OnlyPins s (afterSetDir p d s) := by
  constructor <;> first | rfl | exact ⟨[.pin (.setDir d) p .ok], rfl⟩

theorem onlyPins_afterWrite (p : PinId) (l : Level) (s : State) : OnlyPins s (afterWrite p l s) := by
  constructor <;> first | rfl | exact ⟨[.pin (.write l) p .ok], rfl⟩

theorem onlyPins_afterRead (p : PinId) (s : State) : OnlyPins s (afterRead p s) := by
  constructor <;> first | rfl | exact ⟨[.pin .read p (.okBit s.nextAnswer.level)], rfl⟩

theorem onlyPins_releasePin (p : PinId) (s : State) : OnlyPins s (releasePin p s) := by
  constructor <;> first | rfl | exact ⟨[.pin (.setDir .input) p s.nextAnswer.result], rfl⟩

/-! ### The release (rule R114) -/

theorem pdir_releasePin (p q : PinId) (s : State) : (releasePin p s).pdir q = if q = p then none else s.pdir q := by
  unfold releasePin
  rw [pdir_setPlvl, pdir_setPdir]
  rfl

theorem plvl_releasePin (p q : PinId) (s : State) : (releasePin p s).plvl q = if q = p then none else s.plvl q := by
  unfold releasePin
  rw [plvl_setPlvl]
  rfl

theorem onlyPins_releasePins (ps : List PinId) (k : Nat) (s : State) : OnlyPins s (releasePins ps k s).2 := by
  induction ps generalizing k s with
  | nil => exact .refl s
  | cons p ps ih =>
    unfold releasePins
    split
    · exact (onlyPins_releasePin p s).trans (ih _ _)
    · exact ih _ _

/-- The release loop leaves a listed pin unclaimed, and a pin not listed as it was. -/
theorem pdir_releasePins (ps : List PinId) (k : Nat) (s : State) (q : PinId) :
    (releasePins ps k s).2.pdir q = if q ∈ ps then none else s.pdir q := by
  induction ps generalizing k s with
  | nil => simp [releasePins]
  | cons p ps ih =>
    unfold releasePins
    split
    · rw [ih, pdir_releasePin]
      by_cases h : q = p <;> simp [h]
    · rename_i h
      rw [ih]
      by_cases hq : q = p
      · subst hq
        simp only [ne_eq, not_not] at h
        simp [h]
      · simp [hq]

/-- The level of a listed pin that was claimed is gone; every other level is as it was. -/
theorem plvl_releasePins (ps : List PinId) (k : Nat) (s : State) (q : PinId) :
    (releasePins ps k s).2.plvl q = if q ∈ ps ∧ s.pdir q ≠ none then none else s.plvl q := by
  induction ps generalizing k s with
  | nil => simp [releasePins]
  | cons p ps ih =>
    unfold releasePins
    split
    · rename_i h
      rw [ih, pdir_releasePin, plvl_releasePin]
      by_cases hq : q = p
      · subst hq
        simp [h]
      · simp [hq]
    · rename_i h
      rw [ih]
      by_cases hq : q = p
      · subst hq
        simp [h]
      · simp [hq]

/-- The pins a release loop over `ps` sets to input. -/
def claimedAmong (ps : List PinId) (s : State) : List PinId := (ps.filter fun p => s.pdir p != none).eraseDups

/-- Once the head of the list is released, the loop's remaining pins are the others. -/
theorem claimedAmong_releasePin (p : PinId) (ps : List PinId) (s : State) (h : s.pdir p ≠ none) :
    claimedAmong (p :: ps) s = p :: claimedAmong ps (releasePin p s) := by
  unfold claimedAmong
  rw [List.filter_cons_of_pos (by simpa using h), List.eraseDups_cons, List.filter_filter]
  congr 2
  apply List.filter_congr
  intro q _
  rw [pdir_releasePin]
  by_cases hq : q = p <;> simp [hq]

theorem claimedAmong_skip (p : PinId) (ps : List PinId) (s : State) (h : ¬ s.pdir p ≠ none) :
    claimedAmong (p :: ps) s = claimedAmong ps s := by
  unfold claimedAmong
  rw [List.filter_cons_of_neg (by simpa using h)]

/-- The release loop issues one transaction for each pin still claimed, records the answer and counts it. -/
theorem releasePins_spec (ps : List PinId) (k : Nat) (s : State) :
    (releasePins ps k s).2.history =
      ((claimedAmong ps s).zipIdx.map fun pk => .pin (.setDir .input) pk.1 (s.answerAt pk.2).result).reverse
        ++ s.history ∧
    (releasePins ps k s).1 = k + (claimedAmong ps s).length ∧
    (releasePins ps k s).2.io = (s.drawnBy (claimedAmong ps s).length).io := by
  induction ps generalizing k s with
  | nil => simp [releasePins, claimedAmong, State.drawnBy]
  | cons p ps ih =>
    unfold releasePins
    split
    · rename_i h
      obtain ⟨h1, h2, h3⟩ := ih (k + 1) (releasePin p s)
      have ha : ∀ n, (releasePin p s).answerAt n = s.answerAt (1 + n) :=
        answerAt_of_drawn (n := 1) (by simp [releasePin]) (by simp [releasePin])
      rw [claimedAmong_releasePin p ps s h]
      refine ⟨?_, ?_, ?_⟩
      · rw [h1, List.zipIdx_cons, List.map_cons, List.reverse_cons, List.append_assoc]
        congr 1
        · congr 1
          rw [List.zipIdx_succ, List.map_map]
          apply List.map_congr_left
          intro x _
          simp [ha, Nat.add_comm]
        · simp [releasePin, nextAnswer_eq_answerAt]
      · rw [h2, List.length_cons]
        omega
      · rw [h3]
        simp [State.drawnBy, releasePin, Nat.add_assoc, Nat.add_comm]
    · rename_i h
      rw [claimedAmong_skip p ps s h]
      exact ih k s

/-- What the release can do (rule R114): CLAIMED is cleared; the configured pins are unclaimed; nothing else but the
history and the environment's answers changes. -/
structure Released (s t : State) : Prop where
  params : t.params = s.params
  dp : t.dp = s.dp
  sq : t.sq = s.sq
  fl : t.fl = { s.fl with claimed := false }
  cfg : t.cfg = s.cfg
  tab : t.tab = s.tab
  buf : t.buf = s.buf
  io : t.io = (s.drawnBy s.claimedPins.length).io
  pdir : ∀ q, t.pdir q = if q ∈ s.busPins then none else s.pdir q
  plvl : ∀ q, t.plvl q = if q ∈ s.busPins ∧ s.pdir q ≠ none then none else s.plvl q
  history : t.history = .release s.claimedPins.length :: (s.releaseTrace.reverse ++ s.history)

theorem release_spec (s : State) : Released s (release s) := by
  have h := onlyPins_releasePins s.busPins 0 s
  obtain ⟨h1, h2, h3⟩ := releasePins_spec s.busPins 0 s
  refine ⟨h.params, h.dp, h.sq, ?_, h.cfg, h.tab, h.buf, h3, ?_, ?_, ?_⟩
  · show ({ (releasePins s.busPins 0 s).2.fl with claimed := false } : Flags) = _
    rw [h.fl]
  · exact fun q => pdir_releasePins s.busPins 0 s q
  · exact fun q => plvl_releasePins s.busPins 0 s q
  · show Event.release (releasePins s.busPins 0 s).1 :: (releasePins s.busPins 0 s).2.history = _
    rw [h1, h2, Nat.zero_add]
    rfl

/-! ### Stop and Abort -/

/-- What the entry to a terminal state can do (rules R190, R214): LC and STOP_REASON are written, EvStop precedes the
release's events, the pins are released; every other register keeps its value. -/
structure Ended (lc : LoopState) (reason : StopReason) (s t : State) : Prop where
  params : t.params = s.params
  dp : t.dp = s.dp
  sq : t.sq = { s.sq with lc := lc, stopReason := reason }
  fl : t.fl = { s.fl with claimed := false }
  cfg : t.cfg = s.cfg
  tab : t.tab = s.tab
  buf : t.buf = s.buf
  io : t.io = { (s.drawnBy s.claimedPins.length).io with pos := none }
  pdir : ∀ q, t.pdir q = if q ∈ s.busPins then none else s.pdir q
  plvl : ∀ q, t.plvl q = if q ∈ s.busPins ∧ s.pdir q ≠ none then none else s.plvl q
  history : t.history = .release s.claimedPins.length :: (s.releaseTrace.reverse ++ .stop lc reason :: s.history)

theorem endSession_spec (lc : LoopState) (reason : StopReason) (s : State) :
    Ended lc reason s (endSession lc reason s) := by
  have h := release_spec (({ s with sq.lc := lc, sq.stopReason := reason, io.pos := none } : State).emit (.stop lc reason))
  exact ⟨h.params, h.dp, h.sq, h.fl, h.cfg, h.tab, h.buf, h.io, h.pdir, h.plvl, h.history⟩

theorem stop_spec (reason : StopReason) (s : State) : Ended .stopped reason s (stop reason s) :=
  endSession_spec .stopped reason s

theorem abort_spec (x : Cause) (s : State) : Ended .aborted x.reason s (abort x s) :=
  endSession_spec .aborted x.reason s

end Sys2Proof.Machine
end

