-- ==== Sys2Proof/Laws/Transport.lean ====
section
/-! SUPPORT. CLAIM and the frame read (spec/40_transport.md rules R113, R117, R118): what each can do, and what each does
when no pin transaction fails. -/

namespace Sys2Proof.Machine

/-! ### The frame read: what it leaves alone, whether it completes or raises -/

/-- `t` differs from `s` only in what a frame read writes (rule R117): FRAME, SR, BITCNT, BIT, CH, levels of pins, the
history and the environment's answers. -/
structure OnlyFrame (s t : State) : Prop where
  params : t.params = s.params
  dp : t.dp = { s.dp with frame := t.dp.frame, sr := t.dp.sr, bitcnt := t.dp.bitcnt, bit := t.dp.bit }
  sq : t.sq = { s.sq with ch := t.sq.ch }
  fl : t.fl = s.fl
  cfg : t.cfg = s.cfg
  tab : t.tab = s.tab
  buf : t.buf = s.buf
  dir : t.pins.dir = s.pins.dir
  turns : t.io.turns = s.io.turns
  replies : t.io.replies = s.io.replies
  port : t.io.port = s.io.port
  pos : t.io.pos = s.io.pos

theorem OnlyFrame.refl (s : State) : OnlyFrame s s := by constructor <;> rfl

theorem OnlyFrame.trans {s t u : State} (h : OnlyFrame s t) (k : OnlyFrame t u) : OnlyFrame s u where
  params := k.params.trans h.params
  dp := by rw [k.dp, h.dp]
  sq := by rw [k.sq, h.sq]
  fl := k.fl.trans h.fl
  cfg := k.cfg.trans h.cfg
  tab := k.tab.trans h.tab
  buf := k.buf.trans h.buf
  dir := k.dir.trans h.dir
  turns := k.turns.trans h.turns
  replies := k.replies.trans h.replies
  port := k.port.trans h.port
  pos := k.pos.trans h.pos

theorem onlyFrame_pinWrite (p : PinId) (l : Level) (s : State) :
    (pinWrite p l s).Post (fun _ t => OnlyFrame s t) (fun _ t => OnlyFrame s t) := by
  rw [pinWrite_eq]
  split <;> constructor <;> rfl

theorem onlyFrame_pinRead (p : PinId) (s : State) :
    (pinRead p s).Post (fun _ t => OnlyFrame s t) (fun _ t => OnlyFrame s t) := by
  rw [pinRead_eq]
  split <;> constructor <;> rfl

/-- Two operations in sequence that each write only what a frame read writes. -/
theorem onlyFrame_andThen {α β : Type} {s : State} {m : Flow α} {k : α → State → Flow β}
    (hm : m.Post (fun _ t => OnlyFrame s t) (fun _ t => OnlyFrame s t))
    (hk : ∀ a t, (k a t).Post (fun _ u => OnlyFrame t u) (fun _ u => OnlyFrame t u)) :
    (m.andThen k).Post (fun _ t => OnlyFrame s t) (fun _ t => OnlyFrame s t) := by
  cases m with
  | done a t => exact (hk a t).mono (fun _ _ h => hm.trans h) (fun _ _ h => hm.trans h)
  | raised x t => exact hm

theorem onlyFrame_sampleBit (s : State) :
    (sampleBit s).Post (fun _ t => OnlyFrame s t) (fun _ t => OnlyFrame s t) :=
  onlyFrame_andThen (onlyFrame_pinRead _ _) fun _ _ => by constructor <;> rfl

theorem onlyFrame_clockPulse (s : State) :
    (clockPulse s).Post (fun _ t => OnlyFrame s t) (fun _ t => OnlyFrame s t) :=
  onlyFrame_andThen (onlyFrame_pinWrite _ _ _) fun _ t =>
    onlyFrame_andThen (onlyFrame_sampleBit t) fun _ _ => onlyFrame_pinWrite _ _ _

theorem onlyFrame_clockPulses (n : Nat) (s : State) :
    (clockPulses n s).Post (fun _ t => OnlyFrame s t) (fun _ t => OnlyFrame s t) := by
  induction n generalizing s with
  | zero => exact .refl s
  | succ n ih => exact onlyFrame_andThen (onlyFrame_clockPulse s) fun _ t => ih t

/-- What a frame read can do (rules R117, R212): whether it completes or raises, it writes only what rule R117 lists. -/
theorem onlyFrame_readFrame (ch : Nat) (s : State) :
    (readFrame ch s).Post (fun _ t => OnlyFrame s t) (fun _ t => OnlyFrame s t) := by
  have h0 : OnlyFrame s (frameHead ch s) := by constructor <;> rfl
  have h := onlyFrame_andThen (k := fun _ s' => (clockPulses 32 s').andThen fun _ s' =>
      (pinWrite (s'.csPinAt ch) .high s').andThen fun _ s' => Flow.done () (latchFrame s'))
    (onlyFrame_pinWrite (s.csPinAt ch) .low (frameHead ch s)) fun _ t =>
      onlyFrame_andThen (onlyFrame_clockPulses 32 t) fun _ u =>
        onlyFrame_andThen (onlyFrame_pinWrite _ _ u) fun _ _ => by constructor <;> rfl
  exact h.mono (fun _ _ k => h0.trans k) (fun _ _ k => h0.trans k)

/-- Nothing but TransportFailure is raised by a pin transaction, nor by a frame read (rule R117). -/
theorem readFrame_raises (ch : Nat) (s : State) :
    (readFrame ch s).Post (fun _ _ => True) (fun x _ => x = .transportFailure) := by
  have hw : ∀ p l t, (pinWrite p l t).Post (fun _ _ => True) (fun x _ => x = .transportFailure) := by
    intro p l t; rw [pinWrite_eq]; split <;> simp
  have hp : ∀ n t, (clockPulses n t).Post (fun _ _ => True) (fun x _ => x = .transportFailure) := by
    intro n
    induction n with
    | zero => intro t; trivial
    | succ n ih =>
      intro t
      refine Flow.Post.andThen (P := fun _ _ => True) (Flow.Post.andThen (P := fun _ _ => True) (hw _ _ _) ?_)
        fun _ u _ => ih u
      intro _ u _
      refine Flow.Post.andThen (P := fun _ _ => True) (Flow.Post.andThen (P := fun _ _ => True) ?_ ?_)
        fun _ v _ => hw _ _ v
      · rw [pinRead_eq]; split <;> simp
      · intros; trivial
  refine Flow.Post.andThen (P := fun _ _ => True) (hw _ _ _) fun _ t _ => ?_
  refine Flow.Post.andThen (P := fun _ _ => True) (hp 32 t) fun _ u _ => ?_
  exact Flow.Post.andThen (P := fun _ _ => True) (hw _ _ u) fun _ _ _ => trivial

/-! ### The frame read when no transaction fails (rule R118) -/

/-- The state one clock pulse leaves whose READ returns `l`. -/
def afterPulse (l : Level) (s : State) : State :=
  afterWrite s.cfg.clkPin .high
    (shiftIn (readBit l) ((afterWrite s.cfg.clkPin .low s).drawn.emit (.pin .read s.cfg.dataPin (.okBit l))))

theorem clockPulse_ok (s : State) (h : s.allOk 0 3) :
    clockPulse s = .done () (afterPulse (s.answerAt 1).level s) := by
  have a0 : s.nextAnswer.ok = true := by rw [nextAnswer_eq_answerAt]; exact h 0 (by omega)
  have a1 : (afterWrite s.cfg.clkPin .low s).nextAnswer = s.answerAt 1 :=
    nextAnswer_of_drawn (n := 1) rfl rfl
  have a1ok : (s.answerAt 1).ok = true := by have := h 1 (by omega); simpa using this
  unfold clockPulse sampleBit
  rw [pinWrite_ok _ _ _ a0, Flow.andThen_done, pinRead_ok _ _ (by rw [a1]; exact a1ok), Flow.andThen_done,
    Flow.andThen_done, pinWrite_ok]
  · rw [a1]
    simp only [afterPulse, afterRead, a1]
    rfl
  · have : (shiftIn (readBit (afterWrite s.cfg.clkPin .low s).nextAnswer.level)
        (afterRead (afterWrite s.cfg.clkPin .low s).cfg.dataPin (afterWrite s.cfg.clkPin .low s))).nextAnswer =
        s.answerAt 2 :=
      nextAnswer_of_drawn (n := 2) (by simp [afterWrite, afterRead]) (by simp [afterWrite, afterRead])
    rw [this]
    have := h 2 (by omega)
    simpa using this

@[simp] theorem afterPulse_answers (l : Level) (s : State) : (afterPulse l s).io.answers = s.io.answers.drop 3 := by
  simp [afterPulse, afterWrite]

@[simp] theorem afterPulse_drawn (l : Level) (s : State) : (afterPulse l s).io.drawn = s.io.drawn + 3 := rfl

/-- The state after clock pulses whose READs return the levels listed. -/
def afterPulses : List Level → State → State
  | [], s => s
  | l :: ls, s => afterPulses ls (afterPulse l s)

theorem clockPulses_ok (n : Nat) (s : State) (h : s.allOk 0 (3 * n)) :
    clockPulses n s = .done () (afterPulses ((List.range n).map fun k => (s.answerAt (1 + 3 * k)).level) s) := by
  induction n generalizing s with
  | zero => rfl
  | succ n ih =>
    have h3 : s.allOk 0 3 := fun k hk => h k (by omega)
    have hn : (afterPulse (s.answerAt 1).level s).allOk 0 (3 * n) := by
      intro k hk
      rw [answerAt_of_drawn (s := s) (n := 3) (by simp) (by simp)]
      have := h (3 + k) (by omega)
      simpa using this
    have hl : (List.range n).map (fun k => ((afterPulse (s.answerAt 1).level s).answerAt (1 + 3 * k)).level) =
        (List.range n).map fun k => (s.answerAt (1 + 3 * (k + 1))).level := by
      apply List.map_congr_left
      intro k _
      rw [answerAt_of_drawn (s := s) (n := 3) (by simp) (by simp)]
      have : 3 + (1 + 3 * k) = 1 + 3 * (k + 1) := by omega
      rw [this]
    rw [clockPulses, clockPulse_ok s h3, Flow.andThen_done, ih _ hn, List.range_succ_eq_map, hl]
    simp only [List.map_cons, List.map_map, afterPulses, Function.comp_def]

/-- SR after the pulses: the bits read, shifted in from the right. -/
def shiftLevels (ls : List Level) (v : Word32) : Word32 :=
  ls.foldl (fun v l => (v <<< 1) ||| (readBit l).setWidth 32) v

/-- What one clock pulse does, group by group. -/
theorem afterPulse_fields (l : Level) (s : State) :
    (afterPulse l s).params = s.params ∧
    (afterPulse l s).dp =
      { s.dp with
        bit := readBit l, sr := (s.dp.sr <<< 1) ||| (readBit l).setWidth 32, bitcnt := s.dp.bitcnt + 1 } ∧
    (afterPulse l s).sq = s.sq ∧ (afterPulse l s).fl = s.fl ∧ (afterPulse l s).cfg = s.cfg ∧
    (afterPulse l s).tab = s.tab ∧ (afterPulse l s).buf = s.buf ∧
    (afterPulse l s).pins =
      { s.pins with lvl := s.pins.lvl.set s.cfg.clkPin.toNat (some .high) s.cfg.clkPin.isLt } ∧
    (afterPulse l s).history = (pulseTrace s.cfg.clkPin s.cfg.dataPin l).reverse ++ s.history ∧
    (afterPulse l s).io = { s.io with answers := s.io.answers.drop 3, drawn := s.io.drawn + 3 } := by
  simp [afterPulse, afterWrite, pulseTrace]

/-- What a run of clock pulses does, group by group (rule R118). -/
theorem afterPulses_fields (ls : List Level) (s : State) :
    (afterPulses ls s).params = s.params ∧
    (afterPulses ls s).dp =
      { s.dp with
        sr := shiftLevels ls s.dp.sr, bitcnt := s.dp.bitcnt + BitVec.ofNat 6 ls.length,
        bit := (ls.getLast?.map readBit).getD s.dp.bit } ∧
    (afterPulses ls s).sq = s.sq ∧ (afterPulses ls s).fl = s.fl ∧ (afterPulses ls s).cfg = s.cfg ∧
    (afterPulses ls s).tab = s.tab ∧ (afterPulses ls s).buf = s.buf ∧
    (afterPulses ls s).pins =
      { s.pins with
        lvl := if ls = [] then s.pins.lvl else s.pins.lvl.set s.cfg.clkPin.toNat (some .high) s.cfg.clkPin.isLt } ∧
    (afterPulses ls s).history = (ls.flatMap fun l => pulseTrace s.cfg.clkPin s.cfg.dataPin l).reverse ++ s.history ∧
    (afterPulses ls s).io =
      { s.io with answers := s.io.answers.drop (3 * ls.length), drawn := s.io.drawn + 3 * ls.length } := by
  induction ls generalizing s with
  | nil => simp [afterPulses, shiftLevels]
  | cons l ls ih =>
    obtain ⟨p1, p2, p3, p4, p5, p6, p7, p8, p9, p10⟩ := afterPulse_fields l s
    obtain ⟨h1, h2, h3, h4, h5, h6, h7, h8, h9, h10⟩ := ih (afterPulse l s)
    rw [afterPulses]
    generalize afterPulses ls (afterPulse l s) = u at *
    generalize afterPulse l s = t at *
    refine ⟨h1.trans p1, ?_, h3.trans p3, h4.trans p4, h5.trans p5, h6.trans p6, h7.trans p7, ?_, ?_, ?_⟩
    · rw [h2, p2]
      simp only [shiftLevels, List.foldl_cons, List.length_cons, Datapath.mk.injEq, true_and, and_true]
      refine ⟨?_, ?_⟩
      · rw [BitVec.add_assoc]
        congr 1
        apply BitVec.eq_of_toNat_eq
        simp [Nat.add_comm]
      · cases ls with
        | nil => rfl
        | cons m ms => simp [List.getLast?_cons]
    · rw [h8, p8, p5]
      by_cases hl : ls = [] <;> simp [hl]
    · rw [h9, p9, p5]
      simp
    · rw [h10, p10]
      simp only [List.drop_drop, List.length_cons, Surroundings.mk.injEq, true_and, and_true]
      refine ⟨?_, ?_⟩
      · congr 1
        omega
      · omega

/-- A slot written, then another, then the first again: the first write is lost. -/
theorem vector_set_again {α : Type} {n : Nat} (v : Vector α n) (i j : Nat) (a b c : α) (hi : i < n) (hj : j < n) :
    ((v.set i a hi).set j b hj).set i c hi = (v.set j b hj).set i c hi := by
  ext k hk
  simp only [Vector.getElem_set]
  split
  · rfl
  · rename_i h
    split <;> simp

/-- The 32 bits of `F`, most significant first, shift `F` in (rules R61, R118 (a), (d)). -/
theorem shiftLevels_stream (F v : Word32) : shiftLevels ((List.range 32).map (streamLevel F)) v = F := by
  have key : ∀ n, n ≤ 32 → shiftLevels ((List.range n).map (streamLevel F)) v = (v <<< n) ||| (F >>> (32 - n)) := by
    intro n hn
    induction n with
    | zero =>
      apply BitVec.eq_of_getLsbD_eq
      intro i hi
      simp [shiftLevels]
    | succ n ih =>
      have ih' := ih (by omega)
      unfold shiftLevels at ih' ⊢
      rw [List.range_succ, List.map_append, List.foldl_append, ih']
      simp only [List.map_cons, List.map_nil, List.foldl_cons, List.foldl_nil]
      apply BitVec.eq_of_getLsbD_eq
      intro i hi
      have hb : ∀ j, ((readBit (streamLevel F n)).setWidth 32).getLsbD j = (decide (j = 0) && F.getLsbD (31 - n)) := by
        intro j
        unfold streamLevel
        cases F.getLsbD (31 - n) <;> simp [readBit]
      rw [BitVec.getLsbD_or, hb]
      simp only [BitVec.getLsbD_shiftLeft, BitVec.getLsbD_or, BitVec.getLsbD_ushiftRight, hi, decide_true,
        Bool.true_and]
      rcases i with _ | i
      · simp
      · have e1 : 32 - n + i = 32 - (n + 1) + (i + 1) := by omega
        have e2 : i + 1 - 1 = i := by omega
        have e3 : (i + 1 < n + 1) ↔ (i < n) := by omega
        have e4 : i + 1 - (n + 1) = i - n := by omega
        simp [e1, e4, show i < 32 by omega]
  have := key 32 (by omega)
  rw [this]
  apply BitVec.eq_of_getLsbD_eq
  intro i hi
  simp [hi]

/-- What a frame read does when the environment answers its 98 transactions with the bits of `F` (rule R118). -/
theorem readFrame_answered (ch : Nat) (F : Word32) (s : State) (h : s.answersFrame 0 F) :
    readFrame ch s = .done () (s.frameRead ch F) := by
  obtain ⟨hok, hlev⟩ := h
  have ok : ∀ k, k < 98 → (s.answerAt k).ok = true := fun k hk => by have := hok k hk; simpa using this
  have a0 : (frameHead ch s).nextAnswer.ok = true := by
    rw [nextAnswer_of_io (s := s) (t := frameHead ch s) rfl, nextAnswer_eq_answerAt]
    exact ok 0 (by omega)
  have ans : ∀ k, (afterWrite (s.csPinAt ch) .low (frameHead ch s)).answerAt k = s.answerAt (1 + k) := fun k =>
    answerAt_of_drawn (n := 1) (by simp [afterWrite]) (by simp [afterWrite]) k
  have hpulse : (afterWrite (s.csPinAt ch) .low (frameHead ch s)).allOk 0 (3 * 32) := by
    intro k hk
    rw [ans]
    exact ok _ (by omega)
  have hls : ((List.range 32).map fun k =>
      ((afterWrite (s.csPinAt ch) .low (frameHead ch s)).answerAt (1 + 3 * k)).level) =
      (List.range 32).map (streamLevel F) := by
    apply List.map_congr_left
    intro k hk
    rw [ans]
    have hk' : k < 32 := List.mem_range.mp hk
    have := hlev k hk'
    rw [← this]
    congr 2
    omega
  unfold readFrame
  rw [pinWrite_ok _ _ _ a0, Flow.andThen_done, clockPulses_ok 32 _ hpulse, Flow.andThen_done, hls]
  obtain ⟨h1, h2, h3, h4, h5, h6, h7, h8, h9, h10⟩ :=
    afterPulses_fields ((List.range 32).map (streamLevel F)) (afterWrite (s.csPinAt ch) .low (frameHead ch s))
  generalize afterPulses ((List.range 32).map (streamLevel F)) (afterWrite (s.csPinAt ch) .low (frameHead ch s)) = t at *
  have a97 : t.nextAnswer.ok = true := by
    have : t.nextAnswer = s.answerAt 97 := by
      apply nextAnswer_of_drawn
      · rw [h10]; simp [afterWrite]
      · rw [h10]; simp [afterWrite]
    rw [this]
    exact ok 97 (by omega)
  rw [pinWrite_ok _ _ _ a97, Flow.andThen_done]
  congr 1
  have hlast : ((List.range 32).map (streamLevel F)).getLast?.map readBit = some (F.extractLsb' 0 1) := by
    rw [List.range_succ]
    simp only [List.map_append, List.map_cons, List.map_nil, List.getLast?_append, List.getLast?_singleton, streamLevel]
    apply congrArg some
    apply BitVec.eq_of_getLsbD_eq
    intro i hi
    have : i = 0 := by omega
    subst this
    have h0 : F.getLsbD (31 - 31) = F.getLsbD 0 := rfl
    rw [h0]
    cases hF : F.getLsbD 0 <;> simp_all [readBit]
  rw [hlast, shiftLevels_stream] at h2
  obtain ⟨tparams, tdp, tsq, tfl, tcfg, ttab, tbuf, tpins, thist, tio⟩ := t
  simp only at h1 h2 h3 h4 h5 h6 h7 h8 h9 h10
  subst h1 h2 h3 h4 h5 h6 h7 h8 h9 h10
  unfold State.frameRead latchFrame afterWrite
  simp only [State.emit, State.drawn, State.setPlvl, frameHead, State.csPinAt, frameTrace, State.mk.injEq,
    Datapath.mk.injEq, PinMirror.mk.injEq, Surroundings.mk.injEq, true_and, and_true]
  refine ⟨?_, ?_, ?_, ?_⟩
  · simp
  · rw [if_neg (by simp)]
    exact vector_set_again _ _ _ _ _ _ _ _
  · rw [List.flatMap_map]
    simp
  · simp
end Sys2Proof.Machine
end

