-- ==== Sys2Proof/Laws/Channel.lean ====
section
/-! SUPPORT. The commands' common tests (spec/47_host_bus.md rules R198 to R200), the ENTRY word (spec/30_encoding.md rule
R86) and the channel's operations (spec/44_channel.md): what each can do, and what the two frame reads of a channel do
when the environment answers them. -/

namespace Sys2Proof.Machine

/-! ### The commands' common tests -/

theorem inIdle_idle {s : State} (h : s.sq.lc = .idle) (k : State → State) : inIdle s k = k s := by
  simp [inIdle, h]

theorem inIdle_busy {s : State} (h : s.sq.lc ≠ .idle) (k : State → State) : inIdle s k = refuse .busy s := by
  simp [inIdle, h]

/-- A channel command that passes its three tests runs its body (rules R117, R160). -/
theorem channelCommand_runs {ch : BitVec 8} {s : State} (body : Nat → State → Flow Unit) (hi : s.sq.lc = .idle)
    (hc : s.fl.claimed = true) (hn : ch.toNat < s.cfg.nch.toNat) :
    channelCommand ch body s = (body ch.toNat (accept s)).settle := by
  rw [channelCommand, inIdle_idle hi, if_neg (by simp [hc]), if_neg (by omega)]

/-! ### ENTRY words -/

theorem entryKind_reading (u : TempUnit) (p : Path) (v : BitVec 18) : entryKind (entryReading u p v) = 1 := by
  cases u <;> cases p <;>
    (apply BitVec.eq_of_getLsbD_eq; intro i hi
     simp only [entryKind, entryReading, BitVec.getLsbD_extractLsb', hi, decide_true, Bool.true_and,
       BitVec.getLsbD_or, BitVec.getLsbD_setWidth, BitVec.getLsbD_of_ge v (30 + i) (by omega), Bool.and_false,
       Bool.or_false]
     match i, hi with
     | 0, _ => rfl
     | 1, _ => rfl)

theorem entryKind_fault (f : FaultStatus) : entryKind (entryFault f) = 2 := by cases f <;> rfl

theorem entryFs_fault (f : FaultStatus) : entryFs (entryFault f) = f.code := by cases f <;> rfl

theorem entryKind_empty : entryKind entryEmpty = 0 := rfl

/-! ### What the channel's operations leave alone -/

/-- `t` differs from `s` in the datapath, CH, levels of pins, the history and the environment's answers alone. -/
structure OnlyChannel (s t : State) : Prop where
  params : t.params = s.params
  sq : t.sq = { s.sq with ch := t.sq.ch }
  fl : t.fl = s.fl
  cfg : t.cfg = s.cfg
  tab : t.tab = s.tab
  buf : t.buf = s.buf
  dir : t.pins.dir = s.pins.dir
  turns : t.io.turns = s.io.turns
  replies : t.io.replies = s.io.replies
  port : t.io.port = s.io.port
  pos : t.io.pos = s.io.pos

theorem OnlyChannel.refl (s : State) : OnlyChannel s s := by constructor <;> rfl

theorem OnlyChannel.trans {s t u : State} (h : OnlyChannel s t) (k : OnlyChannel t u) : OnlyChannel s u where
  params := k.params.trans h.params
  sq := by rw [k.sq, h.sq]
  fl := k.fl.trans h.fl
  cfg := k.cfg.trans h.cfg
  tab := k.tab.trans h.tab
  buf := k.buf.trans h.buf
  dir := k.dir.trans h.dir
  turns := k.turns.trans h.turns
  replies := k.replies.trans h.replies
  port := k.port.trans h.port
  pos := k.pos.trans h.pos

theorem OnlyFrame.toChannel {s t : State} (h : OnlyFrame s t) : OnlyChannel s t :=
  ⟨h.params, h.sq, h.fl, h.cfg, h.tab, h.buf, h.dir, h.turns, h.replies, h.port, h.pos⟩

/-- What the reference-junction result of a frame is (rule R155), group by group. -/
theorem finishRj_eq (s : State) :
    finishRj s = { s with
      dp := { s.dp with
        rjq := BitVec.ofInt 12 (rjQuantity s.dp.frame)
        val := BitVec.ofInt 18 (convert .rj s.cfg.unit (BitVec.ofInt 12 (rjQuantity s.dp.frame)).toInt)
        vscale := .rj
        vunit := s.cfg.unit
        rjres := entryReading s.cfg.unit .rj
          (BitVec.ofInt 18 (convert .rj s.cfg.unit (BitVec.ofInt 12 (rjQuantity s.dp.frame)).toInt)) } } := rfl

/-- What the thermocouple result of a frame with a fault is (rule R156). -/
theorem finishTc_fault (s : State) (h : classifyFrame s.dp.frame ≠ .none) :
    finishTc s = { s with
      dp := { s.dp with fs := classifyFrame s.dp.frame, res := entryFault (classifyFrame s.dp.frame) } } := by
  simp [finishTc, classify, h]

/-- What the thermocouple result of a frame without a fault is (rule R156). -/
theorem finishTc_reading (s : State) (h : classifyFrame s.dp.frame = .none) :
    finishTc s = { s with
      dp := { s.dp with
        fs := .none
        tcq := BitVec.ofInt 14 (tcQuantity s.dp.frame)
        val := BitVec.ofInt 18 (convert .tc s.cfg.unit (BitVec.ofInt 14 (tcQuantity s.dp.frame)).toInt)
        vscale := .tc
        vunit := s.cfg.unit
        res := entryReading s.cfg.unit .tc
          (BitVec.ofInt 18 (convert .tc s.cfg.unit (BitVec.ofInt 14 (tcQuantity s.dp.frame)).toInt)) } } := by
  simp [finishTc, classify, h, toUnit, tcField, pathQuantity]

theorem onlyChannel_finishRj (s : State) : OnlyChannel s (finishRj s) := by constructor <;> rfl

theorem onlyChannel_finishTc (s : State) : OnlyChannel s (finishTc s) := by
  by_cases h : classifyFrame s.dp.frame = .none
  · rw [finishTc_reading s h]; constructor <;> rfl
  · rw [finishTc_fault s h]; constructor <;> rfl

/-- RES after GET's own part is a Reading or a FaultMarker, the latter exactly when the frame has its fault flag set. -/
theorem faulted_finishTc (s : State) : (finishTc s).faulted = decide (classifyFrame s.dp.frame ≠ .none) := by
  unfold State.faulted
  by_cases h : classifyFrame s.dp.frame = .none
  · rw [finishTc_reading s h]
    simp [entryKind_reading, h]
  · rw [finishTc_fault s h]
    simp [entryKind_fault, h]

/-- The classifier answers None exactly when bit 16 of the frame is clear (rule R140). -/
theorem classifyFrame_eq_none (F : Word32) : classifyFrame F = .none ↔ F.getLsbD 16 = false := by
  unfold classifyFrame
  cases F.getLsbD 16 <;> cases F.getLsbD 0 <;> cases F.getLsbD 1 <;> cases F.getLsbD 2 <;> simp

/-- What the two frame reads of a channel can do (rules R155 to R157, R212): whether they complete or raise. -/
theorem readReading_spec (ch : Nat) (s : State) :
    (readReading ch s).Post (fun _ t => OnlyChannel s t) (fun x t => x = .transportFailure ∧ OnlyChannel s t) := by
  have hf : ∀ u, (readFrame ch u).Post (fun _ t => OnlyChannel u t)
      (fun x t => x = .transportFailure ∧ OnlyChannel u t) := by
    intro u
    have h1 := onlyFrame_readFrame ch u
    have h2 := readFrame_raises ch u
    cases hr : readFrame ch u with
    | done a t => rw [hr] at h1; exact h1.toChannel
    | raised x t => rw [hr] at h1 h2; exact ⟨h2, h1.toChannel⟩
  have step : ∀ (f : State → State) (u : State), (∀ v, OnlyChannel v (f v)) → OnlyChannel s u →
      ((readFrame ch u).andThen fun _ v => Flow.done () (f v)).Post (fun _ t => OnlyChannel s t)
        (fun x t => x = .transportFailure ∧ OnlyChannel s t) := by
    intro f u hfu hu
    refine Flow.Post.andThen (P := fun _ t => OnlyChannel s t)
      ((hf u).mono (fun _ _ h => hu.trans h) (fun _ _ h => ⟨h.1, hu.trans h.2⟩)) fun _ v hv => ?_
    exact hv.trans (hfu v)
  exact Flow.Post.andThen (P := fun _ t => OnlyChannel s t) (step _ s onlyChannel_finishRj (.refl s)) fun _ u hu =>
    step _ u onlyChannel_finishTc hu

/-! ### The two frame reads when the environment answers them -/

theorem answersFrame_of_drawn {s t : State} {n m : Nat} {F : Word32} (ha : t.io.answers = s.io.answers.drop n)
    (hd : t.io.drawn = s.io.drawn + n) (h : s.answersFrame (n + m) F) : t.answersFrame m F := by
  obtain ⟨h1, h2⟩ := h
  refine ⟨fun k hk => ?_, fun k hk => ?_⟩
  · rw [answerAt_of_drawn ha hd]
    have := h1 k hk
    rwa [Nat.add_assoc] at this
  · rw [answerAt_of_drawn ha hd]
    have := h2 k hk
    rwa [Nat.add_assoc] at this

/-- What a channel's visit reads when the environment answers `F`, then `G` (rule R157). -/
theorem readReading_answered (ch : Nat) (F G : Word32) (s : State) (hF : s.answersFrame 0 F)
    (hG : s.answersFrame 98 G) :
    readReading ch s = .done () (finishTc ((finishRj (s.frameRead ch F)).frameRead ch G)) := by
  have hG' : (finishRj (s.frameRead ch F)).answersFrame 0 G :=
    answersFrame_of_drawn (n := 98) (by rw [finishRj_eq]; rfl) (by rw [finishRj_eq]; rfl) hG
  unfold readReading getRj getTc
  rw [readFrame_answered ch F s hF, Flow.andThen_done, Flow.andThen_done,
    readFrame_answered ch G _ hG', Flow.andThen_done]

end Sys2Proof.Machine
end

