-- ==== Sys2Proof/Laws/Claim.lean ====
section
/-! SUPPORT. The claim of the pins (spec/40_transport.md rule R113): what it can do, and what it does when no pin
transaction fails. -/

namespace Sys2Proof.Machine

/-! ### What the claim can do, whether it completes or raises -/

theorem onlyPins_pinSetDir (p : PinId) (d : Dir) (s : State) :
    (pinSetDir p d s).Post (fun _ t => OnlyPins s t) (fun x t => x = .transportFailure ∧ OnlyPins s t) := by
  rw [pinSetDir_eq]
  split
  · exact onlyPins_afterSetDir p d s
  · exact ⟨rfl, onlyPins_drawn_emit s _⟩

theorem onlyPins_pinWrite (p : PinId) (l : Level) (s : State) :
    (pinWrite p l s).Post (fun _ t => OnlyPins s t) (fun x t => x = .transportFailure ∧ OnlyPins s t) := by
  rw [pinWrite_eq]
  split
  · exact onlyPins_afterWrite p l s
  · exact ⟨rfl, onlyPins_drawn_emit s _⟩

/-- Two operations in sequence that each change the pins alone. -/
theorem onlyPins_andThen {α β : Type} {s : State} {m : Flow α} {k : α → State → Flow β}
    (hm : m.Post (fun _ t => OnlyPins s t) (fun x t => x = .transportFailure ∧ OnlyPins s t))
    (hk : ∀ a t, (k a t).Post (fun _ u => OnlyPins t u) (fun x u => x = .transportFailure ∧ OnlyPins t u)) :
    (m.andThen k).Post (fun _ t => OnlyPins s t) (fun x t => x = .transportFailure ∧ OnlyPins s t) := by
  cases m with
  | done a t => exact (hk a t).mono (fun _ _ h => hm.trans h) (fun _ _ h => ⟨h.1, hm.trans h.2⟩)
  | raised x t => exact hm

theorem onlyPins_claimSelects (ps : List PinId) (s : State) :
    (claimSelects ps s).Post (fun _ t => OnlyPins s t) (fun x t => x = .transportFailure ∧ OnlyPins s t) := by
  induction ps generalizing s with
  | nil => exact .refl s
  | cons p ps ih =>
    exact onlyPins_andThen (onlyPins_pinSetDir _ _ _) fun _ t =>
      onlyPins_andThen (onlyPins_pinWrite _ _ t) fun _ u => ih u

/-- What the claim can do (rules R113, R212): it changes the pins, and sets CLAIMED when it completes; nothing but
TransportFailure is raised. -/
theorem claimPins_spec (s : State) :
    (claimPins s).Post (fun _ t => ∃ u, OnlyPins s u ∧ t = { u with fl.claimed := true })
      (fun x t => x = .transportFailure ∧ OnlyPins s t) := by
  have h := onlyPins_andThen (k := fun _ t => (pinSetDir t.cfg.clkPin .output t).andThen fun _ t =>
      (pinWrite t.cfg.clkPin .high t).andThen fun _ t => pinSetDir t.cfg.dataPin .input t)
    (onlyPins_claimSelects s.csPins s) fun _ t =>
      onlyPins_andThen (onlyPins_pinSetDir _ _ t) fun _ u =>
        onlyPins_andThen (onlyPins_pinWrite _ _ u) fun _ v => onlyPins_pinSetDir _ _ v
  have e : claimPins s =
      ((claimSelects s.csPins s).andThen fun _ t => (pinSetDir t.cfg.clkPin .output t).andThen fun _ t =>
        (pinWrite t.cfg.clkPin .high t).andThen fun _ t => pinSetDir t.cfg.dataPin .input t).andThen
        fun _ t => .done () { t with fl.claimed := true } := by
    simp only [claimPins, Flow.andThen_assoc]
  rw [e]
  exact h.andThen fun _ t ht => ⟨t, ht, rfl⟩

/-! ### The claim when no transaction fails -/

/-- The state the chip-select loop leaves. -/
def afterSelects : List PinId → State → State
  | [], s => s
  | p :: ps, s => afterSelects ps (afterWrite p .high (afterSetDir p .output s))

/-- Which of the answers ahead are still ahead after `n` of them. -/
theorem allOk_of_drawn {s t : State} {n m : Nat} (ha : t.io.answers = s.io.answers.drop n)
    (hd : t.io.drawn = s.io.drawn + n) (h : s.allOk 0 (n + m)) : t.allOk 0 m := by
  intro k hk
  rw [answerAt_of_drawn ha hd]
  have := h (n + (0 + k)) (by omega)
  simpa using this

theorem setDir_write_ok (p : PinId) (d : Dir) (l : Level) (s : State) (k : Unit → State → Flow Unit)
    (h : s.allOk 0 2) :
    ((pinSetDir p d s).andThen fun _ s => (pinWrite p l s).andThen k) =
      k () (afterWrite p l (afterSetDir p d s)) := by
  have a0 : s.nextAnswer.ok = true := by rw [nextAnswer_eq_answerAt]; exact h 0 (by omega)
  have a1 : (afterSetDir p d s).nextAnswer.ok = true := by
    rw [nextAnswer_of_drawn (s := s) (n := 1) (by simp [afterSetDir]) (by simp [afterSetDir])]
    have := h 1 (by omega)
    simpa using this
  rw [pinSetDir_ok _ _ _ a0, Flow.andThen_done, pinWrite_ok _ _ _ a1, Flow.andThen_done]

theorem claimSelects_ok (ps : List PinId) (s : State) (h : s.allOk 0 (2 * ps.length)) :
    claimSelects ps s = .done () (afterSelects ps s) := by
  induction ps generalizing s with
  | nil => rfl
  | cons p ps ih =>
    rw [claimSelects, setDir_write_ok _ _ _ _ _ (fun k hk => h k (by simp; omega)), afterSelects]
    apply ih
    apply allOk_of_drawn (s := s) (n := 2)
    · simp [afterWrite, afterSetDir]
    · simp [afterWrite, afterSetDir]
    · have e : 2 * (p :: ps).length = 2 + 2 * ps.length := by simp; omega
      rw [e] at h
      exact h

theorem onlyPins_afterSelects (ps : List PinId) (s : State) : OnlyPins s (afterSelects ps s) := by
  induction ps generalizing s with
  | nil => exact .refl s
  | cons p ps ih => exact ((onlyPins_afterSetDir _ _ s).trans (onlyPins_afterWrite _ _ _)).trans (ih _)

theorem pdir_afterSetDir (p q : PinId) (d : Dir) (s : State) :
    (afterSetDir p d s).pdir q = if q = p then some d else s.pdir q := by
  unfold afterSetDir
  rw [pdir_setPdir]
  rfl

theorem plvl_afterSetDir (p q : PinId) (d : Dir) (s : State) : (afterSetDir p d s).plvl q = s.plvl q := rfl

theorem pdir_afterWrite (p q : PinId) (l : Level) (s : State) : (afterWrite p l s).pdir q = s.pdir q := rfl

theorem plvl_afterWrite (p q : PinId) (l : Level) (s : State) :
    (afterWrite p l s).plvl q = if q = p then some l else s.plvl q := by
  unfold afterWrite
  rw [plvl_setPlvl]
  rfl

theorem pdir_afterSelects (ps : List PinId) (s : State) (q : PinId) :
    (afterSelects ps s).pdir q = if q ∈ ps then some .output else s.pdir q := by
  induction ps generalizing s with
  | nil => rfl
  | cons p ps ih =>
    rw [afterSelects, ih, pdir_afterWrite, pdir_afterSetDir]
    by_cases hq : q = p <;> simp [hq]

theorem plvl_afterSelects (ps : List PinId) (s : State) (q : PinId) :
    (afterSelects ps s).plvl q = if q ∈ ps then some .high else s.plvl q := by
  induction ps generalizing s with
  | nil => rfl
  | cons p ps ih =>
    rw [afterSelects, ih, plvl_afterWrite, plvl_afterSetDir]
    by_cases hq : q = p <;> simp [hq]

theorem history_afterSelects (ps : List PinId) (s : State) :
    (afterSelects ps s).history =
      (ps.flatMap fun p => [Event.pin (.setDir .output) p .ok, .pin (.write .high) p .ok]).reverse ++ s.history := by
  induction ps generalizing s with
  | nil => rfl
  | cons p ps ih =>
    rw [afterSelects, ih]
    simp [afterWrite, afterSetDir]

theorem io_afterSelects (ps : List PinId) (s : State) :
    (afterSelects ps s).io = (s.drawnBy (2 * ps.length)).io := by
  induction ps generalizing s with
  | nil => simp [afterSelects, State.drawnBy]
  | cons p ps ih =>
    rw [afterSelects, ih]
    simp only [State.drawnBy, afterWrite, afterSetDir, setPlvl_io, setPdir_io, emit_io, drawn_io, List.drop_drop,
      List.length_cons, Surroundings.mk.injEq, true_and, and_true]
    refine ⟨?_, ?_⟩
    · congr 1
      omega
    · omega

/-- The state a claim leaves in which no transaction fails (rule R113). -/
def afterClaim (s : State) : State :=
  { afterSetDir s.cfg.dataPin .input
      (afterWrite s.cfg.clkPin .high (afterSetDir s.cfg.clkPin .output (afterSelects s.csPins s))) with
    fl.claimed := true }

theorem length_csPins (s : State) : s.csPins.length = s.cfg.nch.toNat := by simp [State.csPins]

theorem claimPins_ok (s : State) (h : s.allOk 0 (2 * s.cfg.nch.toNat + 3)) :
    claimPins s = .done () (afterClaim s) := by
  have hs : s.allOk 0 (2 * s.csPins.length) := fun k hk => h k (by rw [length_csPins] at hk; omega)
  have hio := io_afterSelects s.csPins s
  have hcfg := (onlyPins_afterSelects s.csPins s).cfg
  have hfl := (onlyPins_afterSelects s.csPins s).fl
  have h3 : (afterSelects s.csPins s).allOk 0 3 := by
    apply allOk_of_drawn (s := s) (n := 2 * s.csPins.length)
    · rw [hio]; rfl
    · rw [hio]; rfl
    · rw [length_csPins]; exact h
  unfold claimPins afterClaim
  rw [claimSelects_ok _ _ hs, Flow.andThen_done]
  generalize afterSelects s.csPins s = t at *
  have a0 : t.nextAnswer.ok = true := by rw [nextAnswer_eq_answerAt]; exact h3 0 (by omega)
  have a1 : (afterSetDir t.cfg.clkPin .output t).nextAnswer.ok = true := by
    rw [nextAnswer_of_drawn (s := t) (n := 1) (by simp [afterSetDir]) (by simp [afterSetDir])]
    have := h3 1 (by omega)
    simpa using this
  rw [pinSetDir_ok _ _ _ a0, Flow.andThen_done]
  have c1 : (afterSetDir t.cfg.clkPin .output t).cfg = s.cfg := by simp [afterSetDir, hcfg]
  have a2 : (afterWrite t.cfg.clkPin .high (afterSetDir t.cfg.clkPin .output t)).nextAnswer.ok = true := by
    rw [nextAnswer_of_drawn (s := t) (n := 2) (by simp [afterWrite, afterSetDir]) (by simp [afterWrite, afterSetDir])]
    have := h3 2 (by omega)
    simpa using this
  rw [hcfg] at a1 a2 c1 ⊢
  generalize afterSetDir s.cfg.clkPin .output t = u at *
  rw [c1, pinWrite_ok _ _ _ a1, Flow.andThen_done]
  have c2 : (afterWrite s.cfg.clkPin .high u).cfg = s.cfg := by simp [afterWrite, c1]
  generalize afterWrite s.cfg.clkPin .high u = v at *
  rw [c2, pinSetDir_ok _ _ _ a2, Flow.andThen_done]

end Sys2Proof.Machine
end

