-- ==== Sys2Proof/Laws/Tables.lean ====
section
/-! SUPPORT. The tables and the time series buffer: reads after writes, and what one column write can do
(spec/20_memory.md rule R66, spec/45_sampler_buffer.md rule R169). -/

namespace Sys2Proof.Machine

section Tables
variable {α : Type}

@[simp] theorem tabGet_tabSet_self (d : α) (t : Vector α 32) (i : Nat) (a : α) (h : i < 32) :
    tabGet d (tabSet t i a) i = a := by
  simp [tabGet, tabSet, h]

theorem tabGet_tabSet_ne (d : α) (t : Vector α 32) (i j : Nat) (a : α) (h : i ≠ j) :
    tabGet d (tabSet t i a) j = tabGet d t j := by
  unfold tabGet tabSet
  split
  · split
    · simp [h]
    · rfl
  · rfl

/-- A table read after a table write, at any two indices. -/
theorem tabGet_tabSet (d : α) (t : Vector α 32) (i j : Nat) (a : α) :
    tabGet d (tabSet t i a) j = if i = j ∧ j < 32 then a else tabGet d t j := by
  by_cases h : i = j
  · subst h
    by_cases hi : i < 32
    · simp [hi]
    · simp [hi, tabGet]
  · simp [h, tabGet_tabSet_ne]

@[simp] theorem tabGet_replicate (d a : α) (i : Nat) (h : i < 32) :
    tabGet d (Vector.replicate 32 a) i = a := by
  simp [tabGet, h]

theorem tabGet_replicate_default (d : α) (i : Nat) : tabGet d (Vector.replicate 32 d) i = d := by
  unfold tabGet
  split <;> simp

/-- The slots a run of writes of one value over the first `n` indices leaves. -/
theorem tabGet_fill (d a : α) (t : Vector α 32) (n i : Nat) :
    tabGet d ((List.range n).foldl (fun t j => tabSet t j a) t) i = if i < n ∧ i < 32 then a else tabGet d t i := by
  induction n with
  | zero => simp
  | succ n ih =>
    rw [List.range_succ, List.foldl_append]
    simp only [List.foldl_cons, List.foldl_nil]
    rw [tabGet_tabSet, ih]
    by_cases h : n = i
    · subst h
      by_cases h32 : n < 32 <;> simp [h32]
    · have : i ≤ n ↔ i < n := by omega
      simp [h, Nat.lt_succ_iff, this]

/-- Every slot of a table is a value `tabGet` reads. -/
theorem mem_toList_iff_tabGet (d : α) (t : Vector α 32) (a : α) :
    a ∈ t.toList ↔ ∃ i, i < 32 ∧ tabGet d t i = a := by
  simp only [Vector.mem_toList_iff, Vector.mem_iff_getElem]
  constructor
  · rintro ⟨i, h, rfl⟩
    exact ⟨i, h, by simp [tabGet, h]⟩
  · rintro ⟨i, h, rfl⟩
    exact ⟨i, h, by simp [tabGet, h]⟩

end Tables

/-! ### The buffer -/

theorem read_seqWrite (l : List Word32) (t k : Nat) (e : Word32) :
    (seqWrite l t e)[k]?.getD entryEmpty = if k = t then e else l[k]?.getD entryEmpty := by
  unfold seqWrite
  rw [List.getElem?_set]
  by_cases h : t = k
  · subst h
    have : t < l.length + (t + 1 - l.length) := by omega
    simp [this]
  · have h' : ¬ k = t := fun e => h e.symm
    simp only [h, h', if_false, List.rightpad]
    rw [List.getElem?_append]
    split
    · rfl
    · rename_i hk
      rw [List.getElem?_replicate, List.getElem?_eq_none (l := l) (by omega)]
      split <;> rfl

@[simp] theorem length_seqWrite (l : List Word32) (t : Nat) (e : Word32) :
    (seqWrite l t e).length = max l.length (t + 1) := by
  simp [seqWrite, List.rightpad]
  omega

/-- A write at the end of a sequence appends. -/
theorem seqWrite_length (l : List Word32) (e : Word32) : seqWrite l l.length e = l ++ [e] := by
  simp [seqWrite, List.rightpad]

/-- A write over the last entry replaces it. -/
theorem seqWrite_last (l : List Word32) (e f : Word32) : seqWrite (l ++ [f]) l.length e = l ++ [e] := by
  simp [seqWrite, List.rightpad]

theorem seqAt_memWrite (ch t c : Nat) (e : Word32) (s : State) :
    (memWrite ch t e s).seqAt c = if ch = c ∧ c < 32 then seqWrite (s.seqAt c) t e else s.seqAt c := by
  unfold State.seqAt
  rw [memWrite_buf]
  simp only
  rw [tabGet_tabSet]
  by_cases h : ch = c
  · subst h
    rfl
  · simp [h]

/-- MemRead after MemWrite (rule R66): the entry written, and every other entry as before. -/
theorem memRead_memWrite (ch t c k : Nat) (e : Word32) (s : State) (h : ch < 32) :
    memRead (memWrite ch t e s) c k = if c = ch ∧ k = t then e else memRead s c k := by
  unfold memRead
  rw [seqAt_memWrite]
  by_cases hc : ch = c
  · subst hc
    simp [h, read_seqWrite]
  · have hc' : ¬ c = ch := fun e => hc e.symm
    simp [hc, hc']

/-- What a column write can do: BUF of the channels listed, nothing else. -/
theorem writeColumn_eq (f : Nat → Word32) (t : Nat) (chs : List Nat) (s : State) :
    writeColumn f t chs s = { s with buf.seqs := (writeColumn f t chs s).buf.seqs } := by
  induction chs generalizing s with
  | nil => rfl
  | cons ch chs ih =>
    rw [writeColumn, ih]
    rfl

/-- The sequences after one column write. -/
theorem seqAt_writeColumn (f : Nat → Word32) (t c : Nat) (chs : List Nat) (s : State) (hd : chs.Nodup)
    (h : ∀ ch ∈ chs, ch < 32) :
    (writeColumn f t chs s).seqAt c = if c ∈ chs then seqWrite (s.seqAt c) t (f c) else s.seqAt c := by
  induction chs generalizing s with
  | nil => simp [writeColumn]
  | cons ch chs ih =>
    have hd' := List.nodup_cons.mp hd
    rw [writeColumn, ih _ hd'.2 (fun x hx => h x (List.mem_cons_of_mem _ hx)), seqAt_memWrite]
    by_cases hc : ch = c
    · subst hc
      have h32 : ch < 32 := h ch (by simp)
      simp [hd'.1, h32]
    · have hc' : ¬ c = ch := fun e => hc e.symm
      simp [hc, hc']

end Sys2Proof.Machine
end

