-- ==== Sys2Proof/Laws/HostBus.lean ====
section
/-! SUPPORT. The host bus (spec/10_state.md rule R45, spec/47_host_bus.md rules R196 to R198) and the fetch: what a
register write can do, the numbers of the table windows, the words the command decoder answers, and the step unfolded. -/

namespace Sys2Proof.Machine

/-! ### Register numbers -/

theorem regOf_scalar (nchMax : Nat) (rn : RegNum) (h : rn.toNat < 0x20) : regOf nchMax rn = scalarReg rn.toNat := by
  simp [regOf, h]

theorem regOf_csPin (nchMax : Nat) (rn : RegNum) (h1 : 0x20 ≤ rn.toNat) (h2 : rn.toNat < 0x40) :
    regOf nchMax rn = tableReg nchMax .csPin (rn.toNat - 0x20) := by
  simp [regOf, h2, show ¬ rn.toNat < 0x20 by omega]

theorem regOf_stage (nchMax : Nat) (rn : RegNum) (h1 : 0x40 ≤ rn.toNat) (h2 : rn.toNat < 0x60) :
    regOf nchMax rn = tableReg nchMax .stage (rn.toNat - 0x40) := by
  simp [regOf, h2, show ¬ rn.toNat < 0x20 by omega, show ¬ rn.toNat < 0x40 by omega]

theorem regOf_rjStage (nchMax : Nat) (rn : RegNum) (h1 : 0x60 ≤ rn.toNat) (h2 : rn.toNat < 0x80) :
    regOf nchMax rn = tableReg nchMax .rjStage (rn.toNat - 0x60) := by
  simp [regOf, h2, show ¬ rn.toNat < 0x20 by omega, show ¬ rn.toNat < 0x40 by omega, show ¬ rn.toNat < 0x60 by omega]

theorem regOf_qstat (nchMax : Nat) (rn : RegNum) (h1 : 0x80 ≤ rn.toNat) (h2 : rn.toNat < 0xA0) :
    regOf nchMax rn = tableReg nchMax .qstat (rn.toNat - 0x80) := by
  simp [regOf, h2, show ¬ rn.toNat < 0x20 by omega, show ¬ rn.toNat < 0x40 by omega, show ¬ rn.toNat < 0x60 by omega,
    show ¬ rn.toNat < 0x80 by omega]

theorem regOf_above (nchMax : Nat) (rn : RegNum) (h : 0xA0 ≤ rn.toNat) : regOf nchMax rn = none := by
  simp [regOf, show ¬ rn.toNat < 0x20 by omega, show ¬ rn.toNat < 0x40 by omega, show ¬ rn.toNat < 0x60 by omega,
    show ¬ rn.toNat < 0x80 by omega, show ¬ rn.toNat < 0xA0 by omega]

/-! ### Register writes -/

/-- `t` differs from `s` in the configuration, FRAME, ERR and the window registers alone. -/
structure OnlyConfig (s t : State) : Prop where
  params : t.params = s.params
  dp : t.dp = { s.dp with frame := t.dp.frame }
  sq : t.sq = s.sq
  fl : t.fl = { s.fl with err := t.fl.err }
  tab : t.tab = s.tab
  buf : t.buf = { s.buf with selCh := t.buf.selCh, selTick := t.buf.selTick }
  pins : t.pins = s.pins
  history : t.history = s.history
  io : t.io = s.io

theorem onlyConfig_storeReg (r : Reg) (w : Word32) (s : State) : OnlyConfig s (storeReg r w s) := by
  cases r <;> constructor <;> rfl

/-- What a register write can do (rule R197): it is refused, and ERR alone changes, or the register is stored. -/
theorem writeReg_cases (r : Reg) (width : Nat) (w : Word32) (s : State) :
    (∃ e, writeReg r width w s = refuse e s) ∨ writeReg r width w s = accept (storeReg r w s) := by
  unfold writeReg
  split
  · split
    · exact .inl ⟨_, rfl⟩
    · exact .inr rfl
  · split
    · exact .inl ⟨_, rfl⟩
    · split
      · exact .inl ⟨_, rfl⟩
      · split
        · exact .inl ⟨_, rfl⟩
        · exact .inr rfl

theorem onlyConfig_writeReg (r : Reg) (width : Nat) (w : Word32) (s : State) : OnlyConfig s (writeReg r width w s) := by
  rcases writeReg_cases r width w s with ⟨e, h⟩ | h
  · rw [h]; constructor <;> rfl
  · have k := onlyConfig_storeReg r w s
    rw [h]
    exact ⟨k.params, k.dp, k.sq, by rw [show (accept (storeReg r w s)).fl = { (storeReg r w s).fl with err := .none } from
      rfl, k.fl], k.tab, k.buf, k.pins, k.history, k.io⟩

/-- Every register write answers a next state that differs in the configuration, FRAME, ERR and the window alone. -/
theorem configWrite_spec (rn : RegNum) (w : Word32) (s : State) :
    ∃ t, configWrite rn w s = .next t ∧ OnlyConfig s t := by
  unfold configWrite
  split
  · exact ⟨_, rfl, by constructor <;> rfl⟩
  · split
    · exact ⟨_, rfl, by constructor <;> rfl⟩
    · exact ⟨_, rfl, onlyConfig_writeReg _ _ _ _⟩

/-! ### The command decoder -/

/-- The operations the CMD format has rows for (rule R83). -/
def isCommand : Instr → Bool
  | .claim | .release | .rdframe _ | .tcfield | .rjfield | .classify | .tounit _ _ | .getrj _ | .get _ | .rdreading _
  | .start | .intr => true
  | .setdir _ _ | .write _ _ | .read _ | .phBoundary | .phSample | .phAppend | .phTelem | .phTick | .phSleep | .phHalt
  | .regrd _ | .regwr _ _ => false

theorem plainCmd_eq_some {w : BitVec 16} {i j : Instr} : plainCmd w i = some j → j = i := by
  unfold plainCmd
  split
  · intro h; exact (Option.some.inj h).symm
  · intro h; cases h

theorem indexedCmd_eq_some {w : BitVec 16} {i : BitVec 8 → Instr} {j : Instr} :
    indexedCmd w i = some j → j = i (cmdIdx w) := by
  unfold indexedCmd
  split
  · intro h; exact (Option.some.inj h).symm
  · intro h; cases h

/-- The command decoder answers commands only (rule R83). -/
theorem decodeCmd_isCommand (w : BitVec 16) (i : Instr) (h : decodeCmd w = some i) : isCommand i = true := by
  unfold decodeCmd at h
  split at h
  all_goals first
    | (rw [plainCmd_eq_some h]; rfl)
    | (rw [indexedCmd_eq_some h]; rfl)
    | (unfold tounitCmd at h; split at h <;> first | (cases h; rfl) | cases h)
    | cases h

/-! ### The conditions of rule R226 -/

/-- Where an ENTRY word can stand (rules R86, R226): RES, RJRES, a slot of the two staging tables, the buffer. -/
theorem mem_entries (s : State) (e : Word32) :
    e ∈ s.entries ↔ e = s.dp.res ∨ e = s.dp.rjres ∨ (∃ i, i < 32 ∧ (e = s.stageAt i ∨ e = s.rjStageAt i)) ∨
      ∃ ch, ch < 32 ∧ e ∈ s.seqAt ch := by
  have hseq : e ∈ s.buf.seqs.toList.flatten ↔ ∃ ch, ch < 32 ∧ e ∈ s.seqAt ch := by
    simp only [List.mem_flatten, mem_toList_iff_tabGet [], State.seqAt]
    constructor
    · rintro ⟨_, ⟨i, hi, rfl⟩, he⟩; exact ⟨i, hi, he⟩
    · rintro ⟨i, hi, he⟩; exact ⟨_, ⟨i, hi, rfl⟩, he⟩
  have htab : (e ∈ s.tab.stage.toList ∨ e ∈ s.tab.rjStage.toList) ↔
      ∃ i, i < 32 ∧ (e = s.stageAt i ∨ e = s.rjStageAt i) := by
    simp only [mem_toList_iff_tabGet entryEmpty, State.stageAt, State.rjStageAt]
    constructor
    · rintro (⟨i, hi, h⟩ | ⟨i, hi, h⟩)
      · exact ⟨i, hi, .inl h.symm⟩
      · exact ⟨i, hi, .inr h.symm⟩
    · rintro ⟨i, hi, h | h⟩
      · exact .inl ⟨i, hi, h.symm⟩
      · exact .inr ⟨i, hi, h.symm⟩
  rw [← hseq, ← htab]
  simp [State.entries, or_assoc]

/-- A state meets no condition of rule R226 exactly when each of the six conditions fails. -/
theorem bugOf_eq_none (s : State) :
    bugOf s = none ↔ ¬ (s.sq.lc = .running ∧ s.fl.claimed = false) ∧ s.tab.stageLen.toNat ≤ s.cfg.nch.toNat ∧
      s.buf.len.toNat ≤ s.params.bufDepth ∧ s.sq.tick.toNat ≤ s.cfg.maxTicks.toNat ∧
      (∀ e ∈ s.entries, entryKind e ≠ 3) ∧ s.sq.phase ≠ 7 := by
  have hk : (s.entries.any fun e => entryKind e == 3) = true ↔ ¬ ∀ e ∈ s.entries, entryKind e ≠ 3 := by
    simp
  unfold bugOf
  simp only [hk, ← Nat.not_lt]
  split <;> rename_i h1
  · exact iff_of_false nofun fun h => h.1 h1
  split <;> rename_i h2
  · exact iff_of_false nofun fun h => h.2.1 h2
  split <;> rename_i h3
  · exact iff_of_false nofun fun h => h.2.2.1 h3
  split <;> rename_i h4
  · exact iff_of_false nofun fun h => h.2.2.2.1 h4
  split <;> rename_i h5
  · exact iff_of_false nofun fun h => h5 h.2.2.2.2.1
  split <;> rename_i h6
  · exact iff_of_false nofun fun h => h.2.2.2.2.2 h6
  · exact iff_of_true rfl ⟨h1, h2, h3, h4, Classical.not_not.mp h5, h6⟩

/-- The same with the places of an ENTRY word written out: the state meets no condition the rule lists. -/
theorem bugOf_eq_none_iff_not (s : State) :
    bugOf s = none ↔ ¬ (s.sq.phase = 7 ∨ (s.sq.lc = .running ∧ s.fl.claimed = false) ∨
      (∃ e, entryKind e = 3 ∧ (e = s.dp.res ∨ e = s.dp.rjres ∨ (∃ i, i < 32 ∧ (e = s.stageAt i ∨ e = s.rjStageAt i)) ∨
        ∃ ch, ch < 32 ∧ e ∈ s.seqAt ch)) ∨
      s.cfg.nch.toNat < s.tab.stageLen.toNat ∨ s.params.bufDepth < s.buf.len.toNat ∨
      s.cfg.maxTicks.toNat < s.sq.tick.toNat) := by
  simp only [bugOf_eq_none, ← mem_entries, not_or, Nat.not_lt, not_exists, not_and']
  constructor
  · rintro ⟨h1, h2, h3, h4, h5, h6⟩; exact ⟨h6, h1, h5, h2, h3, h4⟩
  · rintro ⟨h6, h1, h5, h2, h3, h4⟩; exact ⟨h1, h2, h3, h4, h5, h6⟩

/-! ### The step -/

theorem step_of_bug {s : State} {f : Fault} (h : bugOf s = some f) : step s = .fault f := by simp [step, h]

theorem step_of_run {s t : State} {w : Encoded} {i : Instr} (h : bugOf s = none) (ha : nextAction s = .run w t)
    (hd : decode w = some i) : step s = exec i t := by simp [step, h, ha, hd]

theorem step_of_micro {s t : State} (h : bugOf s = none) (ha : nextAction s = .micro t) :
    step s = .next (sampleMicro t) := by simp [step, h, ha]

theorem step_of_rest {s t : State} (h : bugOf s = none) (ha : nextAction s = .rest t) : step s = .next t := by
  simp [step, h, ha]

theorem step_of_reset {s t : State} (h : bugOf s = none) (ha : nextAction s = .reset t) :
    step s = .next (resetInput t) := by simp [step, h, ha]

/-- What a core's turn can be. -/
theorem coreTurn_cases (fine : Bool) (s : State) (h : s.io.port = 0) :
    (s.sq.lc ≠ .running ∧ coreTurn fine s = .rest s) ∨
    (s.sq.lc = .running ∧ s.io.pos.isSome = true ∧ coreTurn fine s = .micro s) ∨
    (s.sq.lc = .running ∧ s.io.pos = none ∧ s.sq.phase = 1 ∧ coreTurn fine s = .micro s) ∨
    (s.sq.lc = .running ∧ s.io.pos = none ∧ coreTurn fine s = .run (.seq s.sq.phase) s) := by
  have hp : ¬ pinPop s.io.port ≠ 0 := by rw [h]; decide
  unfold coreTurn
  rw [if_neg hp]
  by_cases hr : s.sq.lc = .running
  · rw [if_neg (by simp [hr])]
    cases hpos : s.io.pos with
    | some p => exact .inr (.inl ⟨hr, rfl, by simp⟩)
    | none =>
      by_cases hf : fine = true ∧ s.sq.phase = 1
      · exact .inr (.inr (.inl ⟨hr, rfl, hf.2, by simp [hf]⟩))
      · exact .inr (.inr (.inr ⟨hr, rfl, by rw [if_neg (by simp), if_neg hf]⟩))
  · exact .inl ⟨hr, by simp [hr]⟩

end Sys2Proof.Machine
end

