-- ==== Sys2Proof/Laws/PerInstr.lean ====
section
/-! SUPPORT. A statement made of every operation, one lemma per constructor: its encoding agrees with its row of the
opcode table (spec/30_encoding.md rules R83, R85, R88, R89). -/

namespace Sys2Proof.Laws.FixedBits

/-- A run of bits a row of the opcode table fixes. -/
structure Field where
  hi : Nat
  lo : Nat
  value : Nat
deriving DecidableEq, Repr

/-- What a row of the opcode table fixes: the width of its format and the bits that select the operation. -/
structure Row where
  width : Nat
  fixed : List Field
deriving DecidableEq, Repr

/-- The row of an operation. -/
def row : Instr → Row
  | .claim => ⟨16, [⟨15, 0, 0x800⟩]⟩
  | .release => ⟨16, [⟨15, 0, 0x1000⟩]⟩
  | .rdframe _ => ⟨16, [⟨15, 8, 0x18⟩]⟩
  | .tcfield => ⟨16, [⟨15, 0, 0x2000⟩]⟩
  | .rjfield => ⟨16, [⟨15, 0, 0x2800⟩]⟩
  | .classify => ⟨16, [⟨15, 0, 0x3000⟩]⟩
  | .tounit _ _ => ⟨16, [⟨7, 0, 0x0⟩, ⟨15, 11, 0x7⟩]⟩
  | .getrj _ => ⟨16, [⟨15, 8, 0x40⟩]⟩
  | .get _ => ⟨16, [⟨15, 8, 0x48⟩]⟩
  | .rdreading _ => ⟨16, [⟨15, 8, 0x50⟩]⟩
  | .start => ⟨16, [⟨15, 0, 0x5800⟩]⟩
  | .intr => ⟨16, [⟨15, 0, 0x6000⟩]⟩
  | .setdir _ _ => ⟨11, [⟨10, 9, 0x1⟩]⟩
  | .write _ _ => ⟨11, [⟨10, 9, 0x2⟩]⟩
  | .read _ => ⟨11, [⟨10, 8, 0x6⟩]⟩
  | .phBoundary => ⟨3, [⟨2, 0, 0x0⟩]⟩
  | .phSample => ⟨3, [⟨2, 0, 0x1⟩]⟩
  | .phAppend => ⟨3, [⟨2, 0, 0x2⟩]⟩
  | .phTelem => ⟨3, [⟨2, 0, 0x3⟩]⟩
  | .phTick => ⟨3, [⟨2, 0, 0x4⟩]⟩
  | .phSleep => ⟨3, [⟨2, 0, 0x5⟩]⟩
  | .phHalt => ⟨3, [⟨2, 0, 0x6⟩]⟩
  | .regrd _ => ⟨41, [⟨40, 40, 0x0⟩]⟩
  | .regwr _ _ => ⟨41, [⟨40, 40, 0x1⟩]⟩

/-- The width of a word's format. -/
def size : Encoded → Nat
  | .cmd _ => 16
  | .pin _ => 11
  | .seq _ => 3
  | .bus _ => 41

/-- A word as a number. -/
def bits : Encoded → Nat
  | .cmd w => w.toNat
  | .pin w => w.toNat
  | .seq w => w.toNat
  | .bus w => w.toNat

/-- The bits of a field in a number. -/
def fieldOf (n : Nat) (f : Field) : Nat := n / 2 ^ f.lo % 2 ^ (f.hi - f.lo + 1)

/-- A well-formed operation's word has the format of its row and, in every field the row fixes, the row's value. -/
def Statement (i : Instr) : Prop :=
  i.wellFormed = true → size (encode i) = (row i).width ∧ ∀ f ∈ (row i).fixed, fieldOf (bits (encode i)) f = f.value

/-- A word of three fields as a number. -/
theorem toNat_fields {a b c : Nat} (x : BitVec a) (y : BitVec b) (z : BitVec c) :
    (x ++ y ++ z).toNat = (x.toNat * 2 ^ b + y.toNat) * 2 ^ c + z.toNat := by
  rw [BitVec.toNat_append, BitVec.toNat_append, ← Nat.shiftLeft_add_eq_or_of_lt y.isLt,
    ← Nat.shiftLeft_add_eq_or_of_lt z.isLt, Nat.shiftLeft_eq, Nat.shiftLeft_eq]

theorem fields_nil (n : Nat) : ∀ f ∈ ([] : List Field), fieldOf n f = f.value := by simp

theorem fields_cons {n : Nat} {f : Field} {fs : List Field} (h : n / 2 ^ f.lo % 2 ^ (f.hi - f.lo + 1) = f.value)
    (hs : ∀ g ∈ fs, fieldOf n g = g.value) : ∀ g ∈ f :: fs, fieldOf n g = g.value :=
  List.forall_mem_cons.mpr ⟨h, hs⟩

theorem claim : Statement .claim := fun _ => ⟨rfl, fields_cons rfl (fields_nil _)⟩

theorem release : Statement .release := fun _ => ⟨rfl, fields_cons rfl (fields_nil _)⟩

theorem rdframe (ch : BitVec 8) : Statement (.rdframe ch) := by
  have h := toNat_fields (0x03 : BitVec 5) (0 : BitVec 3) ch
  have h1 := ch.isLt
  refine fun _ => ⟨rfl, fields_cons ?_ (fields_nil _)⟩
  rw [show bits (encode (.rdframe ch)) = _ from h]
  simp
  omega

theorem tcfield : Statement .tcfield := fun _ => ⟨rfl, fields_cons rfl (fields_nil _)⟩

theorem rjfield : Statement .rjfield := fun _ => ⟨rfl, fields_cons rfl (fields_nil _)⟩

theorem classify : Statement .classify := fun _ => ⟨rfl, fields_cons rfl (fields_nil _)⟩

theorem tounit (src : Path) (unit : BitVec 2) : Statement (.tounit src unit) := by
  have h := toNat_fields (0x07 : BitVec 5) ((src.bit ++ unit) : BitVec 3) (0 : BitVec 8)
  have h1 := ((src.bit ++ unit) : BitVec 3).isLt
  refine fun _ => ⟨rfl, fields_cons ?_ (fields_cons ?_ (fields_nil _))⟩
  · rw [show bits (encode (.tounit src unit)) = _ from h]
    simp
  · rw [show bits (encode (.tounit src unit)) = _ from h]
    simp
    omega

theorem getrj (ch : BitVec 8) : Statement (.getrj ch) := by
  have h := toNat_fields (0x08 : BitVec 5) (0 : BitVec 3) ch
  have h1 := ch.isLt
  refine fun _ => ⟨rfl, fields_cons ?_ (fields_nil _)⟩
  rw [show bits (encode (.getrj ch)) = _ from h]
  simp
  omega

theorem get (ch : BitVec 8) : Statement (.get ch) := by
  have h := toNat_fields (0x09 : BitVec 5) (0 : BitVec 3) ch
  have h1 := ch.isLt
  refine fun _ => ⟨rfl, fields_cons ?_ (fields_nil _)⟩
  rw [show bits (encode (.get ch)) = _ from h]
  simp
  omega

theorem rdreading (ch : BitVec 8) : Statement (.rdreading ch) := by
  have h := toNat_fields (0x0A : BitVec 5) (0 : BitVec 3) ch
  have h1 := ch.isLt
  refine fun _ => ⟨rfl, fields_cons ?_ (fields_nil _)⟩
  rw [show bits (encode (.rdreading ch)) = _ from h]
  simp
  omega

theorem start : Statement .start := fun _ => ⟨rfl, fields_cons rfl (fields_nil _)⟩

theorem intr : Statement .intr := fun _ => ⟨rfl, fields_cons rfl (fields_nil _)⟩

theorem setdir (pin : PinId) (dir : Dir) : Statement (.setdir pin dir) := by
  have h := toNat_fields (1 : BitVec 2) (dir.bit : BitVec 1) pin
  have h1 := (dir.bit : BitVec 1).isLt
  have h2 := pin.isLt
  refine fun _ => ⟨rfl, fields_cons ?_ (fields_nil _)⟩
  rw [show bits (encode (.setdir pin dir)) = _ from h]
  simp
  omega

theorem write (pin : PinId) (level : Level) : Statement (.write pin level) := by
  have h := toNat_fields (2 : BitVec 2) (level.bit : BitVec 1) pin
  have h1 := (level.bit : BitVec 1).isLt
  have h2 := pin.isLt
  refine fun _ => ⟨rfl, fields_cons ?_ (fields_nil _)⟩
  rw [show bits (encode (.write pin level)) = _ from h]
  simp
  omega

theorem read (pin : PinId) : Statement (.read pin) := by
  have h := toNat_fields (3 : BitVec 2) (0 : BitVec 1) pin
  have h1 := pin.isLt
  refine fun _ => ⟨rfl, fields_cons ?_ (fields_nil _)⟩
  rw [show bits (encode (.read pin)) = _ from h]
  simp
  omega

theorem phBoundary : Statement .phBoundary := fun _ => ⟨rfl, fields_cons rfl (fields_nil _)⟩

theorem phSample : Statement .phSample := fun _ => ⟨rfl, fields_cons rfl (fields_nil _)⟩

theorem phAppend : Statement .phAppend := fun _ => ⟨rfl, fields_cons rfl (fields_nil _)⟩

theorem phTelem : Statement .phTelem := fun _ => ⟨rfl, fields_cons rfl (fields_nil _)⟩

theorem phTick : Statement .phTick := fun _ => ⟨rfl, fields_cons rfl (fields_nil _)⟩

theorem phSleep : Statement .phSleep := fun _ => ⟨rfl, fields_cons rfl (fields_nil _)⟩

theorem phHalt : Statement .phHalt := fun _ => ⟨rfl, fields_cons rfl (fields_nil _)⟩

theorem regrd (rn : RegNum) : Statement (.regrd rn) := by
  have h := toNat_fields (0 : BitVec 1) (rn : BitVec 8) (0 : BitVec 32)
  have h1 := rn.isLt
  refine fun _ => ⟨rfl, fields_cons ?_ (fields_nil _)⟩
  rw [show bits (encode (.regrd rn)) = _ from h]
  simp
  omega

theorem regwr (rn : RegNum) (wdata : Word32) : Statement (.regwr rn wdata) := by
  have h := toNat_fields (1 : BitVec 1) (rn : BitVec 8) wdata
  have h1 := rn.isLt
  have h2 := wdata.isLt
  refine fun _ => ⟨rfl, fields_cons ?_ (fields_nil _)⟩
  rw [show bits (encode (.regwr rn wdata)) = _ from h]
  simp
  omega

end Sys2Proof.Laws.FixedBits
end

