-- ==== Sys2Proof/Laws/Sampler.lean ====
section
/-! SUPPORT. The sampler and the staging column (spec/45_sampler_buffer.md rules R165 to R171): what PH_SAMPLE's parts and
PH_APPEND can do, one visit of a channel at a time, and the same for the micro-steps (spec/47_host_bus.md rule R203). -/

namespace Sys2Proof.Machine

/-! ### What PH_SAMPLE leaves alone -/

/-- `t` differs from `s` in the datapath, PHASE, CH, HALT, the per-channel tables, levels of pins, the history, the
environment's answers and the place inside the step alone. -/
structure OnlySample (s t : State) : Prop where
  params : t.params = s.params
  sq : t.sq = { s.sq with phase := t.sq.phase, ch := t.sq.ch }
  fl : t.fl = { s.fl with halt := t.fl.halt }
  cfg : t.cfg = s.cfg
  buf : t.buf = s.buf
  dir : t.pins.dir = s.pins.dir
  turns : t.io.turns = s.io.turns
  replies : t.io.replies = s.io.replies
  port : t.io.port = s.io.port

theorem OnlySample.refl (s : State) : OnlySample s s := by constructor <;> rfl

theorem OnlySample.trans {s t u : State} (h : OnlySample s t) (k : OnlySample t u) : OnlySample s u where
  params := k.params.trans h.params
  sq := by rw [k.sq, h.sq]
  fl := by rw [k.fl, h.fl]
  cfg := k.cfg.trans h.cfg
  buf := k.buf.trans h.buf
  dir := k.dir.trans h.dir
  turns := k.turns.trans h.turns
  replies := k.replies.trans h.replies
  port := k.port.trans h.port

theorem OnlyChannel.toSample {s t : State} (h : OnlyChannel s t) : OnlySample s t where
  params := h.params
  sq := by rw [h.sq]
  fl := by rw [h.fl]
  cfg := h.cfg
  buf := h.buf
  dir := h.dir
  turns := h.turns
  replies := h.replies
  port := h.port

theorem onlySample_clearStaging (s : State) : OnlySample s (clearStaging s) := by constructor <;> rfl
theorem onlySample_visit (i : Nat) (s : State) : OnlySample s (visit i s) := by constructor <;> rfl
theorem onlySample_goto (p : BitVec 3) (s : State) : OnlySample s (s.goto p) := by constructor <;> rfl
theorem onlySample_stageQuarantined (i : Nat) (s : State) : OnlySample s (stageQuarantined i s) := by
  constructor <;> rfl
theorem onlySample_stageReading (i : Nat) (s : State) : OnlySample s (stageReading i s) := by constructor <;> rfl
theorem onlySample_quarantine (i : Nat) (s : State) : OnlySample s (quarantine i s) := by constructor <;> rfl
theorem onlySample_haltSession (s : State) : OnlySample s (haltSession s) := by constructor <;> rfl
theorem onlySample_frameHead (i : Nat) (s : State) : OnlySample s (frameHead i s) := by constructor <;> rfl

/-! ### One visit of a channel -/

theorem sampleChannels_nil (s : State) : sampleChannels [] s = .done () (s.goto 2) := rfl

/-- A quarantined channel is staged and passed over (rule R167). -/
theorem sampleChannels_quarantined (i : Nat) (is : List Nat) (s : State) (h : s.quarAt i = true) :
    sampleChannels (i :: is) s = sampleChannels is (stageQuarantined i (visit i s)) := by
  have : (visit i s).quarAt i = true := h
  simp [sampleChannels, this]

/-- What follows the two frame reads of a channel (rules R165 to R167). -/
def afterReading (i : Nat) (is : List Nat) (s : State) : Flow Unit :=
  if s.faulted then
    match s.cfg.policy with
    | .haltOnFault => .done () (haltSession (stageReading i s))
    | .quarantineFaultingChannel => sampleChannels is (quarantine i (stageReading i s))
  else sampleChannels is (stageReading i s)

/-- A channel that is not quarantined is read (rule R165). -/
theorem sampleChannels_read (i : Nat) (is : List Nat) (s : State) (h : s.quarAt i = false) :
    sampleChannels (i :: is) s = (readReading i (visit i s)).andThen fun _ t => afterReading i is t := by
  have : (visit i s).quarAt i = false := h
  simp only [sampleChannels, this, Bool.false_eq_true, if_false]
  rfl

theorem afterReading_halts {i : Nat} {is : List Nat} {s : State} (h : s.faulted = true)
    (hp : s.cfg.policy = .haltOnFault) : afterReading i is s = .done () (haltSession (stageReading i s)) := by
  simp [afterReading, h, hp]

theorem afterReading_quarantines {i : Nat} {is : List Nat} {s : State} (h : s.faulted = true)
    (hp : s.cfg.policy = .quarantineFaultingChannel) :
    afterReading i is s = sampleChannels is (quarantine i (stageReading i s)) := by
  simp [afterReading, h, hp]

theorem afterReading_goes_on {i : Nat} {is : List Nat} {s : State} (h : s.faulted = false) :
    afterReading i is s = sampleChannels is (stageReading i s) := by
  simp [afterReading, h]

/-- What the loop can do, whether it completes or raises (rules R165, R212); it raises nothing but TransportFailure, and
before PHASE or HALT is written. -/
theorem sampleChannels_spec (is : List Nat) (s : State) :
    (sampleChannels is s).Post (fun _ t => OnlySample s t)
      (fun x t => x = .transportFailure ∧ OnlySample s t ∧ t.sq.phase = s.sq.phase ∧ t.fl = s.fl) := by
  induction is generalizing s with
  | nil => exact onlySample_goto 2 s
  | cons i is ih =>
    have goes : ∀ t u : State, OnlySample s t → t.sq.phase = s.sq.phase → t.fl = s.fl → u = t →
        (sampleChannels is u).Post (fun _ t => OnlySample s t)
          (fun x t => x = .transportFailure ∧ OnlySample s t ∧ t.sq.phase = s.sq.phase ∧ t.fl = s.fl) := by
      rintro t u ht hp hf rfl
      exact (ih u).mono (fun _ _ h => ht.trans h) (fun _ _ h =>
        ⟨h.1, ht.trans h.2.1, h.2.2.1.trans hp, h.2.2.2.trans hf⟩)
    cases hq : s.quarAt i with
    | true =>
      rw [sampleChannels_quarantined i is s hq]
      exact goes _ _ ((onlySample_visit i s).trans (onlySample_stageQuarantined i _)) rfl rfl rfl
    | false =>
      rw [sampleChannels_read i is s hq]
      have hr := readReading_spec i (visit i s)
      cases hm : readReading i (visit i s) with
      | raised x t =>
        rw [hm] at hr
        exact ⟨hr.1, (onlySample_visit i s).trans hr.2.toSample, by rw [hr.2.sq]; rfl, hr.2.fl⟩
      | done a t =>
        rw [hm] at hr
        have hr : OnlyChannel (visit i s) t := hr
        have ht : OnlySample s t := (onlySample_visit i s).trans hr.toSample
        have hph : t.sq.phase = s.sq.phase := by rw [hr.sq]; rfl
        have hst := ht.trans (onlySample_stageReading i t)
        rw [Flow.andThen_done]
        cases hfa : t.faulted with
        | false =>
          rw [afterReading_goes_on hfa]
          exact goes _ _ hst hph hr.fl rfl
        | true =>
          cases hpo : t.cfg.policy with
          | haltOnFault =>
            rw [afterReading_halts hfa hpo]
            exact hst.trans (onlySample_haltSession _)
          | quarantineFaultingChannel =>
            rw [afterReading_quarantines hfa hpo]
            exact goes _ _ (hst.trans (onlySample_quarantine i _)) hph hr.fl rfl

/-! ### The same by micro-steps -/

theorem enterChannels_nil (s : State) : enterChannels [] s = ({ s with io.pos := none } : State).goto 2 := rfl

theorem enterChannels_quarantined (i : Nat) (is : List Nat) (s : State) (h : s.quarAt i = true) :
    enterChannels (i :: is) s = enterChannels is (stageQuarantined i (visit i s)) := by
  have : (visit i s).quarAt i = true := h
  simp [enterChannels, this]

theorem enterChannels_reads (i : Nat) (is : List Nat) (s : State) (h : s.quarAt i = false) :
    enterChannels (i :: is) s = { frameHead i (visit i s) with io.pos := some { second := false, done := 0 } } := by
  have : (visit i s).quarAt i = false := h
  simp [enterChannels, this]

theorem onlySample_enterChannels (is : List Nat) (s : State) : OnlySample s (enterChannels is s) := by
  induction is generalizing s with
  | nil => constructor <;> rfl
  | cons i is ih =>
    cases hq : s.quarAt i with
    | true =>
      rw [enterChannels_quarantined i is s hq]
      exact ((onlySample_visit i s).trans (onlySample_stageQuarantined i _)).trans (ih _)
    | false =>
      rw [enterChannels_reads i is s hq]
      constructor <;> rfl

theorem onlySample_leaveChannel (i : Nat) (s : State) : OnlySample s (leaveChannel i s) := by
  unfold leaveChannel
  simp only
  split
  · split
    · constructor <;> rfl
    · exact ((onlySample_stageReading i s).trans (onlySample_quarantine i _)).trans (onlySample_enterChannels _ _)
  · exact (onlySample_stageReading i s).trans (onlySample_enterChannels _ _)

theorem onlySample_afterFramePin (p : SamplePos) (ch : Nat) (s : State) : OnlySample s (afterFramePin p ch s) := by
  unfold afterFramePin
  split
  · constructor <;> rfl
  · split
    · exact (onlyChannel_finishRj s).toSample.trans (by constructor <;> rfl)
    · exact (onlyChannel_finishTc s).toSample.trans (onlySample_leaveChannel _ _)

/-- What one pin transaction of a frame read can do (rules R117, R212). -/
theorem onlyFrame_framePin (ch done : Nat) (s : State) :
    (framePin ch done s).Post (fun _ t => OnlyFrame s t) (fun _ t => OnlyFrame s t) := by
  unfold framePin
  split
  · exact onlyFrame_pinWrite _ _ _
  · split
    · exact onlyFrame_andThen (onlyFrame_pinWrite _ _ _) fun _ _ => by constructor <;> rfl
    · split
      · exact onlyFrame_pinWrite _ _ _
      · exact onlyFrame_sampleBit _
      · exact onlyFrame_pinWrite _ _ _

/-- Pin transaction number `done` of a frame read emits one event, the one `frameOp` names with the environment's answer
(rules R110 to R112, R117), whether it succeeds or raises. -/
theorem events_framePin (ch done : Nat) (s : State) :
    let e := pinEvent (frameOp (s.csPinAt ch) s.cfg.clkPin s.cfg.dataPin done) (s.answerAt 0)
    (framePin ch done s).Post (fun _ t => t.events = s.events ++ [e]) (fun _ t => t.events = s.events ++ [e]) := by
  unfold framePin frameOp
  split
  · exact events_pinWrite _ _ _
  · split
    · exact (events_pinWrite _ _ _).andThen fun _ _ h => h
    · rw [show done % 3 = ((done - 1) % 3 + 1) % 3 by omega]
      rcases (by omega : (done - 1) % 3 = 0 ∨ (done - 1) % 3 = 1 ∨ (done - 1) % 3 = 2) with h | h | h <;> rw [h]
      · exact events_pinWrite _ _ _
      · exact (events_pinRead _ _).andThen fun _ _ h => h
      · exact events_pinWrite _ _ _

/-! ### PH_APPEND (rules R66, R169) -/

/-- PH_APPEND with a whole column: BUF, BUF_LEN and PHASE are written, nothing else. -/
theorem phAppend_whole (s : State) (h : s.tab.stageLen = s.cfg.nch) :
    phAppend s = .done () (({ writeColumn s.stageAt s.buf.len.toNat s.channels
      (writeColumn (fun _ => entryEmpty) s.buf.len.toNat s.channels s) with
        buf.len := s.buf.len + 1 } : State).goto 3) := by
  have e1 := writeColumn_eq (fun _ => entryEmpty) s.buf.len.toNat s.channels s
  have e2 : (writeColumn (fun _ => entryEmpty) s.buf.len.toNat s.channels s).stageAt = s.stageAt := by
    rw [e1]; rfl
  have e3 : (writeColumn (fun _ => entryEmpty) s.buf.len.toNat s.channels s).channels = s.channels := by
    rw [e1]; rfl
  have e4 : (writeColumn s.stageAt s.buf.len.toNat s.channels
      (writeColumn (fun _ => entryEmpty) s.buf.len.toNat s.channels s)).buf.len = s.buf.len := by
    rw [writeColumn_eq, e1]
  unfold phAppend
  simp only [h, ne_eq, not_true_eq_false, if_false, e2, e3, e4]

theorem length_seqWrite_end (l : List Word32) (e : Word32) : (seqWrite l l.length e).length = l.length + 1 := by
  simp [seqWrite, List.rightpad]

theorem length_seqWrite_inside (l : List Word32) (k : Nat) (e : Word32) (h : k < l.length) :
    (seqWrite l k e).length = l.length := by
  simp [seqWrite, List.rightpad]
  omega

/-- The buffer has its one form after reset. -/
theorem memory_wf_reset : Memory.wf State.reset := by decide

/-- Appending a column keeps the buffer's one form (rules R66, R171), in a buffer that has room. -/
theorem memory_wf_phAppend (s : State) (h : Memory.wf s) (hc : s.tab.stageLen = s.cfg.nch) (hn : s.cfg.nch.toNat ≤ 32)
    (hr : s.buf.len.toNat < 2 ^ 32 - 1) : Memory.wf (phAppend s).settle := by
  rw [phAppend_whole s hc, Flow.settle_done]
  intro ch hch
  have hd : s.channels.Nodup := List.nodup_range
  have h32 : ∀ c ∈ s.channels, c < 32 := fun c hc => by
    have : c < s.cfg.nch.toNat := by simpa [State.channels] using hc
    omega
  have hlen : (s.buf.len + 1).toNat = s.buf.len.toNat + 1 := by
    rw [BitVec.toNat_add]
    simp only [BitVec.ofNat_eq_ofNat, BitVec.toNat_ofNat]
    omega
  have hcfg : (writeColumn s.stageAt s.buf.len.toNat s.channels
      (writeColumn (fun _ => entryEmpty) s.buf.len.toNat s.channels s)).cfg = s.cfg := by
    rw [writeColumn_eq, writeColumn_eq]
  have hs := h ch hch
  have key := seqAt_writeColumn s.stageAt s.buf.len.toNat ch s.channels
    (writeColumn (fun _ => entryEmpty) s.buf.len.toNat s.channels s) hd h32
  rw [seqAt_writeColumn (fun _ => entryEmpty) s.buf.len.toNat ch s.channels s hd h32] at key
  show ((writeColumn s.stageAt s.buf.len.toNat s.channels
    (writeColumn (fun _ => entryEmpty) s.buf.len.toNat s.channels s)).seqAt ch).length =
      if ch < (writeColumn s.stageAt s.buf.len.toNat s.channels
        (writeColumn (fun _ => entryEmpty) s.buf.len.toNat s.channels s)).cfg.nch.toNat then (s.buf.len + 1).toNat else 0
  rw [key, hcfg, hlen]
  by_cases hin : ch < s.cfg.nch.toNat
  · have hm : ch ∈ s.channels := by simpa [State.channels] using hin
    simp only [hin, hm, if_true] at hs ⊢
    rw [length_seqWrite_inside]
    · rw [← hs, length_seqWrite_end]
    · rw [← hs, length_seqWrite_end]
      omega
  · have hm : ch ∉ s.channels := by simpa [State.channels] using hin
    simpa only [hin, hm, if_false] using hs

theorem phAppend_violation (s : State) (h : s.tab.stageLen ≠ s.cfg.nch) :
    phAppend s = .raised .contractViolation s := by
  simp [phAppend, h]

end Sys2Proof.Machine
end

