-- ==== Sys2Proof/Tests/Slice0.lean ====
section
/-! SUPPORT. Tests: the check of ill-formed operations, one written word for every constructor, at most two one-step tests
for every operation with the results of spec/95_test_vectors.md, and one witness for the hypotheses of every statement. -/

set_option Elab.async false

namespace Sys2Proof.Tests
open Sys2Proof Sys2Proof.Machine

/-! ### Well-formedness (rules R84, R145) -/

theorem test_tounit_unit3_ill_formed : (Instr.tounit .tc 3).wellFormed = false := by decide
theorem test_tounit_unit3_ill_formed_rj : (Instr.tounit .rj 3).wellFormed = false := by decide
theorem test_tounit_unit2_well_formed : (Instr.tounit .rj 2).wellFormed = true := by decide

/-! ### Decoding: words written out from the tables of rules R83, R85, R88, R89 (spec/30_encoding.md) -/

/-- CLAIM: op 00001, mod 000, idx 0. -/
theorem test_decode_claim : decode (.cmd 0b00001_000_00000000) = some .claim := by decide
theorem test_decode_release : decode (.cmd 0b00010_000_00000000) = some .release := by decide
theorem test_decode_rdframe : decode (.cmd 0b00011_000_00000101) = some (.rdframe 5) := by decide
theorem test_decode_tcfield : decode (.cmd 0b00100_000_00000000) = some .tcfield := by decide
theorem test_decode_rjfield : decode (.cmd 0b00101_000_00000000) = some .rjfield := by decide
theorem test_decode_classify : decode (.cmd 0b00110_000_00000000) = some .classify := by decide
/-- TOUNIT: mod is src, then the two bits of unit. -/
theorem test_decode_tounit : decode (.cmd 0b00111_1_01_00000000) = some (.tounit .rj 1) := by decide
theorem test_decode_tounit_tc : decode (.cmd 0b00111_0_10_00000000) = some (.tounit .tc 2) := by decide
theorem test_decode_getrj : decode (.cmd 0b01000_000_00000011) = some (.getrj 3) := by decide
theorem test_decode_get : decode (.cmd 0b01001_000_11111111) = some (.get 255) := by decide
theorem test_decode_rdreading : decode (.cmd 0b01010_000_00000001) = some (.rdreading 1) := by decide
theorem test_decode_start : decode (.cmd 0b01011_000_00000000) = some .start := by decide
theorem test_decode_intr : decode (.cmd 0b01100_000_00000000) = some .intr := by decide
/-- SETDIR 8, out: pop 01, arg 1, pin 8: word 0x308 (spec/95_test_vectors.md 2.1). -/
theorem test_decode_setdir : decode (.pin 0b01_1_00001000) = some (.setdir 8 .output) := by decide
theorem test_decode_write : decode (.pin 0b10_0_00000111) = some (.write 7 .low) := by decide
theorem test_decode_read : decode (.pin 0b11_0_00001001) = some (.read 9) := by decide
theorem test_decode_phBoundary : decode (.seq 0b000) = some .phBoundary := by decide
theorem test_decode_phSample : decode (.seq 0b001) = some .phSample := by decide
theorem test_decode_phAppend : decode (.seq 0b010) = some .phAppend := by decide
theorem test_decode_phTelem : decode (.seq 0b011) = some .phTelem := by decide
theorem test_decode_phTick : decode (.seq 0b100) = some .phTick := by decide
theorem test_decode_phSleep : decode (.seq 0b101) = some .phSleep := by decide
theorem test_decode_phHalt : decode (.seq 0b110) = some .phHalt := by decide
/-- REGRD 0x19: we 0, register number 0x19. -/
theorem test_decode_regrd : decode (.bus 0x01900000000) = some (.regrd 0x19) := by decide
/-- REGWR 0x02, 2: we 1, register number 2, wdata 2. -/
theorem test_decode_regwr : decode (.bus 0x10200000002) = some (.regwr 2 2) := by decide

/-- Illegal words are refused: op 0, op 0x0D, op 0x1F, idx in CLAIM, mod in TCFIELD, unit 3, idx in TOUNIT, bits 31:16
(H16 to H23). -/
theorem test_illegal_words : ([0x0000, 0x6800, 0xF800, 0x0801, 0x2100, 0x3B00, 0x3F00, 0x3801, 0x00015800].all
    fun w => decodeCmdWrite w == none) = true := by decide
/-- No pin transaction, a READ with arg 1, PHASE 7. -/
theorem test_no_such_words : decode (.pin 0x0FF) = none ∧ decode (.pin 0x709) = none ∧ decode (.seq 7) = none := by
  decide
/-- Table words of the two-byte rows: a PIN row and a CMD row. -/
theorem test_table_words : decodeTableWord 16 0x609 = some (.read 9) ∧ decodeTableWord 16 0x4801 = some (.get 1) ∧
    decodeTableWord 8 6 = some .phHalt ∧ decodeTableWord 48 0x10A00000007 = some (.regwr 0x0A 7) := by decide +kernel

/-! ### Small states: the example configuration of spec/95_test_vectors.md -/

/-- Idle, configured, no pin claimed. -/
def configured : State :=
  { State.reset with
    params := { nchMax := 8, bufDepth := 1000 }
    cfg.nch := 2, cfg.csPin := (State.reset.cfg.csPin.set 0 8).set 1 7, cfg.clkPin := 11, cfg.dataPin := 9
    cfg.interval := 1000, cfg.maxTicks := 3 }

/-- `s` with its example pins claimed and the bus idle. -/
def withPins (s : State) : State :=
  ([8, 7, 11].foldl (fun s p => (s.setPdir p (some .output)).setPlvl p (some .high))
    ({ s with fl.claimed := true } : State)).setPdir 9 (some .input)

/-- `s` with answers settled. -/
def answered (l : List PinAnswer) (s : State) : State := { s with io.answers := l }

/-- Idle, claimed. -/
def claimed : State := withPins configured

/-- Running at a phase. -/
def running (phase : BitVec 3) : State := { claimed with sq.lc := .running, sq.phase := phase }

/-- Running at a phase with the staging column of S1. -/
def staged (phase : BitVec 3) : State :=
  { running phase with
    tab.stage := ((running phase).tab.stage.set 0 0x400001F4).set 1 0x400001F4
    tab.rjStage := ((running phase).tab.rjStage.set 0 0x48000708).set 1 0x48000708
    tab.stageLen := 2, sq.ch := 1 }

/-- Stopped after no tick. -/
def stopped : State := { configured with sq.lc := .stopped, sq.stopReason := .interrupted }

/-- What `p` says of the state an operation leaves. -/
def after (i : Instr) (s : State) (p : State → Bool) : Bool :=
  match exec i s with
  | .next t => p t
  | .fault _ => false
  | .refused _ => false

def failing : PinAnswer := { ok := false, level := .low }

/-! ### One-step tests -/

/-- K1. -/
theorem test_claim : after .claim (answered (okAnswers 7) configured) (fun t =>
    t.fl.claimed && t.pdir 9 == some .input && t.plvl 7 == some .high && t.history.length == 7 &&
      t.events.drop 6 == [.pin (.setDir .input) 9 .ok]) = true := by decide +kernel
/-- K6: the fourth transaction fails. -/
theorem test_claim_fails : after .claim (answered (okAnswers 3 ++ [failing] ++ okAnswers 2) configured) (fun t =>
    statusWord t == 0x13 && t.pdir 8 == none && t.events.drop 4 == [.stop .aborted .transportFailure,
      .pin (.setDir .input) 8 .ok, .pin (.setDir .input) 7 .ok, .release 2]) = true := by decide +kernel
/-- K3. -/
theorem test_release : after .release (answered (okAnswers 4) claimed) (fun t =>
    !t.fl.claimed && t.pdir 11 == none && t.plvl 8 == none && t.events == [.pin (.setDir .input) 8 .ok,
      .pin (.setDir .input) 7 .ok, .pin (.setDir .input) 11 .ok, .pin (.setDir .input) 9 .ok, .release 4]) = true := by
  decide +kernel
/-- H32. -/
theorem test_release_busy : after .release (running 3) (fun t => t.fl.err == .busy && t.fl.claimed) = true := by
  decide +kernel
/-- F1, with SR all ones before. -/
theorem test_rdframe : after (.rdframe 1) (answered (frameAnswers 0x01901680) { claimed with dp.sr := 0xFFFFFFFF })
    (fun t => t.dp.frame == 0x01901680 && t.dp.bitcnt == 32 && t.sq.ch == 1 && t.history.length == 98 &&
      t.events.head? == some (.pin (.write .low) 7 .ok)) = true := by decide +kernel
/-- The failing frame read of 2.1: the fifth READ fails after four ones. -/
theorem test_rdframe_fails : after (.rdframe 0)
    (answered ((frameAnswers 0xF0000000).take 14 ++ [failing] ++ okAnswers 4) { claimed with dp.frame := 0x01901680 })
    (fun t => t.dp.sr == 0xF && t.dp.bitcnt == 4 && t.dp.bit == 1 && t.dp.frame == 0x01901680 &&
      statusWord t == 0x13) = true := by decide +kernel
/-- D10 and D6. -/
theorem test_tcfield : after .tcfield { configured with dp.frame := 0xF0600000 } (fun t =>
    t.dp.tcq.toInt == -1000) = true := by decide +kernel
theorem test_tcfield_least : after .tcfield { configured with dp.frame := 0x80000000 } (fun t =>
    t.dp.tcq.toInt == -8192 && regRead 0x0D t == 0xFFFFE000) = true := by decide +kernel
/-- J7 and J11. -/
theorem test_rjfield : after .rjfield { configured with dp.frame := 0x00008010 } (fun t =>
    t.dp.rjq.toInt == -2047 && regRead 0x0E t == 0xFFFFF801) = true := by decide +kernel
theorem test_rjfield_other_bits : after .rjfield { configured with dp.frame := 0xFFFF010F } (fun t =>
    t.dp.rjq.toInt == 16) = true := by decide +kernel
/-- The sixteen rows of 2.4, and its last line. -/
theorem test_classify_table : (List.range 8).map (fun n => after .classify { configured with dp.frame := BitVec.ofNat 32 n }
      (fun t => t.dp.fs == .none)) = List.replicate 8 true ∧
    ([0x10000, 0x10001, 0x10002, 0x10003, 0x10004, 0x10005, 0x10006, 0x10007].map classifyFrame) =
      [.unknown, .openCircuit, .shortToGround, .openCircuit, .shortToVcc, .openCircuit, .shortToGround, .openCircuit] := by
  decide +kernel
theorem test_classify_other_bits : after .classify { configured with dp.frame := 0x00030008 } (fun t =>
    t.dp.fs == .unknown) = true := by decide +kernel
/-- The rows of 2.5 for TCQ = -1093 in Kelvin and RJQ = -2048 in Fahrenheit. -/
theorem test_tounit_tc_k : after (.tounit .tc 1) { configured with dp.tcq := -1093 } (fun t =>
    t.dp.val.toInt == -2 && entryReading .kelvin .tc t.dp.val == 0x5003FFFE && regRead 0x11 t == 1) = true := by
  decide +kernel
theorem test_tounit_rj_f : after (.tounit .rj 2) { configured with dp.rjq := -2048 } (fun t =>
    t.dp.val.toInt == -15872 && entryReading .fahrenheit .rj t.dp.val == 0x6803C200 && regRead 0x11 t == 6) = true := by
  decide +kernel
/-- G2 and G4. -/
theorem test_getrj : after (.getrj 0) (answered (frameAnswers 0x01901680) { claimed with cfg.unit := .kelvin }) (fun t =>
    t.dp.rjres == 0x58005C64 && t.dp.val.toInt == 23652 && t.dp.res == 0) = true := by decide +kernel
theorem test_getrj_ignores_fault : after (.getrj 0) (answered (frameAnswers 0x01910001) claimed) (fun t =>
    t.dp.rjres == 0x48000000 && t.dp.fs == .none) = true := by decide +kernel
/-- G14 and G8. -/
theorem test_get : after (.get 1) (answered (frameAnswers 0xFFF0FF00) claimed) (fun t =>
    t.dp.tcq.toInt == -4 && t.dp.res == 0x4003FFEC && t.sq.ch == 1) = true := by decide +kernel
theorem test_get_fault : after (.get 0) (answered (frameAnswers 0x00010001) { claimed with dp.tcq := 7 }) (fun t =>
    t.dp.fs == .openCircuit && t.dp.res == 0x81000000 && t.dp.tcq == 7 && t.sq.lc == .idle && !t.fl.halt) = true := by
  decide +kernel
/-- G15 and G17. -/
theorem test_rdreading : after (.rdreading 0) (answered (frameAnswers 0x01901680 ++ frameAnswers 0x01941690) claimed)
    (fun t => t.dp.rjres == 0x48000708 && t.dp.res == 0x400001F9 && t.dp.rjq.toInt == 360 && t.dp.frame == 0x01941690 &&
      t.history.length == 196) = true := by decide +kernel
theorem test_rdreading_fault : after (.rdreading 0)
    (answered (frameAnswers 0x01901680 ++ frameAnswers 0x01910001) claimed)
    (fun t => t.dp.rjres == 0x48000708 && t.dp.res == 0x81000000 && t.dp.val.toInt == 1800 && t.dp.vscale == .rj) =
      true := by decide +kernel
/-- L1 and L3. -/
theorem test_start : after .start (answered (okAnswers 7) configured) (fun t =>
    statusWord t == 0x21 && t.history.length == 7) = true := by decide +kernel
theorem test_start_unconfigured : after .start State.reset (fun t =>
    t.fl.err == .configError && t.sq.lc == .idle) = true := by decide +kernel
/-- L16. -/
theorem test_intr : after .intr { stopped with fl.err := .busy } (fun t =>
    t.fl.intPending && t.fl.err == .none && t.sq.lc == .stopped) = true := by decide +kernel
theorem test_setdir : after (.setdir 8 .output) (answered (okAnswers 1) configured) (fun t =>
    t.pdir 8 == some .output && t.plvl 8 == none) = true := by decide +kernel
/-- A failing transaction leaves the mirror as it was and aborts (rules R115, R214). -/
theorem test_setdir_fails : after (.setdir 20 .output) (answered [failing] configured) (fun t =>
    t.pdir 20 == none && t.sq.lc == .aborted && t.events == [.pin (.setDir .output) 20 .fail,
      .stop .aborted .transportFailure, .release 0]) = true := by decide +kernel
theorem test_write : after (.write 7 .low) (answered (okAnswers 1) claimed) (fun t =>
    t.plvl 7 == some .low && t.plvl 8 == some .high && t.events == [.pin (.write .low) 7 .ok]) = true := by
  decide +kernel
theorem test_read : after (.read 9) (answered [{ ok := true, level := .high }] claimed) (fun t =>
    t.events == [.pin .read 9 (.okBit .high)] && t.dp == claimed.dp) = true := by decide +kernel
/-- L5 and L7. -/
theorem test_phBoundary : after .phBoundary (running 0) (fun t => t.sq.phase == 1 && t.history.isEmpty) = true := by
  decide +kernel
theorem test_phBoundary_completed_wins : after .phBoundary
    (answered (okAnswers 4) { running 0 with sq.tick := 3, fl.intPending := true }) (fun t =>
      statusWord t == 0x46 && t.events.head? == some (.stop .stopped .completed) &&
        t.events.getLast? == some (.release 4)) = true := by decide +kernel
/-- S1. -/
theorem test_phSample : after .phSample (answered ((List.replicate 4 (frameAnswers 0x01901680)).flatten) (running 1))
    (fun t => t.stageAt 0 == 0x400001F4 && t.stageAt 1 == 0x400001F4 && t.rjStageAt 1 == 0x48000708 &&
      t.tab.stageLen == 2 && t.sq.ch == 1 && t.sq.phase == 2 && t.history.length == 392) = true := by decide +kernel
/-- S4. -/
theorem test_phSample_quarantine : after .phSample
    (answered (frameAnswers 0x01901680 ++ frameAnswers 0x01910001 ++ frameAnswers 0x01A01700 ++ frameAnswers 0x01A01700)
      { running 1 with cfg.policy := .quarantineFaultingChannel })
    (fun t => t.stageAt 0 == 0x81000000 && t.stageAt 1 == 0x40000208 && t.quarAt 0 && !t.quarAt 1 &&
      t.qfsAt 0 == .openCircuit && !t.fl.halt && t.sq.phase == 2 && regRead 0x80 t == 3) = true := by decide +kernel
/-- S8, and the host's window after it. -/
theorem test_phAppend : after .phAppend (staged 2) (fun t =>
    t.seqAt 0 == [0x400001F4] && t.seqAt 1 == [0x400001F4] && t.buf.len == 1 && t.sq.phase == 3 &&
      regRead 0x19 t == 0x400001F4) = true := by decide +kernel
/-- S10. -/
theorem test_phAppend_violation : after .phAppend (answered (okAnswers 4) { staged 2 with tab.stageLen := 1 }) (fun t =>
    t.sq.lc == .aborted && t.sq.stopReason == .contractViolation && t.seqAt 0 == [] && t.buf.len == 0) = true := by
  decide +kernel
/-- S11. -/
theorem test_phTelem : after .phTelem (staged 3) (fun t => t.sq.phase == 4 &&
    t.events == [.telem 0 [⟨8, 0x400001F4, 0x48000708⟩, ⟨7, 0x400001F4, 0x48000708⟩]]) = true := by decide +kernel
/-- L11 and L12. -/
theorem test_phTick : after .phTick (running 4) (fun t => t.sq.tick == 1 && t.sq.phase == 5) = true := by decide +kernel
theorem test_phTick_last : after .phTick { running 4 with sq.tick := 2 } (fun t =>
    t.sq.tick == 3 && t.sq.phase == 0) = true := by decide +kernel
/-- L14. -/
theorem test_phSleep : after .phSleep (running 5) (fun t => t.sq.phase == 0 && t.events == [.sleep 1000]) = true := by
  decide +kernel
/-- S12. -/
theorem test_phHalt : after .phHalt
    (answered (okAnswers 4) { staged 6 with tab.stageLen := 1, sq.tick := 1, fl.halt := true }) (fun t =>
      t.sq.lc == .stopped && t.sq.stopReason == .faultHalt && t.sq.phase == 6 && !t.fl.claimed && t.sq.tick == 1 &&
        t.events.take 2 == [.telem 1 [⟨8, 0x400001F4, 0x48000708⟩], .stop .stopped .faultHalt] &&
        t.history.length == 7) = true := by decide +kernel
/-- H5's STATUS read. -/
theorem test_regrd : after (.regrd 1) { configured with fl.err := .illegalCommand } (fun t =>
    t.io.replies == [0x100] && t.fl.err == .illegalCommand) = true := by decide +kernel
/-- H3, H7, H12, H13, H14, H24, H29, H36. -/
theorem test_regwr : [(0x02, 0x40, ErrCode.configError), (0x28, 5, .illegalCommand), (0x07, 1001, .configError),
      (0x07, 1000, .none), (0x27, 200, .none)].all (fun c => after (.regwr c.1 c.2.1) configured (fun t =>
        t.fl.err == c.2.2)) = true ∧
    [(0x20, 5, ErrCode.busy), (0x02, 1, .busy), (0x05, 1, .none)].all (fun c => after (.regwr c.1 c.2.1) claimed (fun t =>
        t.fl.err == c.2.2)) = true := by decide +kernel
theorem test_regwr_running : [(0x09, 0, ErrCode.illegalCommand), (0x00, 0, .illegalCommand), (0x00, 0x4800, .busy),
      (0x05, 2, .busy), (0x17, 1, .none), (0x17, 0x40, .configError), (0x00, 0x6000, .none)].all (fun c =>
        after (.regwr c.1 c.2.1) (running 3) (fun t => t.fl.err == c.2.2)) = true := by decide +kernel

/-! ### Witnesses: for every statement with hypotheses, values that meet them together; for a statement of several
clauses, values for each, at the ends of its range -/

/-- Running after one whole cycle, about to decide at the boundary: one column committed. -/
def midway : State :=
  { staged 0 with
    sq.tick := 1
    buf.len := 1, buf.seqs := ((staged 0).buf.seqs.set 0 [0x400001F4]).set 1 [0x400001F4] }

/-- Running, inside a PH_SAMPLE by micro-steps, before the second transaction of channel 1's first frame. -/
def inFrame : State :=
  ({ running 1 with sq.ch := 1, io.pos := some { second := false, done := 1 }, io.turns := [.coreMicro] } : State).setPlvl 7
    (some .low)

theorem witness_DecodeOfEncode : (Instr.tounit .rj 2).wellFormed = true := by decide
theorem witness_EncodeOfDecode : decode (.cmd 0x3E00) = some (.tounit .rj 2) ∧ decode (.pin 0x7FF) = none ∧
    decode (.pin 0x6FF) = some (.read 255) ∧ decode (.seq 6) = some .phHalt ∧
    decode (.bus 0x1FFFFFFFFFF) = some (.regwr 0xFF 0xFFFFFFFF) := by decide +kernel
theorem witness_IllegalCommandWordsRefused :
    ([0x00010800, 0x07FF, 0x6800, 0xFFFF, 0x0900, 0x6700, 0x0801, 0x60FF, 0x3B00, 0x3F00].all
      fun w => decodeCmdWrite w == none) = true ∧
    ([0x0800, 0x6000, 0x18FF, 0x3E00].all fun w => decodeCmdWrite w != none) = true := by decide
theorem witness_CommandWriteRunsCommand : decodeCmdWrite 0x18FF = some (.rdframe 255) := by decide

/-- Each condition of rule R226 met alone, at the end of its range: PHASE = 7; Running unclaimed; an ENTRY of KIND 3 in RES,
RJRES, STAGE[31], RJSTAGE[0] and BUF; STAGE_LEN, BUF_LEN and TICK one too great. -/
theorem witness_StepRunsDecodedOperation_bug :
    ([({ running 7 with io.turns := [.reset] } : State), { configured with sq.phase := 7 },
      { configured with sq.lc := .running }, { claimed with dp.res := 0xC0000000 },
      { claimed with dp.rjres := 0xFFFFFFFF }, { claimed with tab.stage := claimed.tab.stage.set 31 0xC0000000 },
      { claimed with tab.rjStage := claimed.tab.rjStage.set 0 0xC0000000 },
      { midway with buf.seqs := midway.buf.seqs.set 1 [0xC0000000] }, { staged 2 with tab.stageLen := 3 },
      { midway with buf.len := 1001 }, { midway with sq.tick := 4, io.turns := [.host 0] }].map bugOf) =
    [some .phaseReserved, some .phaseReserved, some .runningUnclaimed, some .entryKindReserved, some .entryKindReserved,
      some .entryKindReserved, some .entryKindReserved, some .entryKindReserved, some .stageLenOverNch,
      some .bufLenOverDepth, some .tickOverMax] := by decide +kernel
/-- The hypothesis of the other clauses is that of `bugOf_eq_none_iff_not`. -/
theorem witness_StepRunsDecodedOperation_host : let s : State := { running 3 with io.turns := [.host 0x10000006000] }
    bugOf s = none ∧ s.io.turns = [.host 0x10000006000] ∧ decode (.bus 0x10000006000) = some (.regwr 0 0x6000) := by
  decide +kernel
/-- A READ on the port, and a READ with arg 1, which is no operation. -/
theorem witness_StepRunsDecodedOperation_pin : let s : State := { claimed with io.turns := [.coreMicro], io.port := 0x609 }
    bugOf s = none ∧ s.io.turns = [.coreMicro] ∧ pinPop s.io.port ≠ 0 ∧ decode (.pin s.io.port) = some (.read 9) ∧
      let u : State := { claimed with io.port := 0x709 }
      bugOf u = none ∧ u.io.turns = [] ∧ pinPop u.io.port ≠ 0 ∧ decode (.pin u.io.port) = none := by decide +kernel
/-- At rest in Idle and in Stopped. -/
theorem witness_StepRunsDecodedOperation_rest : ∀ s ∈ [({ claimed with io.turns := [.coreStep] } : State), stopped],
    bugOf s = none ∧ (s.io.turns = [.coreStep] ∨ s.io.turns = []) ∧ pinPop s.io.port = 0 ∧ s.sq.lc ≠ .running := by
  decide +kernel
/-- A micro-step that begins PH_SAMPLE, and one inside it. -/
theorem witness_StepRunsDecodedOperation_micro :
    (let s : State := { running 1 with io.turns := [.coreMicro] };
      bugOf s = none ∧ s.io.turns = [.coreMicro] ∧ pinPop s.io.port = 0 ∧ s.sq.lc = .running ∧ s.sq.phase = 1) ∧
    bugOf inFrame = none ∧ pinPop inFrame.io.port = 0 ∧ inFrame.sq.lc = .running ∧ inFrame.io.pos.isSome = true := by
  decide +kernel
/-- PH_TICK on a turn for a micro-step, and PH_SAMPLE on a turn for a whole step. -/
theorem witness_StepRunsDecodedOperation_seq : let s : State := { running 4 with io.turns := [.coreMicro] }
    bugOf s = none ∧ s.io.turns = [.coreMicro] ∧ pinPop s.io.port = 0 ∧ s.sq.lc = .running ∧ s.io.pos = none ∧
      decode (.seq s.sq.phase) = some .phTick ∧ s.sq.phase ≠ 1 ∧
      let u := running 1
      bugOf u = none ∧ u.io.turns = [] ∧ u.io.pos = none ∧ decode (.seq u.sq.phase) = some .phSample := by decide +kernel

/-- A stopped session whose host asks for RELEASE, and an aborted one at rest. -/
theorem witness_TerminalStatesStay : (∃ t, step { stopped with io.turns := [.host (busWord 1 0 0x1000)] } = .next t) ∧
    stopped.sq.lc = .stopped ∧ stopped.io.port = 0 ∧
    ∃ t, step { stopped with sq.lc := .aborted } = .next t := ⟨⟨_, rfl⟩, rfl, rfl, ⟨_, rfl⟩⟩
theorem witness_ResetInputResets : let s : State := { midway with io.turns := [.reset] }
    bugOf s = none ∧ s.io.turns = [.reset] := by decide +kernel

theorem witness_InvariantsAtReset : Params.wf {} ∧ Params.wf { nchMax := 1, bufDepth := 1 } ∧
    Params.wf { nchMax := 32, bufDepth := 1000 } := by decide

theorem witness_SequencerInvariantKept : SequencerInv midway where
  params := by decide
  nch := by decide
  maxTicks := by decide
  port := by decide
  phase := by decide
  reason := by decide
  running := by decide
  idle := by decide
  stageLen := by decide
  staged := by decide
  tick := by decide
  cycle := by decide
  length := by decide
  pos := by decide
  kinds := by
    have h : midway.entries.all (fun e => entryKind e != 3) = true := by decide +kernel
    intro e he
    simpa using List.all_eq_true.mp h e he

theorem witness_BusInvariantKept : BusInv inFrame ∧ ∃ t, step inFrame = .next t := by
  refine ⟨?_, ⟨_, rfl⟩⟩
  constructor
  · decide +kernel
  · decide +kernel
  · decide +kernel
  · decide +kernel
  · intro _ h; cases h
  · decide +kernel
  · decide +kernel
  · intro p hp
    cases hp
    unfold State.drives
    decide +kernel

theorem witness_BufferInvariantKept : BufferInv midway ∧ ∃ t, step midway = .next t := by
  refine ⟨?_, ⟨_, rfl⟩⟩
  have hq : ∀ ch, midway.quarAt ch = false := fun ch => tabGet_replicate_default false ch
  have he : ∀ ch, ch < 2 → (midway.seqAt ch).all (fun e => entryKind e != 2) = true := by decide +kernel
  exact
    { seq := witness_SequencerInvariantKept
      idle := fun h => by cases h
      lengths := by decide +kernel
      noQuarantine := fun _ => hq
      noMarkerStaged := by decide +kernel
      noMarkerInPass := fun _ h => by cases h
      noMarkerCommitted := fun _ ch hch e h => by simpa using List.all_eq_true.mp (he ch hch) e h }

theorem witness_BufferOnlyGrows : BufferInv midway ∧ (∀ ts, midway.io.turns ≠ .reset :: ts) ∧
    (∃ t, step midway = .next t) ∧ 1 < midway.cfg.nch.toNat :=
  ⟨witness_BufferInvariantKept.1, (fun _ h => nomatch h), witness_BufferInvariantKept.2, by decide⟩
theorem witness_MicroStepsMakeWholeStep : (running 1).io.pos = none := rfl
/-- PH_BOUNDARY, for the window alone, and PH_TICK, for the window and the latch. -/
theorem witness_SequencerIgnoresHostWindow :
    (Instr.phBoundary ∈ [Instr.phBoundary, .phSample, .phAppend, .phTelem, .phTick, .phSleep, .phHalt] ∧
      ∃ t, exec .phBoundary (running 0) = .next t) ∧
    Instr.phTick ∈ [Instr.phSample, .phAppend, .phTelem, .phTick, .phSleep, .phHalt] ∧
      ∃ t, exec .phTick (running 4) = .next t := ⟨⟨by decide, ⟨_, rfl⟩⟩, by decide, _, rfl⟩
theorem witness_OnlyWriters : ∃ t, exec .phAppend (staged 2) = .next t := ⟨_, rfl⟩
theorem witness_LatchesAndHistoryStay : (∃ t, exec .phHalt { staged 6 with fl.halt := true, fl.intPending := true } = .next t) :=
  ⟨_, rfl⟩
theorem witness_PinTransactionSucceeds : ((answered (okAnswers 1) claimed).answerAt 0).ok = true := by decide
theorem witness_PinTransactionFails : ((answered [failing] claimed).answerAt 0).ok = false ∧
    (∃ l, Instr.write 7 .low = .write 7 l ∧ PinOp.write .low = .write l) := ⟨by decide, _, rfl, rfl⟩

/-- The hypotheses of ClaimClaimsPins and of StartClaimsFirst, which are the same. -/
theorem witness_ClaimClaimsPins : let s := answered (okAnswers 7) configured
    s.sq.lc = .idle ∧ s.fl.claimed = false ∧ 1 ≤ s.cfg.nch.toNat ∧ s.busPins.Nodup ∧
      s.allOk 0 (2 * s.cfg.nch.toNat + 3) := by
  unfold State.allOk
  decide +kernel
theorem witness_StartClaimsFirst : let s := answered (okAnswers 7) configured
    s.sq.lc = .idle ∧ s.fl.claimed = false ∧ 1 ≤ s.cfg.nch.toNat ∧ s.busPins.Nodup ∧
      s.allOk 0 (2 * s.cfg.nch.toNat + 3) := witness_ClaimClaimsPins
/-- Claimed; unclaimed without a channel; unclaimed with two equal pins (K2, K9, K8). -/
theorem witness_ClaimWithoutTransactions : (claimed.sq.lc = .idle ∧ claimed.fl.claimed = true) ∧
    (State.reset.sq.lc = .idle ∧ State.reset.fl.claimed = false ∧ State.reset.cfg.nch = 0) ∧
    let s : State := { configured with cfg.clkPin := 8 }
    s.sq.lc = .idle ∧ s.fl.claimed = false ∧ ¬ s.busPins.Nodup := by decide +kernel
theorem witness_ReleaseFreesPins : claimed.sq.lc ≠ .running ∧ stopped.sq.lc ≠ .running := by decide
theorem witness_ReleaseIsIdempotent : claimed.sq.lc ≠ .running ∧ ∃ t, exec .release claimed = .next t :=
  ⟨by decide, ⟨_, rfl⟩⟩

theorem witness_RdframeAssemblesFrame : let s := answered (okAnswers 98) claimed
    s.sq.lc = .idle ∧ s.fl.claimed = true ∧ (1 : BitVec 8).toNat < s.cfg.nch.toNat ∧ s.allOk 0 98 := by
  unfold State.allOk
  decide +kernel
/-- Failures at the first transaction, at a READ and at the last transaction. -/
theorem witness_RdframeFailureAborts : ∀ n ∈ [0, 14, 97], let s := answered (okAnswers n ++ [failing]) claimed
    s.sq.lc = .idle ∧ s.fl.claimed = true ∧ (1 : BitVec 8).toNat < s.cfg.nch.toNat ∧ n < 98 ∧ s.allOk 0 n ∧
      (s.answerAt n).ok = false := by
  unfold State.allOk
  decide +kernel
/-- A RDREADING whose second frame fails, and a START that completes. -/
theorem witness_IdleCommandOutcomes : claimed.sq.lc = .idle ∧
    (∃ t, exec (.rdreading 1) (answered (okAnswers 100 ++ [failing]) claimed) = .next t) ∧
    ∃ t, exec .start (answered (okAnswers 7) configured) = .next t := ⟨rfl, ⟨_, rfl⟩, _, rfl⟩
theorem witness_GetrjReadsReferenceJunction : let s := answered (frameAnswers 0x01901680) claimed
    s.sq.lc = .idle ∧ s.fl.claimed = true ∧ (0 : BitVec 8).toNat < s.cfg.nch.toNat ∧ s.answersFrame 0 0x01901680 := by
  unfold State.answersFrame State.allOk
  decide +kernel
/-- A frame with its fault flag clear and one with it set. -/
theorem witness_GetReadsThermocouple :
    (let s := answered (frameAnswers 0xFFFEFFFF) claimed;
      s.sq.lc = .idle ∧ s.fl.claimed = true ∧ (1 : BitVec 8).toNat < s.cfg.nch.toNat ∧ s.answersFrame 0 0xFFFEFFFF ∧
        (0xFFFEFFFF : Word32).getLsbD 16 = false) ∧
    (let s := answered (frameAnswers 0x00010001) claimed;
      s.sq.lc = .idle ∧ s.fl.claimed = true ∧ (1 : BitVec 8).toNat < s.cfg.nch.toNat ∧ s.answersFrame 0 0x00010001 ∧
        (0x00010001 : Word32).getLsbD 16 = true) := by
  unfold State.answersFrame State.allOk
  decide +kernel
/-- A second frame without a fault (G15's shape) and one with its fault flag set (G17's). -/
theorem witness_RdreadingReadsTwoFrames : ∀ g ∈ [0x01941690, 0x01910001],
    let G : Word32 := BitVec.ofNat 32 g
    let s := answered (frameAnswers 0x01901680 ++ frameAnswers G) claimed
    s.sq.lc = .idle ∧ s.fl.claimed = true ∧ (0 : BitVec 8).toNat < s.cfg.nch.toNat ∧ s.answersFrame 0 0x01901680 ∧
      s.answersFrame 98 G := by
  unfold State.answersFrame State.allOk
  decide +kernel
/-- Unclaimed with a bad index too (F10); claimed with the index NCH (F11) and 255. -/
theorem witness_ChannelCommandRefusals : configured.sq.lc = .idle ∧ configured.fl.claimed = false ∧
    claimed.sq.lc = .idle ∧ claimed.fl.claimed = true ∧ claimed.cfg.nch.toNat ≤ (2 : BitVec 8).toNat ∧
    claimed.cfg.nch.toNat ≤ (255 : BitVec 8).toNat := by decide
theorem witness_FieldsAreTwosComplement : configured.sq.lc = .idle := rfl
/-- m = 0, 1 and 0x7FF, with other bits of the frame set. -/
theorem witness_ReferenceJunctionRoundTrip : rjFieldOf 0xFFFF000F = BitVec.ofNat 12 0 ∧
    rjFieldOf 0xFFFFFFFF = BitVec.ofNat 12 (0x1000 - 1) ∧ rjFieldOf 0x00008010 = BitVec.ofNat 12 (0x1000 - 0x7FF) ∧
    rjFieldOf 0x00007FF0 = BitVec.ofNat 12 0x7FF := by decide
theorem witness_ClassifyTruthTable : configured.sq.lc = .idle ∧
    ([0x00000007, 0x00010007, 0x00010006, 0x00010004, 0x00010000].map classifyFrame) =
      [.none, .openCircuit, .shortToGround, .shortToVcc, .unknown] := by decide
theorem witness_TounitConvertsExactly : configured.sq.lc = .idle := rfl
theorem witness_BusyCommands : (running 3).sq.lc ≠ .idle ∧ stopped.sq.lc ≠ .idle ∧ (running 3).sq.lc = .running ∧
    Instr.start ∈ [Instr.claim, .tcfield, .rjfield, .classify, .start] ∧ (2 : BitVec 2) ≠ 3 ∧
    decodeCmdWrite 0x5800 = some .start ∧ ∃ t, exec (.regwr 0 0x5800) stopped = .next t :=
  ⟨by decide, by decide, by decide, by decide, by decide, by decide, _, rfl⟩
theorem witness_StartEntersRunning : claimed.sq.lc = .idle ∧ claimed.fl.claimed = true ∧ 1 ≤ claimed.cfg.nch.toNat := by
  decide

/-- Under QuarantineFaultingChannel: channel 0 quarantined, channel 1 faulting. -/
theorem witness_PhSampleVisitsEveryChannel :
    let s := answered (frameAnswers 0x01901680 ++ frameAnswers 0x00010001)
      { running 1 with cfg.policy := .quarantineFaultingChannel, tab.quar := (running 1).tab.quar.set 0 true }
    s.params.wf ∧ s.cfg.nch.toNat ≤ s.params.nchMax ∧ s.cfg.policy = .quarantineFaultingChannel ∧ s.quarAt 0 = true ∧
    ∀ i, i < s.cfg.nch.toNat → s.quarAt i = false →
      s.answersFrame (196 * s.activeBelow i) 0x01901680 ∧ s.answersFrame (196 * s.activeBelow i + 98) 0x00010001 := by
  unfold State.answersFrame State.allOk
  decide +kernel
/-- Under HaltOnFault: a pass without a fault. -/
theorem witness_PhSampleVisitsEveryChannel_haltOnFault :
    let s := answered ((List.replicate 4 (frameAnswers 0x01901680)).flatten) (running 1)
    s.params.wf ∧ s.cfg.nch.toNat ≤ s.params.nchMax ∧ (0x01901680 : Word32).getLsbD 16 = false ∧
    ∀ i, i < s.cfg.nch.toNat → s.quarAt i = false →
      s.answersFrame (196 * s.activeBelow i) 0x01901680 ∧ s.answersFrame (196 * s.activeBelow i + 98) 0x01901680 := by
  unfold State.answersFrame State.allOk
  decide +kernel
/-- The last channel faults (S3). -/
theorem witness_PhSampleHaltsOnFault :
    let s := answered (frameAnswers 0x01901680 ++ frameAnswers 0x01901680 ++ frameAnswers 0x01A01700
      ++ frameAnswers 0x01A10004) (running 1)
    let FR : Nat → Word32 := fun i => if i = 0 then 0x01901680 else 0x01A01700
    let FT : Nat → Word32 := fun i => if i = 0 then 0x01901680 else 0x01A10004
    s.params.wf ∧ s.cfg.nch.toNat ≤ s.params.nchMax ∧ s.cfg.policy = .haltOnFault ∧ 1 < s.cfg.nch.toNat ∧
    (∀ i, i ≤ 1 → s.quarAt i = false) ∧
    (∀ i, i ≤ 1 → s.answersFrame (196 * i) (FR i) ∧ s.answersFrame (196 * i + 98) (FT i)) ∧
    (∀ i, i < 1 → (FT i).getLsbD 16 = false) ∧ (FT 1).getLsbD 16 = true := by
  unfold State.answersFrame State.allOk
  decide +kernel
theorem witness_PhSampleOutcomes : (running 1).params.wf ∧ (running 1).cfg.nch.toNat ≤ (running 1).params.nchMax ∧
    (running 1).sq.lc = .running ∧ ∃ t, exec .phSample (running 1) = .next t := ⟨by decide, by decide, by decide, _, rfl⟩
theorem witness_PhAppendCommitsColumn : (staged 2).params.wf ∧ (staged 2).cfg.nch.toNat ≤ (staged 2).params.nchMax ∧
    (staged 2).tab.stageLen = (staged 2).cfg.nch := by decide
theorem witness_PhAppendContractViolation : let s : State := { staged 2 with tab.stageLen := 1 }
    s.tab.stageLen ≠ s.cfg.nch := by decide
/-- The first tick and the last. -/
theorem witness_PhTickCounts : (running 4).sq.tick.toNat < (running 4).cfg.maxTicks.toNat ∧
    let s : State := { running 4 with sq.tick := 2 }
    s.sq.tick.toNat < s.cfg.maxTicks.toNat := by decide
/-- The three ways: going on at the last tick, Completed at MAX_TICKS whatever the latch holds, Interrupted before. -/
theorem witness_PhBoundaryDecides :
    (let s : State := { running 0 with sq.tick := 2 };
      s.sq.tick.toNat < s.cfg.maxTicks.toNat ∧ s.fl.intPending = false) ∧
    (let s : State := { running 0 with sq.tick := 3, fl.intPending := true };
      s.cfg.maxTicks.toNat ≤ s.sq.tick.toNat ∧ StopReason.completed = .completed) ∧
    (let s : State := { running 0 with sq.tick := 2, fl.intPending := true };
      s.sq.tick.toNat < s.cfg.maxTicks.toNat ∧ s.fl.intPending = true ∧ StopReason.interrupted = .interrupted) := by
  decide
/-- States whose enumerated registers hold the last member of each list (rules R27, R30, R34, R40, R43, R90). -/
theorem witness_RegrdAnswersReadView : let s : State :=
      { configured with
        cfg.unit := .fahrenheit, cfg.policy := .quarantineFaultingChannel, dp.fs := .unknown, dp.vscale := .rj
        dp.vunit := .fahrenheit }
    ([0x05, 0x08, 0x0F, 0x11].map fun n => regRead n s) = [2, 1, 4, 6] := by decide +kernel
theorem witness_StatusLayout : let s : State :=
      { configured with
        sq.lc := .aborted, sq.stopReason := .contractViolation, fl.err := .notClaimed, fl.halt := true, sq.phase := 6 }
    regRead 0x01 s = 0b110_101_1_0_0_101_11 := by decide +kernel
/-- The last slot of the parameters, the first beyond them, and the last register number of a window. -/
theorem witness_RegrdTableWindows : (7 < 32 ∧ 7 < configured.params.nchMax) ∧ (8 < 32 ∧ configured.params.nchMax ≤ 8) ∧
    (31 < 32 ∧ configured.params.nchMax ≤ 31 ∧ 0x80 ∈ [0x20, 0x40, 0x60, 0x80]) := by decide
/-- Inside at the last entry; outside at BUF_LEN; outside at NCH; BUF_CH 63. -/
theorem witness_BufferWindow : (63 : Word32).toNat < 2 ^ 6 ∧
    (midway.buf.selCh.toNat < midway.cfg.nch.toNat ∧ midway.buf.selTick.toNat < midway.buf.len.toNat) ∧
    (let s : State := { midway with buf.selTick := 1 };
      ¬ (s.buf.selCh.toNat < s.cfg.nch.toNat ∧ s.buf.selTick.toNat < s.buf.len.toNat)) ∧
    (let s : State := { midway with buf.selCh := 2 };
      ¬ (s.buf.selCh.toNat < s.cfg.nch.toNat ∧ s.buf.selTick.toNat < s.buf.len.toNat)) ∧
    ∃ t, exec (.regwr 0x17 63) midway = .next t :=
  ⟨by decide, by decide, by decide, by decide, _, rfl⟩
theorem witness_SignedRegisterReads : let s : State := { configured with dp.res := entryReading .kelvin .tc (-2) }
    s.dp.res = entryReading .kelvin .tc (-2) := rfl
/-- The ends of each range of numbers, with NCH_MAX = 8. -/
theorem witness_ReservedAndReadOnlyRegisters : configured.params.wf ∧ configured.params.nchMax = 8 ∧
    [0x1B, 0x1F, 0x28, 0x3F, 0x48, 0x9F, 0xA0, 0xFF].all (fun n => regRead (BitVec.ofNat 8 n) claimed == 0) = true ∧
    [0x01, 0x09, 0x0B, 0x16, 0x19, 0x1A, 0x40, 0x47, 0x60, 0x67, 0x80, 0x87, 0x1B, 0xFF].all (fun n =>
      after (.regwr (BitVec.ofNat 8 n) 0) configured (fun t => t.fl.err == .illegalCommand)) = true := by decide +kernel
/-- Idle and unclaimed; the ends of each range: NCH 1 and NCH_MAX, pin id 255, slot NCH_MAX - 1, MAX_TICKS = BUF_DEPTH,
BUF_CH 63, the last unit and policy. -/
theorem witness_RegwrAcceptedWrites : configured.params.wf ∧ configured.sq.lc = .idle ∧ configured.fl.claimed = false ∧
    (8 : Word32).toNat ≤ configured.params.nchMax ∧ (255 : Word32).toNat < 2 ^ 8 ∧ 7 < configured.params.nchMax ∧
    (1000 : Word32).toNat ≤ configured.params.bufDepth ∧ (63 : Word32).toNat < 2 ^ 6 ∧
    (TempUnit.fahrenheit, (2 : Word32).toNat) ∈ [(TempUnit.celsius, 0), (.kelvin, 1), (.fahrenheit, 2)] ∧
    (Policy.quarantineFaultingChannel, (1 : Word32).toNat) ∈
      [(Policy.haltOnFault, 0), (.quarantineFaultingChannel, 1)] := by decide
/-- Each refusal once, at the ends of the ranges of the register number and of the value. -/
theorem witness_RegwrRefusals : configured.params.wf ∧
    (0x1F : RegNum).toNat ∉ [2, 3, 4, 5, 6, 7, 8, 0x0A] ∧ ¬ (0x28 : RegNum).toNat < 0x20 + configured.params.nchMax ∧
    (0x27 : RegNum).toNat < 0x20 + configured.params.nchMax ∧ 2 ^ 6 ≤ (64 : Word32).toNat ∧
    (running 3).sq.lc ≠ .idle ∧ claimed.sq.lc = .idle ∧ claimed.fl.claimed = true ∧
    configured.params.nchMax < (9 : Word32).toNat ∧ 2 ^ 8 ≤ (256 : Word32).toNat ∧ 3 ≤ (3 : Word32).toNat ∧
    configured.params.bufDepth < (1001 : Word32).toNat ∧ 2 ≤ (2 : Word32).toNat := by decide

end Sys2Proof.Tests
end

/-! What an operation can do, said once: the relations a channel read keeps, the effects of a command, of a register
write and of a step. The proofs about `exec` and `step` below go through these. -/

namespace Sys2Proof.Machine

/-! ### Operations that may raise, related to the state they began in -/

section Keeps
variable {α β : Type} {R : State → State → Prop} {s : State}

/-- Whether the operation completes or raises, `R` relates `s` to the state it leaves; it raises nothing but
TransportFailure. -/
def Flow.Keeps (R : State → State → Prop) (s : State) (m : Flow α) : Prop :=
  m.Post (fun _ t => R s t) (fun x t => x = .transportFailure ∧ R s t)

theorem Flow.Keeps.andThen {m : Flow α} {k : α → State → Flow β} (trans : ∀ s t u, R s t → R t u → R s u)
    (hm : m.Keeps R s) (hk : ∀ a t, (k a t).Keeps R t) : (m.andThen k).Keeps R s :=
  Flow.Post.andThen hm fun a t h =>
    (hk a t).mono (fun _ u k => trans s t u h k) fun _ u k => ⟨k.1, trans s t u h k.2⟩

theorem Flow.Post.and {m : Flow α} {P P' : α → State → Prop} {Q Q' : Cause → State → Prop} (h : m.Post P Q)
    (h' : m.Post P' Q') : m.Post (fun a t => P a t ∧ P' a t) (fun x t => Q x t ∧ Q' x t) := by
  cases m with
  | done a t => exact ⟨h, h'⟩
  | raised x t => exact ⟨h, h'⟩

/-- The settled state of an operation that keeps `R`: reached by `R`, or the abort of such a state. -/
theorem Flow.Keeps.settle_cases {m : Flow α} (h : m.Keeps R s) :
    R s m.settle ∨ ∃ t, R s t ∧ m.settle = abort .transportFailure t := by
  cases m with
  | done a t => exact .inl h
  | raised x t =>
    obtain ⟨rfl, ht⟩ := h
    exact .inr ⟨t, ht, rfl⟩

end Keeps

/-! ### What a channel's operations keep -/

/-- RES and RJRES hold entries of a kind that exists (rule R86). -/
def GoodResults (d : Datapath) : Prop := entryKind d.res ≠ 3 ∧ entryKind d.rjres ≠ 3

/-- Events are only added (rule R57). -/
def Grows (s t : State) : Prop := ∃ l, t.history = l ++ s.history

theorem Grows.refl (s : State) : Grows s s := ⟨[], rfl⟩

theorem Grows.trans {s t u : State} : Grows s t → Grows t u → Grows s u := by
  rintro ⟨l, hl⟩ ⟨m, hm⟩
  exact ⟨m ++ l, by rw [hm, hl, List.append_assoc]⟩

theorem Grows.of_history_eq {s t : State} (h : t.history = s.history) : Grows s t := ⟨[], by simp [h]⟩

theorem grows_emit (e : Event) (s : State) : Grows s (s.emit e) := ⟨[e], rfl⟩

/-- `t` differs from `s` as a channel's operations allow, with good entries in RES and RJRES kept good and events only
added. -/
structure Acquired (s t : State) : Prop extends OnlyChannel s t where
  results : GoodResults s.dp → GoodResults t.dp
  grows : Grows s t

theorem Acquired.refl (s : State) : Acquired s s := ⟨.refl s, id, .refl s⟩

theorem Acquired.trans (s t u : State) (h : Acquired s t) (k : Acquired t u) : Acquired s u :=
  ⟨h.toOnlyChannel.trans k.toOnlyChannel, fun g => k.results (h.results g), h.grows.trans k.grows⟩

/-- A change of other datapath registers than RES and RJRES, and of CH. -/
theorem Acquired.of_eq {s t : State} (h : OnlyChannel s t) (hres : t.dp.res = s.dp.res) (hrj : t.dp.rjres = s.dp.rjres)
    (hh : t.history = s.history) : Acquired s t :=
  ⟨h, fun g => by simpa [GoodResults, hres, hrj] using g, .of_history_eq hh⟩

theorem acquired_frameHead (ch : Nat) (s : State) : Acquired s (frameHead ch s) :=
  .of_eq (by constructor <;> rfl) rfl rfl rfl

theorem acquired_shiftIn (b : BitVec 1) (s : State) : Acquired s (shiftIn b s) :=
  .of_eq (by constructor <;> rfl) rfl rfl rfl

theorem acquired_latchFrame (s : State) : Acquired s (latchFrame s) :=
  .of_eq (by constructor <;> rfl) rfl rfl rfl

theorem acquired_drawn_emit (e : Event) (s : State) : Acquired s (s.drawn.emit e) :=
  ⟨by constructor <;> rfl, id, [e], rfl⟩

theorem acquired_afterWrite (p : PinId) (l : Level) (s : State) : Acquired s (afterWrite p l s) :=
  ⟨by constructor <;> rfl, id, [.pin (.write l) p .ok], rfl⟩

theorem acquired_finishRj (s : State) : Acquired s (finishRj s) :=
  ⟨onlyChannel_finishRj s, fun g => ⟨g.1, by rw [finishRj_eq]; simp [entryKind_reading]⟩, .of_history_eq rfl⟩

theorem acquired_finishTc (s : State) : Acquired s (finishTc s) := by
  refine ⟨onlyChannel_finishTc s, fun g => ?_, ?_⟩ <;> by_cases h : classifyFrame s.dp.frame = .none
  · rw [finishTc_reading s h]
    exact ⟨by simp [entryKind_reading], g.2⟩
  · rw [finishTc_fault s h]
    exact ⟨by simp [entryKind_fault], g.2⟩
  · rw [finishTc_reading s h]; exact .of_history_eq rfl
  · rw [finishTc_fault s h]; exact .of_history_eq rfl

theorem keeps_pinWrite (p : PinId) (l : Level) (s : State) :
    (pinWrite p l s).Keeps (fun s t => Acquired s t ∧ t.sq = s.sq) s := by
  rw [pinWrite_eq]
  split
  · exact ⟨acquired_afterWrite p l s, rfl⟩
  · exact ⟨rfl, acquired_drawn_emit _ s, rfl⟩

theorem keeps_sampleBit (s : State) : (sampleBit s).Keeps (fun s t => Acquired s t ∧ t.sq = s.sq) s := by
  unfold sampleBit
  rw [pinRead_eq]
  split
  · exact ⟨.trans _ _ _ (acquired_drawn_emit _ s) (acquired_shiftIn _ _), rfl⟩
  · exact ⟨rfl, acquired_drawn_emit _ s, rfl⟩

theorem acquired_sq_trans (s t u : State) (h : Acquired s t ∧ t.sq = s.sq) (k : Acquired t u ∧ u.sq = t.sq) :
    Acquired s u ∧ u.sq = s.sq := ⟨.trans _ _ _ h.1 k.1, k.2.trans h.2⟩

/-- One pin transaction of a frame read, with the assignments that follow it (rules R117, R118). -/
theorem keeps_framePin (ch done : Nat) (s : State) :
    (framePin ch done s).Keeps (fun s t => Acquired s t ∧ t.sq = s.sq) s := by
  unfold framePin
  split
  · exact keeps_pinWrite _ _ _
  · split
    · exact (keeps_pinWrite _ _ _).andThen acquired_sq_trans fun _ t => ⟨acquired_latchFrame t, rfl⟩
    · split
      · exact keeps_pinWrite _ _ _
      · exact keeps_sampleBit _
      · exact keeps_pinWrite _ _ _

theorem keeps_clockPulses (n : Nat) (s : State) :
    (clockPulses n s).Keeps (fun s t => Acquired s t ∧ t.sq = s.sq) s := by
  induction n generalizing s with
  | zero => exact ⟨.refl s, rfl⟩
  | succ n ih =>
    refine Flow.Keeps.andThen acquired_sq_trans ?_ fun _ t => ih t
    exact (keeps_pinWrite _ _ _).andThen acquired_sq_trans fun _ t =>
      (keeps_sampleBit t).andThen acquired_sq_trans fun _ _ => keeps_pinWrite _ _ _

/-- The operations a channel command can run (rules R117, R155 to R157). -/
def channelBodies : List (Nat → State → Flow Unit) := [readFrame, getRj, getTc, readReading]

theorem acquires_readFrame (ch : Nat) (s : State) : (readFrame ch s).Keeps Acquired s := by
  have body := (keeps_pinWrite (s.csPinAt ch) .low (frameHead ch s)).andThen acquired_sq_trans fun _ t =>
    (keeps_clockPulses 32 t).andThen acquired_sq_trans fun _ u =>
      (keeps_pinWrite (u.csPinAt ch) .high u).andThen acquired_sq_trans
        (k := fun _ v => Flow.done () (latchFrame v)) fun _ v => ⟨acquired_latchFrame v, rfl⟩
  exact body.mono (fun _ _ h => .trans _ _ _ (acquired_frameHead ch s) h.1)
    fun _ _ h => ⟨h.1, .trans _ _ _ (acquired_frameHead ch s) h.2.1⟩

theorem acquires_getRj (ch : Nat) (s : State) : (getRj ch s).Keeps Acquired s :=
  (acquires_readFrame ch s).andThen Acquired.trans fun _ => acquired_finishRj

theorem acquires_getTc (ch : Nat) (s : State) : (getTc ch s).Keeps Acquired s :=
  (acquires_readFrame ch s).andThen Acquired.trans fun _ => acquired_finishTc

theorem acquires_readReading (ch : Nat) (s : State) : (readReading ch s).Keeps Acquired s :=
  (acquires_getRj ch s).andThen Acquired.trans fun _ => acquires_getTc ch

theorem acquires_channelBody {body : Nat → State → Flow Unit} (hb : body ∈ channelBodies) (ch : Nat) (s : State) :
    (body ch s).Keeps Acquired s := by
  simp only [channelBodies, List.mem_cons, List.not_mem_nil, or_false] at hb
  rcases hb with rfl | rfl | rfl | rfl
  · exact acquires_readFrame ch s
  · exact acquires_getRj ch s
  · exact acquires_getTc ch s
  · exact acquires_readReading ch s

/-! ### The effects of a command (rules R198, R200) -/

/-- What a command other than INTR can leave: an answer in ERR alone; in Idle, a datapath register computed, the pins
claimed, a channel read, the session started; outside Running, the pins released. -/
inductive CommandEffect (s : State) : State → Prop
  | answers (e : ErrCode) : CommandEffect s (refuse e s)
  | computes (d : Datapath) (hi : s.sq.lc = .idle) (hres : d.res = s.dp.res) (hrj : d.rjres = s.dp.rjres) :
      CommandEffect s { accept s with dp := d }
  | claims (hi : s.sq.lc = .idle) (hc : s.fl.claimed = false) (ha : claimable s = true) :
      CommandEffect s (claimPins (accept s)).settle
  | releases (hr : s.sq.lc ≠ .running) : CommandEffect s (release (accept s))
  | reads (body : Nat → State → Flow Unit) (ch : Nat) (hb : body ∈ channelBodies) (hi : s.sq.lc = .idle)
      (hc : s.fl.claimed = true) (hn : ch < s.cfg.nch.toNat) : CommandEffect s (body ch (accept s)).settle
  | starts (hi : s.sq.lc = .idle) (hc : s.fl.claimed = true) (hn : 1 ≤ s.cfg.nch.toNat) :
      CommandEffect s (enterRunning (accept s))
  | claimsAndStarts (hi : s.sq.lc = .idle) (hc : s.fl.claimed = false) (ha : claimable s = true) :
      CommandEffect s ((claimPins (accept s)).andThen fun _ t => .done () (enterRunning t)).settle

/-- The state INTR leaves (rule R191). -/
def interrupted (s : State) : State := { accept s with fl.intPending := true }

/-- A command accepted in Idle only: Busy elsewhere (rule R200). -/
theorem CommandEffect.of_inIdle {s : State} {k : State → State} (h : s.sq.lc = .idle → CommandEffect s (k s)) :
    CommandEffect s (inIdle s k) := by
  unfold inIdle
  split
  · exact h ‹_›
  · exact .answers _

theorem channelCommand_effect {body : Nat → State → Flow Unit} (hb : body ∈ channelBodies) (ch : BitVec 8) (s : State) :
    CommandEffect s (channelCommand ch body s) := by
  refine .of_inIdle fun hi => ?_
  split
  · exact .answers _
  · split
    · exact .answers _
    · rename_i hc hn
      exact .reads body ch.toNat hb hi (by simpa using hc) (by omega)

theorem claimCommand_effect (s : State) : CommandEffect s (claimCommand s) := by
  refine .of_inIdle fun hi => ?_
  split
  · exact .answers _
  · rename_i hc
    split
    · exact .claims hi (by simpa using hc) ‹_›
    · exact .answers _

theorem startCommand_effect (s : State) : CommandEffect s (startCommand s) := by
  refine .of_inIdle fun hi => ?_
  split
  · exact .answers _
  · split
    · exact .starts hi ‹_› (by omega)
    · rename_i hc
      split
      · exact .claimsAndStarts hi (by simpa using hc) ‹_›
      · exact .answers _

theorem releaseCommand_effect (s : State) : CommandEffect s (releaseCommand s) := by
  unfold releaseCommand
  split
  · exact .answers _
  · exact .releases ‹_›

/-- Every command is INTR or has one of the effects listed. -/
theorem exec_command {i : Instr} {s t : State} (hi : isCommand i = true) (h : exec i s = .next t) :
    i = .intr ∧ t = interrupted s ∨ CommandEffect s t := by
  by_cases hintr : i = .intr
  · subst hintr
    cases h
    exact .inl ⟨rfl, rfl⟩
  refine .inr ?_
  cases i with
  | claim => cases h; exact claimCommand_effect s
  | release => cases h; exact releaseCommand_effect s
  | rdframe ch => cases h; exact channelCommand_effect (by simp [channelBodies]) ch s
  | getrj ch => cases h; exact channelCommand_effect (by simp [channelBodies]) ch s
  | get ch => cases h; exact channelCommand_effect (by simp [channelBodies]) ch s
  | rdreading ch => cases h; exact channelCommand_effect (by simp [channelBodies]) ch s
  | start => cases h; exact startCommand_effect s
  | intr => exact absurd rfl hintr
  | tcfield => cases h; exact .of_inIdle fun hi => .computes (tcField (accept s)).dp hi rfl rfl
  | rjfield => cases h; exact .of_inIdle fun hi => .computes (rjField (accept s)).dp hi rfl rfl
  | classify => cases h; exact .of_inIdle fun hi => .computes (classify (accept s)).dp hi rfl rfl
  | tounit src unit =>
    simp only [exec, execTounit, Host.Outcome.next.injEq] at h
    subst h
    split
    · exact .answers _
    · exact .of_inIdle fun hi => .computes (toUnit src _ (accept s)).dp hi rfl rfl
  | _ => cases hi

/-! ### The effects of a register write (rules R196 to R198) -/

/-- What a register write can leave: a command's effect, a refusal among them; a window register stored; in Idle,
another writable register stored with a legal value, a pin register only while no pin is claimed. -/
inductive RegwrEffect (s : State) : State → Prop
  | command (t : State) (h : CommandEffect s t) : RegwrEffect s t
  | interrupts : RegwrEffect s (interrupted s)
  | window (r : Reg) (w : Word32) (hr : r.isWindow = true) : RegwrEffect s (accept (storeReg r w s))
  | config (r : Reg) (width : Nat) (w : Word32) (hw : r.writeWidth = some width) (hr : r.isWindow = false)
      (hi : s.sq.lc = .idle) (hp : r.isPinReg = true → s.fl.claimed = false)
      (hv : badValue s.params r width w = false) : RegwrEffect s (accept (storeReg r w s))

theorem onlyConfig_accept_storeReg (r : Reg) (w : Word32) (s : State) : OnlyConfig s (accept (storeReg r w s)) := by
  cases r <;> constructor <;> rfl

theorem writeReg_effect {r : Reg} {width : Nat} (hw : r.writeWidth = some width) (w : Word32) (s : State) :
    RegwrEffect s (writeReg r width w s) := by
  unfold writeReg
  split
  · split
    · exact .command _ (.answers _)
    · exact .window r w ‹_›
  · split
    · exact .command _ (.answers _)
    · split
      · exact .command _ (.answers _)
      · rename_i hwin hlc hpin
        split
        · exact .command _ (.answers _)
        · rename_i hbad
          exact .config r width w hw (by simpa using hwin) (by simpa using hlc) (by simpa using hpin)
            (by simpa using hbad)

/-- A write to CMD runs the command the word decodes to, or is refused (rule R198). -/
theorem command_effect {w : Word32} {s t : State} (h : command w s = .next t) : RegwrEffect s t := by
  unfold command at h
  split at h
  · cases h; exact .command _ (.answers _)
  · rename_i i hd
    have hc : isCommand i = true := by
      unfold decodeCmdWrite at hd
      split at hd
      · exact decodeCmd_isCommand _ _ hd
      · cases hd
    have hx : exec i s = .next t := by cases i <;> first | exact h | cases hc
    rcases exec_command hc hx with ⟨-, rfl⟩ | k
    · exact .interrupts
    · exact .command _ k

theorem exec_regwr_effect {rn : RegNum} {w : Word32} {s t : State} (h : exec (.regwr rn w) s = .next t) :
    RegwrEffect s t := by
  simp only [exec, execRegwr] at h
  split at h
  · exact command_effect h
  · unfold configWrite at h
    split at h
    · cases h; exact .command _ (.answers _)
    · split at h
      · cases h; exact .command _ (.answers _)
      · cases h; exact writeReg_effect ‹_› w s

/-! ### The effects of a step -/

/-- What a step other than a reset can leave, from the state with the turn used up and no PIN word waiting. -/
inductive StepEffect (s : State) : State → Prop
  | reads (w : Word32) : StepEffect s { s with io.replies := w :: s.io.replies }
  | writes (t : State) (h : RegwrEffect s t) : StepEffect s t
  | rests (hr : s.sq.lc ≠ .running) : StepEffect s s
  | micro (hr : s.sq.lc = .running) (hp : s.io.pos.isSome = true ∨ s.sq.phase = 1) : StepEffect s (sampleMicro s)
  | boundary (hr : s.sq.lc = .running) (hp : s.io.pos = none) (hph : s.sq.phase = 0) : StepEffect s (phBoundary s)
  | sample (hr : s.sq.lc = .running) (hp : s.io.pos = none) (hph : s.sq.phase = 1) : StepEffect s (phSample s).settle
  | append (hr : s.sq.lc = .running) (hp : s.io.pos = none) (hph : s.sq.phase = 2) : StepEffect s (phAppend s).settle
  | telem (hr : s.sq.lc = .running) (hp : s.io.pos = none) (hph : s.sq.phase = 3) :
      StepEffect s ((emitTelem s).goto 4)
  | tick (hr : s.sq.lc = .running) (hp : s.io.pos = none) (hph : s.sq.phase = 4) : StepEffect s (phTick s)
  | sleep (hr : s.sq.lc = .running) (hp : s.io.pos = none) (hph : s.sq.phase = 5) : StepEffect s (phSleep s)
  | halt (hr : s.sq.lc = .running) (hp : s.io.pos = none) (hph : s.sq.phase = 6) :
      StepEffect s (stop .faultHalt (emitTelem s))

/-- The step PHASE names, run in Running with no step in progress. -/
theorem phase_effect {s t : State} {i : Instr} (hr : s.sq.lc = .running) (hp : s.io.pos = none)
    (hd : decodeSeq s.sq.phase = some i) (h : exec i s = .next t) : StepEffect s t := by
  have hph := s.sq.phase.isLt
  have key : ∀ n, s.sq.phase.toNat = n → s.sq.phase = BitVec.ofNat 3 n := by
    rintro n rfl; simp
  unfold decodeSeq at hd
  split at hd <;> rename_i hn <;> cases hd <;> cases h
  · exact .boundary hr hp (key _ hn)
  · exact .sample hr hp (key _ hn)
  · exact .append hr hp (key _ hn)
  · exact .telem hr hp (key _ hn)
  · exact .tick hr hp (key _ hn)
  · exact .sleep hr hp (key _ hn)
  · exact .halt hr hp (key _ hn)

theorem exec_decodeBus_effect {w : BitVec 41} {s t : State} (h : exec (decodeBus w) s = .next t) : StepEffect s t := by
  unfold decodeBus at h
  split at h
  · exact .writes _ (exec_regwr_effect h)
  · cases h; exact .reads _

theorem popTurn_of_no_turns {s : State} (h : s.io.turns = []) : s.popTurn = s := by
  obtain ⟨_, _, _, _, _, _, _, _, _, io⟩ := s
  cases io
  simp_all [State.popTurn]

/-- What the core's turn can leave when no PIN word waits (rules R203, R204, R241). -/
theorem step_coreTurn_effect {fine : Bool} {s t : State} (hb : bugOf s = none) (hport : s.io.port = 0)
    (ha : nextAction s = coreTurn fine s.popTurn) (h : step s = .next t) : StepEffect s.popTurn t := by
  rcases coreTurn_cases fine s.popTurn hport with ⟨hr, hc⟩ | ⟨hr, hp, hc⟩ | ⟨hr, -, hp, hc⟩ | ⟨hr, hp, hc⟩ <;>
    rw [hc] at ha
  · cases (step_of_rest hb ha).symm.trans h; exact .rests hr
  · cases (step_of_micro hb ha).symm.trans h; exact .micro hr (.inl hp)
  · cases (step_of_micro hb ha).symm.trans h; exact .micro hr (.inr hp)
  · cases hd : decodeSeq s.sq.phase with
    | some i => exact phase_effect hr hp hd ((step_of_run hb ha hd).symm.trans h)
    | none => simp [step, hb, ha, decode, hd] at h

/-- A step that answers meets no condition of rule R226, and either it is a reset on a turn for one, or it has one of
the effects listed. -/
theorem step_effect {s t : State} (hport : s.io.port = 0) (h : step s = .next t) :
    bugOf s = none ∧
      ((∃ ts, s.io.turns = .reset :: ts) ∧ t = resetInput s.popTurn ∨ StepEffect s.popTurn t) := by
  have hb : bugOf s = none := by
    cases hb : bugOf s with
    | none => rfl
    | some f => rw [step_of_bug hb] at h; cases h
  refine ⟨hb, ?_⟩
  match ht : s.io.turns with
  | [] =>
    have ha : nextAction s = coreTurn false s.popTurn := by simp [nextAction, ht, popTurn_of_no_turns ht]
    exact .inr (step_coreTurn_effect hb hport ha h)
  | .host w :: _ =>
    have ha : nextAction s = .run (.bus w) s.popTurn := by simp [nextAction, ht]
    exact .inr (exec_decodeBus_effect ((step_of_run hb ha rfl).symm.trans h))
  | .coreStep :: _ => exact .inr (step_coreTurn_effect (fine := false) hb hport (by simp [nextAction, ht]) h)
  | .coreMicro :: _ => exact .inr (step_coreTurn_effect (fine := true) hb hport (by simp [nextAction, ht]) h)
  | .reset :: ts =>
    have ha : nextAction s = .reset s.popTurn := by simp [nextAction, ht]
    cases (step_of_reset hb ha).symm.trans h
    exact .inl ⟨⟨ts, rfl⟩, rfl⟩

end Sys2Proof.Machine

/-! The pass of PH_SAMPLE over the configured channels (spec/45_sampler_buffer.md rules R165 to R168), whole and by
micro-steps, packaged once as an induction over the channels; and the column PH_APPEND commits (rule R169). -/

namespace Sys2Proof.Machine

/-! ### The pass as an induction over the channels -/

/-- `P k` holds before the visit of channel `k` and is carried over the visits of the `n` channels: of one that is
passed over, of one that is quarantined after its reading, and of one whose reading is staged. -/
structure PassSteps (P : Nat → State → Prop) (n : Nat) : Prop where
  skip : ∀ k s, k < n → P k s → s.quarAt k = true → P (k + 1) (stageQuarantined k (visit k s))
  isolate : ∀ k s, k < n → P k s → s.faulted = true → s.cfg.policy = .quarantineFaultingChannel →
    P (k + 1) (quarantine k (stageReading k s))
  stage : ∀ k s, k < n → P k s → s.faulted = false → P (k + 1) (stageReading k s)

theorem channels_eq_range' (s : State) : s.channels = List.range' 0 s.cfg.nch.toNat := List.range_eq_range'

theorem channels_drop (s : State) (k : Nat) : s.channels.drop k = List.range' k (s.cfg.nch.toNat - k) := by
  rw [channels_eq_range', List.drop_range', Nat.zero_add, Nat.mul_one]

section Pass
variable {P : Nat → State → Prop} {n : Nat}

/-- The loop of PH_SAMPLE from channel `k` on: `D` holds where it ends, `Q` where it raises. -/
theorem PassSteps.sampleChannels (h : PassSteps P n) {D : State → Prop} {Q : Cause → State → Prop}
    (read : ∀ k s, k < n → P k s → (readReading k (visit k s)).Post (fun _ t => P k t) Q)
    (halt : ∀ k s, k < n → P k s → s.faulted = true → s.cfg.policy = .haltOnFault → D (haltSession (stageReading k s)))
    (last : ∀ s, P n s → D (s.goto 2)) (m k : Nat) (s : State) (hk : k + m = n) (hs : P k s) :
    (sampleChannels (List.range' k m) s).Post (fun _ t => D t) Q := by
  induction m generalizing k s with
  | zero => exact last s (by obtain rfl : k = n := hk; exact hs)
  | succ m ih =>
    have hlt : k < n := by omega
    rw [List.range'_succ]
    cases hq : s.quarAt k with
    | true =>
      rw [sampleChannels_quarantined k _ s hq]
      exact ih (k + 1) _ (by omega) (h.skip k s hlt hs hq)
    | false =>
      rw [sampleChannels_read k _ s hq]
      refine Flow.Post.andThen (read k s hlt hs) fun _ t ht => ?_
      cases hf : t.faulted with
      | false =>
        rw [afterReading_goes_on hf]
        exact ih (k + 1) _ (by omega) (h.stage k t hlt ht hf)
      | true =>
        cases hp : t.cfg.policy with
        | haltOnFault =>
          rw [afterReading_halts hf hp]
          exact halt k t hlt ht hf hp
        | quarantineFaultingChannel =>
          rw [afterReading_quarantines hf hp]
          exact ih (k + 1) _ (by omega) (h.isolate k t hlt ht hf hp)

/-- A whole PH_SAMPLE. -/
theorem PassSteps.phSample {s : State} (h : PassSteps P s.cfg.nch.toNat) {D : State → Prop} {Q : Cause → State → Prop}
    (read : ∀ k s', k < s.cfg.nch.toNat → P k s' → (readReading k (visit k s')).Post (fun _ t => P k t) Q)
    (halt : ∀ k s', k < s.cfg.nch.toNat → P k s' → s'.faulted = true → s'.cfg.policy = .haltOnFault →
      D (haltSession (stageReading k s')))
    (last : ∀ s', P s.cfg.nch.toNat s' → D (s'.goto 2)) (hs : P 0 (clearStaging s)) :
    (phSample s).Post (fun _ t => D t) Q := by
  unfold Machine.phSample
  rw [channels_eq_range']
  exact h.sampleChannels read halt last _ 0 _ (Nat.zero_add _) hs

/-- The same by micro-steps, from the visit of channel `k` to the next pin transaction or the end of the step. -/
theorem PassSteps.enterChannels (h : PassSteps P n) {E : State → Prop}
    (enter : ∀ k s, k < n → P k s → s.quarAt k = false →
      E { frameHead k (visit k s) with io.pos := some { second := false, done := 0 } })
    (last : ∀ s, P n s → E (({ s with io.pos := none } : State).goto 2)) (m k : Nat) (s : State) (hk : k + m = n)
    (hs : P k s) : E (enterChannels (List.range' k m) s) := by
  induction m generalizing k s with
  | zero => exact last s (by obtain rfl : k = n := hk; exact hs)
  | succ m ih =>
    have hlt : k < n := by omega
    rw [List.range'_succ]
    cases hq : s.quarAt k with
    | true =>
      rw [enterChannels_quarantined k _ s hq]
      exact ih (k + 1) _ (by omega) (h.skip k s hlt hs hq)
    | false =>
      rw [enterChannels_reads k _ s hq]
      exact enter k s hlt hs hq

/-- The same from the end of the visit of channel `k`. -/
theorem PassSteps.leaveChannel (h : PassSteps P n) {E : State → Prop}
    (halt : ∀ k s, k < n → P k s → s.faulted = true → s.cfg.policy = .haltOnFault →
      E (haltSession { stageReading k s with io.pos := none }))
    (enter : ∀ k s, k < n → P k s → s.quarAt k = false →
      E { frameHead k (visit k s) with io.pos := some { second := false, done := 0 } })
    (last : ∀ s, P n s → E (({ s with io.pos := none } : State).goto 2)) (k : Nat) (s : State) (hk : k < n)
    (hn : s.cfg.nch.toNat = n) (hs : P k s) : E (leaveChannel k s) := by
  have go : ∀ t, P (k + 1) t → E (Machine.enterChannels (s.channels.drop (k + 1)) t) := fun t ht => by
    rw [channels_drop]
    exact h.enterChannels enter last _ _ t (by omega) ht
  have hch : (stageReading k s).channels = s.channels := rfl
  have hfa : (stageReading k s).faulted = s.faulted := rfl
  unfold Machine.leaveChannel
  simp only [hch, hfa, stageReading_cfg]
  cases hf : s.faulted with
  | false => exact go _ (h.stage k s hk hs hf)
  | true =>
    cases hp : s.cfg.policy with
    | haltOnFault => exact halt k s hk hs hf hp
    | quarantineFaultingChannel => exact go _ (h.isolate k s hk hs hf hp)

end Pass

/-! ### The tables during the pass -/

theorem stageAt_clearStaging (s : State) (i : Nat) :
    (clearStaging s).stageAt i = if i < s.params.nchMax ∧ i < 32 then entryEmpty else s.stageAt i :=
  tabGet_fill _ _ _ _ _

theorem rjStageAt_clearStaging (s : State) (i : Nat) :
    (clearStaging s).rjStageAt i = if i < s.params.nchMax ∧ i < 32 then entryEmpty else s.rjStageAt i :=
  tabGet_fill _ _ _ _ _

theorem stageAt_stageReading (k i : Nat) (s : State) :
    (stageReading k s).stageAt i = if k = i ∧ i < 32 then s.dp.res else s.stageAt i := tabGet_tabSet _ _ _ _ _

theorem rjStageAt_stageReading (k i : Nat) (s : State) :
    (stageReading k s).rjStageAt i = if k = i ∧ i < 32 then s.dp.rjres else s.rjStageAt i := tabGet_tabSet _ _ _ _ _

theorem stageAt_stageQuarantined (k i : Nat) (s : State) :
    (stageQuarantined k s).stageAt i = if k = i ∧ i < 32 then entryFault (s.qfsAt k) else s.stageAt i :=
  tabGet_tabSet _ _ _ _ _

theorem toNat_ofNat_nch {s : State} {i : Nat} (h : i ≤ s.cfg.nch.toNat) : (BitVec.ofNat 6 i).toNat = i := by
  have := s.cfg.nch.isLt
  rw [BitVec.toNat_ofNat]
  omega

/-! ### PH_APPEND and PH_TICK -/

/-- PH_TICK counts, and goes to PH_BOUNDARY or to PH_SLEEP (rule R185). -/
theorem phTick_eq (s : State) :
    phTick s = { s with
      sq.tick := s.sq.tick + 1
      sq.phase := if s.cfg.maxTicks.toNat ≤ (s.sq.tick + 1).toNat then 0 else 5 } := by
  unfold phTick
  simp only
  split <;> rfl

/-- BUF after a whole column is appended. -/
def appendedSeqs (s : State) : Vector (List Word32) 32 :=
  (writeColumn s.stageAt s.buf.len.toNat s.channels
    (writeColumn (fun _ => entryEmpty) s.buf.len.toNat s.channels s)).buf.seqs

/-- PH_APPEND with a whole column writes BUF, BUF_LEN and PHASE (rule R169). -/
theorem phAppend_settle_whole (s : State) (h : s.tab.stageLen = s.cfg.nch) :
    (phAppend s).settle =
      { s with buf.seqs := appendedSeqs s, buf.len := s.buf.len + 1, sq.phase := 3 } := by
  have e1 := writeColumn_eq (fun _ => entryEmpty) s.buf.len.toNat s.channels s
  have e2 := writeColumn_eq s.stageAt s.buf.len.toNat s.channels
    (writeColumn (fun _ => entryEmpty) s.buf.len.toNat s.channels s)
  have e : writeColumn s.stageAt s.buf.len.toNat s.channels
      (writeColumn (fun _ => entryEmpty) s.buf.len.toNat s.channels s) = { s with buf.seqs := appendedSeqs s } := by
    rw [e2]
    change ({ writeColumn (fun _ => entryEmpty) s.buf.len.toNat s.channels s with
      buf.seqs := appendedSeqs s } : State) = _
    rw [e1]
  rw [phAppend_whole s h, Flow.settle_done, e]
  rfl

/-- PH_APPEND with a column of another length aborts (rule R170). -/
theorem phAppend_settle_partial (s : State) (h : s.tab.stageLen ≠ s.cfg.nch) :
    (phAppend s).settle = abort .contractViolation s := by
  rw [phAppend_violation s h, Flow.settle_raised]

/-- A configured channel whose sequence has BUF_LEN entries gets its staged entry appended; no other sequence changes.
-/
theorem seqAt_appendedSeqs (s : State) (hn : s.cfg.nch.toNat ≤ 32) (ch : Nat)
    (hl : ch < s.cfg.nch.toNat → (s.seqAt ch).length = s.buf.len.toNat) :
    tabGet [] (appendedSeqs s) ch =
      if ch < s.cfg.nch.toNat then s.seqAt ch ++ [s.stageAt ch] else s.seqAt ch := by
  have hd : s.channels.Nodup := List.nodup_range
  have hmem : ∀ c, c ∈ s.channels ↔ c < s.cfg.nch.toNat := fun c => List.mem_range
  have h32 : ∀ c ∈ s.channels, c < 32 := fun c hc => by have := (hmem c).mp hc; omega
  show (writeColumn s.stageAt s.buf.len.toNat s.channels
    (writeColumn (fun _ => entryEmpty) s.buf.len.toNat s.channels s)).seqAt ch = _
  rw [seqAt_writeColumn _ _ _ _ _ hd h32, seqAt_writeColumn _ _ _ _ _ hd h32]
  by_cases hc : ch < s.cfg.nch.toNat
  · simp only [hmem, hc, if_true]
    rw [← hl hc, seqWrite_length, seqWrite_last]
  · simp only [hmem, hc, if_false]

end Sys2Proof.Machine

/-! The bus's invariant (spec/10_state.md rules R52, R53, spec/40_transport.md rules R110 to R119): what each pin
operation makes of the configured pins' lines, and that every step keeps the invariant. -/

namespace Sys2Proof.Machine

/-! ### The configured pins -/

/-- `t` has the configured pins of `s`, with the same directions and levels of all pins. -/
structure SameBus (s t : State) : Prop where
  nch : t.cfg.nch = s.cfg.nch
  csPin : t.cfg.csPin = s.cfg.csPin
  clkPin : t.cfg.clkPin = s.cfg.clkPin
  dataPin : t.cfg.dataPin = s.cfg.dataPin
  pins : t.pins = s.pins

section SameBus
variable {s t : State}

theorem SameBus.of_cfg (hc : t.cfg = s.cfg) (hp : t.pins = s.pins) : SameBus s t := by
  constructor <;> simp [hc, hp]

theorem SameBus.csPinAt (h : SameBus s t) (i : Nat) : t.csPinAt i = s.csPinAt i := by simp [State.csPinAt, h.csPin]

theorem SameBus.busPins (h : SameBus s t) : t.busPins = s.busPins := by
  simp [State.busPins, State.csPins, State.csPinAt, h.nch, h.csPin, h.clkPin, h.dataPin]

theorem SameBus.pdir (h : SameBus s t) (p : PinId) : t.pdir p = s.pdir p := pdir_eq_of_pins (by rw [h.pins]) p

theorem SameBus.plvl (h : SameBus s t) (p : PinId) : t.plvl p = s.plvl p := plvl_eq_of_pins (by rw [h.pins]) p

end SameBus

theorem mem_csPins (s : State) (p : PinId) : p ∈ s.csPins ↔ ∃ i, i < s.cfg.nch.toNat ∧ s.csPinAt i = p := by
  simp [State.csPins]

theorem mem_busPins (s : State) (p : PinId) :
    p ∈ s.busPins ↔ (∃ i, i < s.cfg.nch.toNat ∧ s.csPinAt i = p) ∨ p = s.cfg.clkPin ∨ p = s.cfg.dataPin := by
  simp [State.busPins, mem_csPins]

section Distinct
variable {s : State}

theorem csPinAt_mem_busPins {i : Nat} (hi : i < s.cfg.nch.toNat) : s.csPinAt i ∈ s.busPins :=
  (mem_busPins s _).mpr (.inl ⟨i, hi, rfl⟩)

theorem csPinAt_ne_clkPin (h : s.busPins.Nodup) {i : Nat} (hi : i < s.cfg.nch.toNat) : s.csPinAt i ≠ s.cfg.clkPin :=
  fun e => (List.nodup_append.mp h).2.2 _ ((mem_csPins s _).mpr ⟨i, hi, rfl⟩) s.cfg.clkPin (by simp) e

theorem csPinAt_ne_dataPin (h : s.busPins.Nodup) {i : Nat} (hi : i < s.cfg.nch.toNat) : s.csPinAt i ≠ s.cfg.dataPin :=
  fun e => (List.nodup_append.mp h).2.2 _ ((mem_csPins s _).mpr ⟨i, hi, rfl⟩) s.cfg.dataPin (by simp) e

theorem clkPin_ne_dataPin (h : s.busPins.Nodup) : s.cfg.clkPin ≠ s.cfg.dataPin := by
  simpa using (List.nodup_append.mp h).2.1

theorem csPinAt_injective (h : s.busPins.Nodup) {i j : Nat} (hi : i < s.cfg.nch.toNat) (hj : j < s.cfg.nch.toNat)
    (e : s.csPinAt i = s.csPinAt j) : i = j :=
  List.inj_on_of_nodup_map (List.nodup_append.mp h).1 (List.mem_range.mpr hi) (List.mem_range.mpr hj) e

end Distinct

/-! ### Pins a release can free -/

/-- No pin is claimed. -/
def NoPins (s : State) : Prop := ∀ p, s.pdir p = none ∧ s.plvl p = none

/-- No pin outside the list is claimed, and an unclaimed pin has no level. -/
def OwnedBy (ps : List PinId) (s : State) : Prop :=
  ∀ p, (p ∉ ps → s.pdir p = none) ∧ (s.pdir p = none → s.plvl p = none)

section Owned
variable {s t : State} {ps : List PinId} {p : PinId}

theorem NoPins.ownedBy (h : NoPins s) : OwnedBy ps s := fun p => ⟨fun _ => (h p).1, fun _ => (h p).2⟩

theorem NoPins.of_pins (h : NoPins s) (hp : t.pins = s.pins) : NoPins t := fun p => by
  rw [pdir_eq_of_pins (congrArg _ hp), plvl_eq_of_pins (congrArg _ hp)]
  exact h p

theorem OwnedBy.of_pins (h : OwnedBy ps s) (hp : t.pins = s.pins) : OwnedBy ps t := fun p => by
  rw [pdir_eq_of_pins (congrArg _ hp), plvl_eq_of_pins (congrArg _ hp)]
  exact h p

theorem OwnedBy.afterSetDir (h : OwnedBy ps s) (hp : p ∈ ps) (d : Dir) : OwnedBy ps (afterSetDir p d s) := by
  intro q
  rw [pdir_afterSetDir, plvl_afterSetDir]
  by_cases hq : q = p
  · subst hq; simp [hp]
  · simpa [hq] using h q

theorem OwnedBy.afterWrite (h : OwnedBy ps s) (hp : s.pdir p ≠ none) (l : Level) : OwnedBy ps (afterWrite p l s) := by
  intro q
  rw [pdir_afterWrite, plvl_afterWrite]
  by_cases hq : q = p
  · subst hq; exact ⟨(h q).1, fun e => absurd e hp⟩
  · simpa [hq] using h q

/-- A release of the configured pins frees every pin, when no other is claimed (rule R114). -/
theorem noPins_of_released (h : OwnedBy s.busPins s) (hd : ∀ q, t.pdir q = if q ∈ s.busPins then none else s.pdir q)
    (hl : ∀ q, t.plvl q = if q ∈ s.busPins ∧ s.pdir q ≠ none then none else s.plvl q) : NoPins t := by
  intro q
  rw [hd, hl]
  by_cases hq : q ∈ s.busPins
  · refine ⟨by simp [hq], ?_⟩
    by_cases hn : s.pdir q = none
    · simpa [hn] using (h q).2 hn
    · simp [hq, hn]
  · have hn := (h q).1 hq
    simp [hq, hn, (h q).2 hn]

end Owned

/-! ### The lines of a claimed bus -/

/-- The level of chip-select `i` when the chip-select of `sel` alone is low. -/
def selectLevel (sel : Option Nat) (i : Nat) : Level := if sel = some i then .low else .high

/-- The bus is claimed, with at most the chip-select of `sel` low and the clock at level `clk` (rules R53, R116,
R119). -/
structure BusAt (sel : Option Nat) (clk : Level) (s : State) : Prop where
  distinct : s.busPins.Nodup
  others : ∀ p, p ∉ s.busPins → s.pdir p = none ∧ s.plvl p = none
  selects : ∀ i, i < s.cfg.nch.toNat → s.drives (s.csPinAt i) (selectLevel sel i)
  clock : s.drives s.cfg.clkPin clk
  data : s.pdir s.cfg.dataPin = some .input
  selected : ∀ i, sel = some i → i < s.cfg.nch.toNat

section BusAt
variable {s t : State} {sel : Option Nat} {clk : Level}

theorem BusAt.congr (h : BusAt sel clk s) (hb : SameBus s t) : BusAt sel clk t where
  distinct := by rw [hb.busPins]; exact h.distinct
  others p hp := by rw [hb.pdir, hb.plvl]; exact h.others p (by rwa [hb.busPins] at hp)
  selects i hi := by
    rw [State.drives, hb.csPinAt, hb.pdir, hb.plvl]; exact h.selects i (by rwa [hb.nch] at hi)
  clock := by rw [State.drives, hb.clkPin, hb.pdir, hb.plvl]; exact h.clock
  data := by rw [hb.dataPin, hb.pdir]; exact h.data
  selected i hi := by rw [hb.nch]; exact h.selected i hi

theorem BusAt.pdir_csPinAt (h : BusAt sel clk s) {i : Nat} (hi : i < s.cfg.nch.toNat) :
    s.pdir (s.csPinAt i) = some .output := (h.selects i hi).1

/-- A release undoes any claimed bus. -/
theorem BusAt.owned (h : BusAt sel clk s) : OwnedBy s.busPins s := by
  intro p
  refine ⟨fun hp => (h.others p hp).1, fun hd => ?_⟩
  refine (h.others p fun hp => ?_).2
  rcases (mem_busPins s p).mp hp with ⟨i, hi, rfl⟩ | rfl | rfl
  · rw [h.pdir_csPinAt hi] at hd; cases hd
  · rw [h.clock.1] at hd; cases hd
  · rw [h.data] at hd; cases hd

/-- The clock is written. -/
theorem BusAt.write_clock (h : BusAt sel clk s) (l : Level) : BusAt sel l (afterWrite s.cfg.clkPin l s) where
  distinct := h.distinct
  others p hp := by
    have hne : p ≠ s.cfg.clkPin := by rintro rfl; exact hp ((mem_busPins s _).mpr (.inr (.inl rfl)))
    rw [pdir_afterWrite, plvl_afterWrite, if_neg hne]
    exact h.others p hp
  selects i hi := by
    have hne : s.csPinAt i ≠ s.cfg.clkPin := csPinAt_ne_clkPin h.distinct hi
    refine ⟨(h.selects i hi).1, ?_⟩
    rw [plvl_afterWrite]
    exact (if_neg hne).trans (h.selects i hi).2
  clock := ⟨h.clock.1, by rw [plvl_afterWrite]; exact if_pos rfl⟩
  data := h.data
  selected := h.selected

/-- A chip-select is written, when no other is low. -/
theorem BusAt.write_select (h : BusAt sel clk s) {i : Nat} (hi : i < s.cfg.nch.toNat) (hs : ∀ j, sel = some j → j = i)
    {sel' : Option Nat} {l : Level} (hl : l = selectLevel sel' i) (hs' : ∀ j, sel' = some j → j = i) :
    BusAt sel' clk (afterWrite (s.csPinAt i) l s) where
  distinct := h.distinct
  others p hp := by
    have hne : p ≠ s.csPinAt i := by rintro rfl; exact hp (csPinAt_mem_busPins hi)
    rw [pdir_afterWrite, plvl_afterWrite, if_neg hne]
    exact h.others p hp
  selects j hj := by
    refine ⟨(h.selects j hj).1, ?_⟩
    rw [plvl_afterWrite]
    change (if s.csPinAt j = s.csPinAt i then some l else s.plvl (s.csPinAt j)) = _
    by_cases hji : j = i
    · subst hji; rw [if_pos rfl, hl]
    · have hn : ∀ o : Option Nat, (∀ k, o = some k → k = i) → selectLevel o j = .high := fun o ho =>
        if_neg fun e => hji (ho j e)
      rw [if_neg fun e => hji (csPinAt_injective h.distinct hj hi e), (h.selects j hj).2, hn sel hs, hn sel' hs']
  clock := by
    refine ⟨h.clock.1, ?_⟩
    rw [plvl_afterWrite]
    exact (if_neg (csPinAt_ne_clkPin h.distinct hi).symm).trans h.clock.2
  data := h.data
  selected j hj := by obtain rfl := hs' j hj; exact hi

theorem BusAt.select (h : BusAt none clk s) {i : Nat} (hi : i < s.cfg.nch.toNat) :
    BusAt (some i) clk (afterWrite (s.csPinAt i) .low s) :=
  h.write_select hi nofun (by simp [selectLevel]) fun _ e => (Option.some.inj e).symm

theorem BusAt.deselect {i : Nat} (h : BusAt (some i) clk s) : BusAt none clk (afterWrite (s.csPinAt i) .high s) :=
  h.write_select (h.selected i rfl) (fun _ e => (Option.some.inj e).symm) (by simp [selectLevel]) nofun

end BusAt

/-! ### The transactions of a frame read (rules R117, R118) -/

/-- What a release needs of a state in which a transaction failed. -/
def Owned (s : State) : Prop := OwnedBy s.busPins s

section Frame
variable {s : State} {sel : Option Nat} {clk : Level}

/-- A transaction that fails leaves the lines as they were (rule R115). -/
theorem BusAt.owned_of_fail (h : BusAt sel clk s) (e : Event) : Owned (s.drawn.emit e) :=
  (h.congr (t := s.drawn.emit e) (.of_cfg rfl rfl)).owned

theorem busAt_pinWrite (h : BusAt sel clk s) (p : PinId) (l : Level) {sel' : Option Nat} {clk' : Level}
    (hw : BusAt sel' clk' (afterWrite p l s)) :
    (pinWrite p l s).Post (fun _ t => BusAt sel' clk' t) (fun _ t => Owned t) := by
  rw [pinWrite_eq]
  split
  · exact hw
  · exact h.owned_of_fail _

theorem busAt_writeClock (h : BusAt sel clk s) (l : Level) :
    (pinWrite s.cfg.clkPin l s).Post (fun _ t => BusAt sel l t) (fun _ t => Owned t) :=
  busAt_pinWrite h _ _ (h.write_clock l)

theorem busAt_sampleBit (h : BusAt sel clk s) :
    (sampleBit s).Post (fun _ t => BusAt sel clk t) (fun _ t => Owned t) := by
  unfold sampleBit
  rw [pinRead_eq]
  split
  · exact h.congr (.of_cfg rfl rfl)
  · exact h.owned_of_fail _

theorem busAt_clockPulses (n : Nat) (h : BusAt sel .high s) :
    (clockPulses n s).Post (fun _ t => BusAt sel .high t) (fun _ t => Owned t) := by
  induction n generalizing s with
  | zero => exact h
  | succ n ih =>
    refine Flow.Post.andThen (P := fun _ t => BusAt sel .high t) ?_ fun _ t ht => ih ht
    exact (busAt_writeClock h .low).andThen fun _ t ht =>
      (busAt_sampleBit ht).andThen fun _ u hu => busAt_writeClock hu .high

/-- A frame read of a configured channel begins and ends with the bus idle (rules R53, R119). -/
theorem busAt_readFrame {ch : Nat} (h : BusAt none .high s) (hch : ch < s.cfg.nch.toNat) :
    (readFrame ch s).Post (fun _ t => BusAt none .high t) (fun _ t => Owned t) := by
  have h0 : BusAt none .high (frameHead ch s) := h.congr (.of_cfg rfl rfl)
  refine Flow.Post.andThen (busAt_pinWrite h0 _ _ (h0.select hch)) fun _ t ht => ?_
  refine Flow.Post.andThen (busAt_clockPulses 32 ht) fun _ u hu => ?_
  exact Flow.Post.andThen (busAt_pinWrite hu _ _ hu.deselect) fun _ v hv => hv.congr (.of_cfg rfl rfl)

theorem pins_finishTc (s : State) : (finishTc s).pins = s.pins := by
  by_cases h : classifyFrame s.dp.frame = .none
  · rw [finishTc_reading s h]
  · rw [finishTc_fault s h]

theorem busAt_getRj {ch : Nat} (h : BusAt none .high s) (hch : ch < s.cfg.nch.toNat) :
    (getRj ch s).Post (fun _ t => BusAt none .high t) (fun _ t => Owned t) :=
  (busAt_readFrame h hch).andThen fun _ t ht => ht.congr (.of_cfg (onlyChannel_finishRj t).cfg rfl)

theorem busAt_getTc {ch : Nat} (h : BusAt none .high s) (hch : ch < s.cfg.nch.toNat) :
    (getTc ch s).Post (fun _ t => BusAt none .high t) (fun _ t => Owned t) :=
  (busAt_readFrame h hch).andThen fun _ t ht => ht.congr (.of_cfg (onlyChannel_finishTc t).cfg (pins_finishTc t))

theorem busAt_readReading {ch : Nat} (h : BusAt none .high s) (hch : ch < s.cfg.nch.toNat) :
    (readReading ch s).Post (fun _ t => BusAt none .high t) (fun _ t => Owned t) := by
  have first := (busAt_getRj h hch).and (acquires_getRj ch s)
  refine Flow.Post.andThen (first.mono (fun _ _ k => k) fun _ _ k => k.1) fun _ t ht => ?_
  exact busAt_getTc ht.1 (by rw [ht.2.cfg]; exact hch)

theorem busAt_channelBody {body : Nat → State → Flow Unit} (hb : body ∈ channelBodies) {ch : Nat}
    (h : BusAt none .high s) (hch : ch < s.cfg.nch.toNat) :
    (body ch s).Post (fun _ t => BusAt none .high t) (fun _ t => Owned t) := by
  simp only [channelBodies, List.mem_cons, List.not_mem_nil, or_false] at hb
  rcases hb with rfl | rfl | rfl | rfl
  · exact busAt_readFrame h hch
  · exact busAt_getRj h hch
  · exact busAt_getTc h hch
  · exact busAt_readReading h hch

/-- The chip-select that is low before transaction `done` of channel `ch`'s frame (rule R118). -/
def frameSelect (ch done : Nat) : Option Nat := if done = 0 then none else some ch

/-- The level of the clock before transaction `done` of a frame (rule R118). -/
def frameClock (done : Nat) : Level := if done = 0 ∨ done % 3 = 1 then .high else .low

/-- A transaction inside a frame leaves the lines as the next one finds them. -/
theorem busAt_framePin_inside {ch done : Nat} (h : BusAt (frameSelect ch done) (frameClock done) s)
    (hch : ch < s.cfg.nch.toNat) (hd : done < 97) :
    (framePin ch done s).Post (fun _ t => BusAt (frameSelect ch (done + 1)) (frameClock (done + 1)) t)
      (fun _ t => Owned t) := by
  have hs : frameSelect ch (done + 1) = some ch := rfl
  rw [hs]
  unfold framePin
  split
  · rename_i h0
    subst h0
    exact busAt_pinWrite h _ _ (h.select hch)
  · rename_i h0
    have hsel : frameSelect ch done = some ch := if_neg h0
    rw [hsel] at h
    rw [if_neg (by omega)]
    have hclk : frameClock (done + 1) = if (done - 1) % 3 = 2 then .high else .low := by
      have : (done + 1 = 0 ∨ (done + 1) % 3 = 1) ↔ (done - 1) % 3 = 2 := by omega
      simp only [frameClock, this]
    rcases (by omega : (done - 1) % 3 = 0 ∨ (done - 1) % 3 = 1 ∨ (done - 1) % 3 = 2) with hm | hm | hm <;>
      rw [hclk, hm]
    · exact busAt_writeClock h .low
    · have : frameClock done = .low := if_neg (by omega)
      rw [this] at h
      exact busAt_sampleBit h
    · exact busAt_writeClock h .high

/-- The last transaction of a frame leaves the bus idle (rule R119). -/
theorem busAt_framePin_last {ch : Nat} (h : BusAt (frameSelect ch 97) (frameClock 97) s) :
    (framePin ch 97 s).Post (fun _ t => BusAt none .high t) (fun _ t => Owned t) :=
  (busAt_pinWrite h _ _ (BusAt.deselect h)).andThen fun _ _ ht => ht.congr (.of_cfg rfl rfl)

end Frame

/-! ### The claim (rule R113) -/

theorem pinSetDir_post (p : PinId) (d : Dir) (s : State) :
    (pinSetDir p d s).Post (fun _ t => t = afterSetDir p d s) (fun _ t => t.pins = s.pins) := by
  rw [pinSetDir_eq]
  split <;> rfl

theorem pinWrite_post (p : PinId) (l : Level) (s : State) :
    (pinWrite p l s).Post (fun _ t => t = afterWrite p l s) (fun _ t => t.pins = s.pins) := by
  rw [pinWrite_eq]
  split <;> rfl

section Claim
variable {s : State} {ps : List PinId}

theorem ownedBy_pinSetDir (h : OwnedBy ps s) {p : PinId} (hp : p ∈ ps) (d : Dir) :
    (pinSetDir p d s).Post (fun _ t => t = afterSetDir p d s ∧ OwnedBy ps t) (fun _ t => OwnedBy ps t) :=
  (pinSetDir_post p d s).mono (by rintro _ _ rfl; exact ⟨rfl, h.afterSetDir hp d⟩) fun _ _ e => h.of_pins e

theorem ownedBy_pinWrite (h : OwnedBy ps s) {p : PinId} (hp : s.pdir p ≠ none) (l : Level) :
    (pinWrite p l s).Post (fun _ t => t = afterWrite p l s ∧ OwnedBy ps t) (fun _ t => OwnedBy ps t) :=
  (pinWrite_post p l s).mono (by rintro _ _ rfl; exact ⟨rfl, h.afterWrite hp l⟩) fun _ _ e => h.of_pins e

/-- A line set to output and then written high; the second transaction names it as the state it finds has it. -/
theorem ownedBy_output_high (h : OwnedBy ps s) {p : PinId} (hp : p ∈ ps) {name : State → PinId}
    (hname : name (afterSetDir p .output s) = p) {k : Unit → State → Flow Unit} {P : Unit → State → Prop}
    (hk : OwnedBy ps (afterWrite p .high (afterSetDir p .output s)) →
      (k () (afterWrite p .high (afterSetDir p .output s))).Post P (fun _ t => OwnedBy ps t)) :
    ((pinSetDir p .output s).andThen fun _ t => (pinWrite (name t) .high t).andThen k).Post P
      (fun _ t => OwnedBy ps t) := by
  refine Flow.Post.andThen (ownedBy_pinSetDir h hp .output) ?_
  rintro _ _ ⟨rfl, h1⟩
  have hd : (afterSetDir p .output s).pdir p ≠ none := by rw [pdir_afterSetDir]; simp
  rw [hname]
  refine Flow.Post.andThen (ownedBy_pinWrite h1 hd .high) ?_
  rintro _ _ ⟨rfl, h2⟩
  exact hk h2

theorem ownedBy_claimSelects (qs : List PinId) (h : OwnedBy ps s) (hq : ∀ q ∈ qs, q ∈ ps) :
    (claimSelects qs s).Post (fun _ t => t = afterSelects qs s ∧ OwnedBy ps t) (fun _ t => OwnedBy ps t) := by
  induction qs generalizing s with
  | nil => exact ⟨rfl, h⟩
  | cons q qs ih =>
    exact ownedBy_output_high (name := fun _ => q) h (hq q (by simp)) rfl fun h2 =>
      ih h2 fun r hr => hq r (by simp [hr])

/-- Whatever the claim's transactions answer, a release of the configured pins undoes it. -/
theorem ownedBy_claimPins (h : NoPins s) :
    (claimPins s).Post (fun _ t => t = afterClaim s) (fun _ t => OwnedBy s.busPins t) := by
  have hsel : ∀ q ∈ s.csPins, q ∈ s.busPins := fun q hq => by simp [State.busPins, hq]
  have hclk : s.cfg.clkPin ∈ s.busPins := by simp [State.busPins]
  have hdata : s.cfg.dataPin ∈ s.busPins := by simp [State.busPins]
  unfold claimPins afterClaim
  refine Flow.Post.andThen (ownedBy_claimSelects s.csPins h.ownedBy hsel) ?_
  rintro _ _ ⟨rfl, h1⟩
  have hcfg := (onlyPins_afterSelects s.csPins s).cfg
  generalize afterSelects s.csPins s = t at h1 hcfg ⊢
  rw [hcfg]
  have hname : (afterSetDir s.cfg.clkPin .output t).cfg.clkPin = s.cfg.clkPin := by
    simp [afterSetDir, hcfg]
  refine ownedBy_output_high (name := fun u => u.cfg.clkPin) h1 hclk hname fun h2 => ?_
  have hcfg2 : (afterWrite s.cfg.clkPin .high (afterSetDir s.cfg.clkPin .output t)).cfg = s.cfg := by
    simp [afterWrite, afterSetDir, hcfg]
  generalize afterWrite s.cfg.clkPin .high (afterSetDir s.cfg.clkPin .output t) = u at h2 hcfg2 ⊢
  rw [hcfg2]
  refine Flow.Post.andThen (ownedBy_pinSetDir h2 hdata .input) ?_
  rintro _ _ ⟨rfl, -⟩
  rfl

theorem onlyPins_afterClaim (s : State) : ∃ u, OnlyPins s u ∧ afterClaim s = { u with fl.claimed := true } :=
  ⟨_, ((onlyPins_afterSelects s.csPins s).trans (onlyPins_afterSetDir _ _ _)).trans
    ((onlyPins_afterWrite _ _ _).trans (onlyPins_afterSetDir _ _ _)), rfl⟩

theorem pdir_afterClaim (s : State) (q : PinId) :
    (afterClaim s).pdir q = if q = s.cfg.dataPin then some .input
      else if q = s.cfg.clkPin ∨ q ∈ s.csPins then some .output else s.pdir q := by
  show (afterSetDir s.cfg.dataPin .input (afterWrite s.cfg.clkPin .high
    (afterSetDir s.cfg.clkPin .output (afterSelects s.csPins s)))).pdir q = _
  rw [pdir_afterSetDir, pdir_afterWrite, pdir_afterSetDir, pdir_afterSelects]
  by_cases hd : q = s.cfg.dataPin
  · simp [hd]
  · by_cases hc : q = s.cfg.clkPin <;> simp [hd, hc]

theorem plvl_afterClaim (s : State) (q : PinId) :
    (afterClaim s).plvl q = if q = s.cfg.clkPin ∨ q ∈ s.csPins then some .high else s.plvl q := by
  show (afterSetDir s.cfg.dataPin .input (afterWrite s.cfg.clkPin .high
    (afterSetDir s.cfg.clkPin .output (afterSelects s.csPins s)))).plvl q = _
  rw [plvl_afterSetDir, plvl_afterWrite, plvl_afterSetDir, plvl_afterSelects]
  by_cases hc : q = s.cfg.clkPin <;> simp [hc]

theorem nodup_of_claimable (h : claimable s = true) : s.busPins.Nodup := by
  simp only [claimable, Bool.and_eq_true, decide_eq_true_eq] at h
  exact h.2

theorem nch_of_claimable (h : claimable s = true) : 1 ≤ s.cfg.nch.toNat := by
  simp only [claimable, Bool.and_eq_true, decide_eq_true_eq] at h
  exact h.1

/-- A claim that completes leaves the bus claimed and idle (rules R113, R116). -/
theorem busAt_afterClaim (h : NoPins s) (hn : s.busPins.Nodup) : BusAt none .high (afterClaim s) := by
  obtain ⟨u, hu, e⟩ := onlyPins_afterClaim s
  have hcfg : (afterClaim s).cfg = s.cfg := by rw [e]; exact hu.cfg
  have hbus : (afterClaim s).busPins = s.busPins := busPins_of_cfg hcfg
  refine ⟨by rwa [hbus], fun p hp => ?_, fun i hi => ?_, ?_, ?_, nofun⟩
  · rw [hbus] at hp
    have hp' : ¬ (p = s.cfg.clkPin ∨ p ∈ s.csPins) := fun k => hp (by rcases k with k | k <;> simp [State.busPins, k])
    rw [pdir_afterClaim, plvl_afterClaim, if_neg hp', if_neg hp',
      if_neg fun k => hp (by simp [State.busPins, k])]
    exact h p
  · rw [hcfg] at hi
    have hm : s.csPinAt i ∈ s.csPins := (mem_csPins s _).mpr ⟨i, hi, rfl⟩
    rw [State.drives, csPinAt_of_cfg hcfg, pdir_afterClaim, plvl_afterClaim, if_neg (csPinAt_ne_dataPin hn hi),
      if_pos (.inr hm), if_pos (.inr hm)]
    exact ⟨rfl, rfl⟩
  · rw [State.drives, hcfg, pdir_afterClaim, plvl_afterClaim, if_neg (clkPin_ne_dataPin hn), if_pos (.inl rfl),
      if_pos (.inl rfl)]
    exact ⟨rfl, rfl⟩
  · rw [hcfg, pdir_afterClaim, if_pos rfl]

end Claim

end Sys2Proof.Machine

/-! ### The bus's invariant, state by state -/

namespace Sys2Proof.Machine

section BusInv
variable {s t : State}

theorem busInv_unclaimed (hport : s.io.port = 0) (hc : s.fl.claimed = false) (hpos : s.io.pos = none) (h : NoPins s) :
    BusInv s where
  port := hport
  unclaimed _ := h
  distinct k := by simp [hc] at k
  others k := by simp [hc] at k
  idle k := by simp [hc] at k
  running k := by simp [hpos] at k
  terminal _ := hc
  inFrame p k := by simp [hpos] at k

/-- Between frames the bus is idle. -/
theorem busInv_idle (hport : s.io.port = 0) (hc : s.fl.claimed = true) (hlc : s.sq.lc = .idle ∨ s.sq.lc = .running)
    (hpos : s.io.pos = none) (h : BusAt none .high s) : BusInv s where
  port := hport
  unclaimed k := by simp [hc] at k
  distinct _ := h.distinct
  others _ := h.others
  idle _ _ := ⟨h.selects, h.clock, h.data⟩
  running k := by simp [hpos] at k
  terminal k := by rcases hlc with e | e <;> simp [e] at k
  inFrame p k := by simp [hpos] at k

/-- The invariant's level of a chip-select inside a frame. -/
theorem selectLevel_frameSelect (ch done i : Nat) :
    selectLevel (frameSelect ch done) i = if i = ch ∧ done ≠ 0 then .low else .high := by
  unfold selectLevel frameSelect
  by_cases h0 : done = 0 <;> simp [h0, eq_comm]

/-- Inside a frame of channel CH. -/
theorem busInv_inFrame {p : SamplePos} (hport : s.io.port = 0) (hc : s.fl.claimed = true) (hr : s.sq.lc = .running)
    (hpos : s.io.pos = some p) (hch : s.sq.ch.toNat < s.cfg.nch.toNat) (hd : p.done ≤ 97)
    (h : BusAt (frameSelect s.sq.ch.toNat p.done) (frameClock p.done) s) : BusInv s where
  port := hport
  unclaimed k := by simp [hc] at k
  distinct _ := h.distinct
  others _ := h.others
  idle _ k := by simp [hpos] at k
  running _ := ⟨hr, hc, hch⟩
  terminal k := by simp [hr] at k
  inFrame q k := by
    obtain rfl : p = q := Option.some.inj (hpos.symm.trans k)
    refine ⟨fun i hi => ?_, h.clock, h.data, hd⟩
    rw [← selectLevel_frameSelect]
    exact h.selects i hi

theorem BusInv.noPins (h : BusInv s) (hc : s.fl.claimed = false) : NoPins s := h.unclaimed hc

theorem BusInv.busAt (h : BusInv s) (hc : s.fl.claimed = true) (hpos : s.io.pos = none) : BusAt none .high s :=
  have ⟨hsel, hclk, hdata⟩ := h.idle hc hpos
  ⟨h.distinct hc, h.others hc, hsel, hclk, hdata, nofun⟩

theorem BusInv.busAt_inFrame (h : BusInv s) {p : SamplePos} (hpos : s.io.pos = some p) :
    BusAt (frameSelect s.sq.ch.toNat p.done) (frameClock p.done) s := by
  obtain ⟨-, hc, hch⟩ := h.running (by simp [hpos])
  obtain ⟨hsel, hclk, hdata, -⟩ := h.inFrame p hpos
  refine ⟨h.distinct hc, h.others hc, fun i hi => ?_, hclk, hdata, fun i hi => ?_⟩
  · rw [selectLevel_frameSelect]
    exact hsel i hi
  · unfold frameSelect at hi
    split at hi
    · cases hi
    · cases hi; exact hch

theorem BusInv.pos_none (h : BusInv s) (hlc : s.sq.lc ≠ .running) : s.io.pos = none := by
  cases hp : s.io.pos with
  | none => rfl
  | some p => exact absurd (h.running (by simp [hp])).1 hlc

theorem BusInv.pos_none_of_unclaimed (h : BusInv s) (hc : s.fl.claimed = false) : s.io.pos = none := by
  cases hp : s.io.pos with
  | none => rfl
  | some p => exact absurd (h.running (by simp [hp])).2.1 (by simp [hc])

/-- Claimed pins belong to a session that has not ended. -/
theorem BusInv.lc_of_claimed (h : BusInv s) (hc : s.fl.claimed = true) : s.sq.lc = .idle ∨ s.sq.lc = .running := by
  have hterm := h.terminal
  cases hl : s.sq.lc <;> simp_all

/-- In every state the invariant holds of, a release frees every pin. -/
theorem BusInv.owned (h : BusInv s) : Owned s := by
  cases hc : s.fl.claimed with
  | false => exact (h.noPins hc).ownedBy
  | true =>
    cases hp : s.io.pos with
    | none => exact (h.busAt hc hp).owned
    | some p => exact (h.busAt_inFrame hp).owned

/-- The invariant reads the configured pins, the mirror, CLAIMED, LC, CH, and the model's port and place. -/
theorem BusInv.congr (h : BusInv s) (hb : SameBus s t) (hc : t.fl.claimed = s.fl.claimed) (hlc : t.sq.lc = s.sq.lc)
    (hch : t.sq.ch = s.sq.ch) (hport : t.io.port = s.io.port) (hpos : t.io.pos = s.io.pos) : BusInv t := by
  have hport' : t.io.port = 0 := hport.trans h.port
  cases hcl : s.fl.claimed with
  | false =>
    exact busInv_unclaimed hport' (hc.trans hcl) (hpos.trans (h.pos_none_of_unclaimed hcl))
      ((h.noPins hcl).of_pins hb.pins)
  | true =>
    cases hp : s.io.pos with
    | none =>
      exact busInv_idle hport' (hc.trans hcl) (by rw [hlc]; exact h.lc_of_claimed hcl) (hpos.trans hp)
        ((h.busAt hcl hp).congr hb)
    | some p =>
      obtain ⟨hr, -, hn⟩ := h.running (by simp [hp])
      refine busInv_inFrame hport' (hc.trans hcl) (hlc.trans hr) (hpos.trans hp) (by rwa [hch, hb.nch])
        (h.inFrame p hp).2.2.2 ?_
      rw [hch]
      exact (h.busAt_inFrame hp).congr hb

/-- A session ended from a state whose pins a release frees (rules R190, R214). -/
theorem busInv_endSession (h : Owned s) (hport : s.io.port = 0) (lc : LoopState) (reason : StopReason) :
    BusInv (endSession lc reason s) := by
  have e := endSession_spec lc reason s
  refine busInv_unclaimed ?_ ?_ ?_ (noPins_of_released h e.pdir e.plvl)
  · rw [e.io]; exact hport
  · rw [e.fl]
  · rw [e.io]

theorem busInv_release (h : Owned s) (hport : s.io.port = 0) (hpos : s.io.pos = none) : BusInv (release s) := by
  have e := release_spec s
  refine busInv_unclaimed ?_ ?_ ?_ (noPins_of_released h e.pdir e.plvl)
  · rw [e.io]; exact hport
  · rw [e.fl]
  · rw [e.io]; exact hpos

theorem busInv_abort (h : Owned s) (hport : s.io.port = 0) (x : Cause) : BusInv (abort x s) :=
  busInv_endSession h hport _ _

/-! ### Commands and register writes -/

/-- A claim (rule R113), whatever its transactions answer: CLAIMED and the bus idle, or an abort. -/
theorem claimPins_bus (h : BusInv s) (hi : s.sq.lc = .idle) (hc : s.fl.claimed = false) (ha : claimable s = true) :
    (claimPins s).Post (fun _ t => t.io.port = 0 ∧ t.io.pos = none ∧ t.fl.claimed = true ∧ t.sq = s.sq ∧
      BusAt none .high t) (fun _ t => Owned t ∧ t.io.port = 0) := by
  have hn := h.noPins hc
  refine ((ownedBy_claimPins hn).and (claimPins_spec s)).mono ?_ ?_
  · rintro _ _ ⟨e, u, hu, rfl⟩
    refine ⟨hu.port.trans h.port, hu.pos.trans (h.pos_none (by simp [hi])), rfl, hu.sq, ?_⟩
    rw [e]
    exact busAt_afterClaim hn (nodup_of_claimable ha)
  · rintro _ t ⟨ho, -, hu⟩
    exact ⟨by rwa [Owned, busPins_of_cfg hu.cfg], hu.port.trans h.port⟩

theorem BusInv.accept (h : BusInv s) : BusInv (accept s) := h.congr (.of_cfg rfl rfl) rfl rfl rfl rfl rfl

theorem busInv_command (h : BusInv s) (k : CommandEffect s t) : BusInv t := by
  have ha := h.accept
  cases k with
  | answers e => exact h.congr (.of_cfg rfl rfl) rfl rfl rfl rfl rfl
  | computes d hi hres hrj => exact h.congr (.of_cfg rfl rfl) rfl rfl rfl rfl rfl
  | releases hr => exact busInv_release ha.owned ha.port (ha.pos_none hr)
  | starts hi hc hn =>
    have hp := h.pos_none (by simp [hi])
    exact busInv_idle h.port hc (.inr rfl) hp ((h.busAt hc hp).congr (.of_cfg rfl rfl))
  | claims hi hc hcl =>
    refine Flow.Post.settle (P := BusInv) ((claimPins_bus ha hi hc hcl).mono ?_ fun _ _ k => k) fun x u k =>
      busInv_abort k.1 k.2 x
    rintro _ u ⟨hport, hpos, hcu, hsq, hb⟩
    exact busInv_idle hport hcu (.inl (by rw [hsq]; exact hi)) hpos hb
  | claimsAndStarts hi hc hcl =>
    refine Flow.Post.settle (P := BusInv) (Flow.Post.andThen (claimPins_bus ha hi hc hcl) ?_) fun x u k =>
      busInv_abort k.1 k.2 x
    rintro _ u ⟨hport, hpos, hcu, -, hb⟩
    exact busInv_idle hport hcu (.inr rfl) hpos (hb.congr (.of_cfg rfl rfl))
  | reads body ch hb hi hc hn =>
    have hp := ha.pos_none (by simp [Machine.accept, hi])
    have post := (busAt_channelBody hb (ha.busAt hc hp) hn).and (acquires_channelBody hb ch (accept s))
    refine Flow.Post.settle (P := BusInv) (post.mono ?_ fun _ _ k => k) ?_
    · rintro _ u ⟨hbu, hu⟩
      exact busInv_idle (hu.port.trans ha.port) (by rw [hu.fl]; exact hc) (.inl (by rw [hu.sq]; exact hi))
        (hu.pos.trans hp) hbu
    · rintro x u ⟨hou, -, hu⟩
      exact busInv_abort hou (hu.port.trans ha.port) x

/-- A register that is no pin register leaves the configured pins and the mirror alone. -/
theorem sameBus_storeReg {r : Reg} (hr : r.isPinReg = false) (w : Word32) (s : State) :
    SameBus s (accept (storeReg r w s)) := by
  cases r <;> first | (constructor <;> rfl) | cases hr

theorem isPinReg_of_isWindow {r : Reg} (hr : r.isWindow = true) : r.isPinReg = false := by
  cases r <;> first | rfl | cases hr

theorem busInv_storeReg (h : BusInv s) (r : Reg) (hr : r.isPinReg = true → s.fl.claimed = false) (w : Word32) :
    BusInv (accept (storeReg r w s)) := by
  have k := onlyConfig_accept_storeReg r w s
  have hfl : (accept (storeReg r w s)).fl.claimed = s.fl.claimed := by rw [k.fl]
  cases hp : r.isPinReg with
  | false =>
    exact h.congr (sameBus_storeReg hp w s) hfl (congrArg Sequencer.lc k.sq) (congrArg Sequencer.ch k.sq)
      (congrArg Surroundings.port k.io) (congrArg Surroundings.pos k.io)
  | true =>
    have hc := hr hp
    exact busInv_unclaimed ((congrArg Surroundings.port k.io).trans h.port) (hfl.trans hc)
      ((congrArg Surroundings.pos k.io).trans (h.pos_none_of_unclaimed hc)) ((h.noPins hc).of_pins k.pins)

theorem busInv_regwr (h : BusInv s) (k : RegwrEffect s t) : BusInv t := by
  cases k with
  | command _ hk => exact busInv_command h hk
  | interrupts => exact h.congr (.of_cfg rfl rfl) rfl rfl rfl rfl rfl
  | window r w hr => exact busInv_storeReg h r (fun e => by simp [isPinReg_of_isWindow hr] at e) w
  | config r width w hw hr hi hp hv => exact busInv_storeReg h r hp w

/-! ### PH_SAMPLE -/

/-- Between two visits of a pass the bus is idle. -/
structure BusPass (n : Nat) (pos : Option SamplePos) (s : State) : Prop where
  port : s.io.port = 0
  claimed : s.fl.claimed = true
  running : s.sq.lc = .running
  nch : s.cfg.nch.toNat = n
  pos : s.io.pos = pos
  bus : BusAt none .high s

variable {n : Nat} {pos : Option SamplePos}

/-- The pass's own assignments touch no pin. -/
theorem BusPass.of_eq (h : BusPass n pos s) (hb : t.cfg = s.cfg) (hpins : t.pins = s.pins) (hfl : t.fl = s.fl)
    (hlc : t.sq.lc = s.sq.lc) (hio : t.io = s.io) : BusPass n pos t where
  port := by rw [hio]; exact h.port
  claimed := by rw [hfl]; exact h.claimed
  running := hlc.trans h.running
  nch := by rw [hb]; exact h.nch
  pos := by rw [hio]; exact h.pos
  bus := h.bus.congr (.of_cfg hb hpins)

theorem BusPass.busInv (h : BusPass n none s) : BusInv s :=
  busInv_idle h.port h.claimed (.inr h.running) h.pos h.bus

theorem busPass_steps (n : Nat) (pos : Option SamplePos) : PassSteps (fun _ s => BusPass n pos s) n where
  skip _ _ _ h _ := h.of_eq rfl rfl rfl rfl rfl
  isolate _ _ _ h _ _ := h.of_eq rfl rfl rfl rfl rfl
  stage _ _ _ h _ := h.of_eq rfl rfl rfl rfl rfl

/-- The visit of a channel reads it with the bus idle before and after (rule R119). -/
theorem busPass_readReading {k : Nat} (h : BusPass n pos s) (hk : k < n) :
    (readReading k (visit k s)).Post (fun _ t => BusPass n pos t) (fun _ t => Owned t ∧ t.io.port = 0) := by
  have hv : BusPass n pos (visit k s) := h.of_eq rfl rfl rfl rfl rfl
  have post := (busAt_readReading hv.bus (by rw [hv.nch]; exact hk)).and (acquires_readReading k (visit k s))
  refine post.mono ?_ ?_
  · rintro _ u ⟨hb, hu⟩
    exact ⟨hu.port.trans hv.port, by rw [hu.fl]; exact hv.claimed, by rw [hu.sq]; exact hv.running,
      by rw [hu.cfg]; exact hv.nch, hu.pos.trans hv.pos, hb⟩
  · rintro _ u ⟨ho, -, hu⟩
    exact ⟨ho, hu.port.trans hv.port⟩

theorem busInv_phSample (h : BusPass s.cfg.nch.toNat none s) : BusInv (phSample s).settle := by
  refine Flow.Post.settle (P := BusInv) (Q := fun _ t => Owned t ∧ t.io.port = 0) ?_ fun x t k => busInv_abort k.1 k.2 x
  refine (busPass_steps s.cfg.nch.toNat none).phSample ?_ ?_ ?_ ?_
  · exact fun k u hk hu => busPass_readReading hu hk
  · intro k u _ hu _ _
    exact hu.busInv.congr (.of_cfg rfl rfl) rfl rfl rfl rfl rfl
  · exact fun u hu => hu.busInv.congr (.of_cfg rfl rfl) rfl rfl rfl rfl rfl
  · exact h.of_eq rfl rfl rfl rfl rfl

/-! ### PH_SAMPLE by micro-steps -/

/-- The first frame of a channel is about to begin. -/
theorem busInv_enter {k : Nat} (hk : k < n) (h : BusPass n pos s) :
    BusInv { frameHead k (visit k s) with io.pos := some { second := false, done := 0 } } := by
  have hch : (BitVec.ofNat 6 k).toNat = k := toNat_ofNat_nch (s := s) (by rw [h.nch]; omega)
  refine busInv_inFrame h.port h.claimed h.running rfl ?_ (Nat.zero_le _) (h.bus.congr (.of_cfg rfl rfl))
  show (BitVec.ofNat 6 k).toNat < s.cfg.nch.toNat
  rw [hch, h.nch]
  exact hk

theorem BusPass.finish (h : BusPass n pos s) : BusInv (({ s with io.pos := none } : State).goto 2) :=
  busInv_idle h.port h.claimed (.inr h.running) rfl (h.bus.congr (.of_cfg rfl rfl))

theorem busInv_enterChannels (h : BusPass s.cfg.nch.toNat pos s) : BusInv (enterChannels s.channels s) := by
  rw [channels_eq_range']
  exact (busPass_steps _ pos).enterChannels (E := BusInv) (fun _ _ hk hu _ => busInv_enter hk hu)
    (fun _ hu => hu.finish) _ 0 s (Nat.zero_add _) h

theorem busInv_leaveChannel {k : Nat} (h : BusPass s.cfg.nch.toNat pos s) (hk : k < s.cfg.nch.toNat) :
    BusInv (leaveChannel k s) :=
  (busPass_steps _ pos).leaveChannel (E := BusInv)
    (fun _ _ _ hu _ _ => busInv_idle hu.port hu.claimed (.inr hu.running) rfl (hu.bus.congr (.of_cfg rfl rfl)))
    (fun _ _ hk hu _ => busInv_enter hk hu) (fun _ hu => hu.finish) k s hk rfl h

/-- A transaction inside a frame leaves the next one to be made. -/
theorem busInv_micro_inside {p : SamplePos} (h : BusInv s) (hp : s.io.pos = some p) (hd : p.done < 97) :
    ((framePin s.sq.ch.toNat p.done s).andThen fun _ t => .done () (afterFramePin p s.sq.ch.toNat t)).Post
      (fun _ t => BusInv t) (fun _ t => Owned t ∧ t.io.port = 0) := by
  obtain ⟨hr, hc, hn⟩ := h.running (by simp [hp])
  have post := (busAt_framePin_inside (h.busAt_inFrame hp) hn hd).and (keeps_framePin s.sq.ch.toNat p.done s)
  refine Flow.Post.andThen (post.mono (fun _ _ k => k) fun _ u k => ⟨k.1, k.2.2.1.port.trans h.port⟩) ?_
  rintro _ u ⟨hu, ha, hsq⟩
  show BusInv (afterFramePin p s.sq.ch.toNat u)
  rw [afterFramePin, if_pos hd]
  have hch : u.sq.ch = s.sq.ch := congrArg Sequencer.ch hsq
  refine busInv_inFrame (p := { p with done := p.done + 1 }) (ha.port.trans h.port)
    (by rw [← hc]; exact congrArg _ ha.fl) ((congrArg Sequencer.lc hsq).trans hr) rfl ?_ hd ?_
  · show u.sq.ch.toNat < u.cfg.nch.toNat
    rw [hch, ha.cfg]; exact hn
  · show BusAt (frameSelect u.sq.ch.toNat (p.done + 1)) (frameClock (p.done + 1)) _
    rw [hch]
    exact hu.congr (.of_cfg rfl rfl)

/-- The last transaction of a frame is followed by the channel's second frame or by the end of its visit. -/
theorem busInv_micro_last {p : SamplePos} (h : BusInv s) (hp : s.io.pos = some p) (hd : p.done = 97) :
    ((framePin s.sq.ch.toNat p.done s).andThen fun _ t => .done () (afterFramePin p s.sq.ch.toNat t)).Post
      (fun _ t => BusInv t) (fun _ t => Owned t ∧ t.io.port = 0) := by
  obtain ⟨hr, hc, hn⟩ := h.running (by simp [hp])
  have hb := h.busAt_inFrame hp
  rw [hd] at hb ⊢
  have post := (busAt_framePin_last hb).and (keeps_framePin s.sq.ch.toNat 97 s)
  refine Flow.Post.andThen (post.mono (fun _ _ k => k) fun _ u k => ⟨k.1, k.2.2.1.port.trans h.port⟩) ?_
  rintro _ u ⟨hu, ha, hsq⟩
  have pass : ∀ v, OnlyChannel u v → v.pins = u.pins → BusPass s.cfg.nch.toNat (some p) v := fun v hv hpins =>
    { port := hv.port.trans (ha.port.trans h.port)
      claimed := by rw [hv.fl, ha.fl]; exact hc
      running := by rw [hv.sq, hsq]; exact hr
      nch := by rw [hv.cfg, ha.cfg]
      pos := hv.pos.trans (ha.pos.trans hp)
      bus := hu.congr (.of_cfg hv.cfg hpins) }
  show BusInv (afterFramePin p s.sq.ch.toNat u)
  rw [afterFramePin, if_neg (by omega)]
  split
  · have hv := pass (finishRj u) (onlyChannel_finishRj u) rfl
    have hch : (BitVec.ofNat 6 s.sq.ch.toNat).toNat = s.sq.ch.toNat := toNat_ofNat_nch (s := s) (by omega)
    refine busInv_inFrame hv.port hv.claimed hv.running rfl ?_ (Nat.zero_le _) (hv.bus.congr (.of_cfg rfl rfl))
    show (BitVec.ofNat 6 s.sq.ch.toNat).toNat < (finishRj u).cfg.nch.toNat
    rw [hch, hv.nch]
    exact hn
  · have hv := pass (finishTc u) (onlyChannel_finishTc u) (pins_finishTc u)
    have hnch := hv.nch
    rw [← hnch] at hv
    exact busInv_leaveChannel hv (by rw [hnch]; exact hn)

theorem busInv_sampleMicro (h : BusInv s) (hr : s.sq.lc = .running) (hc : s.fl.claimed = true) :
    BusInv (sampleMicro s) := by
  unfold sampleMicro
  split
  · rename_i hp
    have pass : BusPass (clearStaging s).cfg.nch.toNat none (clearStaging s) :=
      ⟨h.port, hc, hr, rfl, hp, (h.busAt hc hp).congr (.of_cfg rfl rfl)⟩
    exact busInv_enterChannels pass
  · rename_i p hp
    have hd := (h.inFrame p hp).2.2.2
    rcases Nat.lt_or_eq_of_le hd with hd | hd
    · exact (busInv_micro_inside h hp hd).settle fun x t k => busInv_abort k.1 k.2 x
    · exact (busInv_micro_last h hp hd).settle fun x t k => busInv_abort k.1 k.2 x

/-! ### Every step -/

theorem busInv_phAppend (h : BusInv s) : BusInv (phAppend s).settle := by
  by_cases hl : s.tab.stageLen = s.cfg.nch
  · rw [phAppend_settle_whole s hl]
    exact h.congr (.of_cfg rfl rfl) rfl rfl rfl rfl rfl
  · rw [phAppend_settle_partial s hl]
    exact busInv_abort h.owned h.port _

theorem busInv_phBoundary (h : BusInv s) : BusInv (phBoundary s) := by
  unfold phBoundary
  split
  · exact busInv_endSession h.owned h.port _ _
  · split
    · exact busInv_endSession h.owned h.port _ _
    · exact h.congr (.of_cfg rfl rfl) rfl rfl rfl rfl rfl

theorem busInv_phTick (h : BusInv s) : BusInv (phTick s) := by
  rw [phTick_eq]
  exact h.congr (.of_cfg rfl rfl) rfl rfl rfl rfl rfl

theorem busInv_phHalt (h : BusInv s) : BusInv (stop .faultHalt (emitTelem s)) :=
  have he : BusInv (emitTelem s) := h.congr (.of_cfg rfl rfl) rfl rfl rfl rfl rfl
  busInv_endSession he.owned he.port _ _

theorem busInv_effect (h : BusInv s) (hrun : s.sq.lc = .running → s.fl.claimed = true) (k : StepEffect s t) :
    BusInv t := by
  cases k with
  | reads w => exact h.congr (.of_cfg rfl rfl) rfl rfl rfl rfl rfl
  | writes _ hk => exact busInv_regwr h hk
  | rests hr => exact h
  | micro hr hp => exact busInv_sampleMicro h hr (hrun hr)
  | boundary hr hp hph => exact busInv_phBoundary h
  | sample hr hp hph =>
    exact busInv_phSample ⟨h.port, hrun hr, hr, rfl, hp, h.busAt (hrun hr) hp⟩
  | append hr hp hph => exact busInv_phAppend h
  | telem hr hp hph => exact h.congr (.of_cfg rfl rfl) rfl rfl rfl rfl rfl
  | tick hr hp hph => exact busInv_phTick h
  | sleep hr hp hph => exact h.congr (.of_cfg rfl rfl) rfl rfl rfl rfl rfl
  | halt hr hp hph => exact busInv_phHalt h

theorem noPins_resetInput (s : State) : NoPins (resetInput s) := fun p => by
  simp [State.pdir, State.plvl, resetInput, State.reset]

theorem busInv_resetInput (s : State) : BusInv (resetInput s) := busInv_unclaimed rfl rfl rfl (noPins_resetInput s)

end BusInv

/-- Settles O13, by the effect of the step on the configured pins' lines. -/
theorem busInvariantKept : Obligations.BusInvariantKept := by
  intro s t h hs
  obtain ⟨hb, ⟨-, rfl⟩ | hk⟩ := step_effect h.port hs
  · exact busInv_resetInput _
  · have hp : BusInv s.popTurn := h.congr (.of_cfg rfl rfl) rfl rfl rfl rfl rfl
    refine busInv_effect hp (fun hr => ?_) hk
    have hrun := ((bugOf_eq_none s).mp hb).1
    cases hc : s.fl.claimed with
    | true => exact hc
    | false => exact absurd ⟨hr, hc⟩ hrun

end Sys2Proof.Machine

/-! The sequencer's invariant (spec/60_exceptions.md rule R226) is kept by every step that answers. -/

namespace Sys2Proof.Machine

/-! ### Entries of a kind that exists (rules R86, R226) -/

/-- Every place that holds an ENTRY word holds one of a kind that exists. -/
structure GoodEntries (s : State) : Prop where
  results : GoodResults s.dp
  stage : ∀ i, entryKind (s.stageAt i) ≠ 3
  rjStage : ∀ i, entryKind (s.rjStageAt i) ≠ 3
  seqs : ∀ ch, ∀ e ∈ s.seqAt ch, entryKind e ≠ 3

theorem tabGet_of_ge {α : Type} (d : α) (t : Vector α 32) {i : Nat} (h : ¬ i < 32) : tabGet d t i = d := by
  simp [tabGet, h]

theorem goodEntries_iff (s : State) : (∀ e ∈ s.entries, entryKind e ≠ 3) ↔ GoodEntries s := by
  constructor
  · intro h
    have hm := fun e k => h e ((mem_entries s e).mpr k)
    refine ⟨⟨hm _ (.inl rfl), hm _ (.inr (.inl rfl))⟩, fun i => ?_, fun i => ?_, fun ch e he => ?_⟩
    · by_cases hi : i < 32
      · exact hm _ (.inr (.inr (.inl ⟨i, hi, .inl rfl⟩)))
      · rw [State.stageAt, tabGet_of_ge _ _ hi, entryKind_empty]; decide
    · by_cases hi : i < 32
      · exact hm _ (.inr (.inr (.inl ⟨i, hi, .inr rfl⟩)))
      · rw [State.rjStageAt, tabGet_of_ge _ _ hi, entryKind_empty]; decide
    · by_cases hc : ch < 32
      · exact hm e (.inr (.inr (.inr ⟨ch, hc, he⟩)))
      · rw [State.seqAt, tabGet_of_ge _ _ hc] at he; cases he
  · intro h e he
    rcases (mem_entries s e).mp he with rfl | rfl | ⟨i, -, rfl | rfl⟩ | ⟨ch, -, k⟩
    · exact h.results.1
    · exact h.results.2
    · exact h.stage i
    · exact h.rjStage i
    · exact h.seqs ch e k

section Good
variable {s t : State}

theorem GoodEntries.congr (h : GoodEntries s) (hr : GoodResults t.dp) (htab : t.tab = s.tab)
    (hseqs : t.buf.seqs = s.buf.seqs) : GoodEntries t where
  results := hr
  stage i := by rw [State.stageAt, htab]; exact h.stage i
  rjStage i := by rw [State.rjStageAt, htab]; exact h.rjStage i
  seqs ch e he := h.seqs ch e (by rwa [State.seqAt, hseqs] at he)

theorem goodEntries_clearStaging (h : GoodEntries s) : GoodEntries (clearStaging s) where
  results := h.results
  stage i := by
    rw [stageAt_clearStaging]
    split
    · rw [entryKind_empty]; decide
    · exact h.stage i
  rjStage i := by
    rw [rjStageAt_clearStaging]
    split
    · rw [entryKind_empty]; decide
    · exact h.rjStage i
  seqs := h.seqs

theorem goodEntries_stageQuarantined (h : GoodEntries s) (k : Nat) : GoodEntries (stageQuarantined k s) where
  results := h.results
  stage i := by
    rw [stageAt_stageQuarantined]
    split
    · rw [entryKind_fault]; decide
    · exact h.stage i
  rjStage := h.rjStage
  seqs := h.seqs

theorem goodEntries_stageReading (h : GoodEntries s) (k : Nat) : GoodEntries (stageReading k s) where
  results := h.results
  stage i := by
    rw [stageAt_stageReading]
    split
    · exact h.results.1
    · exact h.stage i
  rjStage i := by
    rw [rjStageAt_stageReading]
    split
    · exact h.results.2
    · exact h.rjStage i
  seqs := h.seqs

theorem mem_seqWrite {l : List Word32} {t : Nat} {e x : Word32} (h : x ∈ seqWrite l t e) :
    x = e ∨ x = entryEmpty ∨ x ∈ l := by
  rcases List.mem_or_eq_of_mem_set h with k | k
  · simp only [List.rightpad, List.mem_append, List.mem_replicate] at k
    rcases k with k | ⟨-, k⟩
    · exact .inr (.inr k)
    · exact .inr (.inl k)
  · exact .inl k

theorem goodEntries_memWrite (h : GoodEntries s) (ch t : Nat) {e : Word32} (he : entryKind e ≠ 3) :
    GoodEntries (memWrite ch t e s) where
  results := h.results
  stage := h.stage
  rjStage := h.rjStage
  seqs c x hx := by
    rw [seqAt_memWrite] at hx
    split at hx
    · rcases mem_seqWrite hx with rfl | rfl | k
      · exact he
      · rw [entryKind_empty]; decide
      · exact h.seqs c x k
    · exact h.seqs c x hx

theorem goodEntries_writeColumn (h : GoodEntries s) {f : Nat → Word32} (hf : ∀ i, entryKind (f i) ≠ 3) (t : Nat)
    (chs : List Nat) : GoodEntries (writeColumn f t chs s) := by
  induction chs generalizing s with
  | nil => exact h
  | cons ch chs ih => exact ih (goodEntries_memWrite h ch t (hf ch))

/-- The committed entries after PH_APPEND. -/
theorem goodEntries_append (h : GoodEntries s) (ht : t.buf.seqs = appendedSeqs s) (hdp : t.dp = s.dp)
    (htab : t.tab = s.tab) : GoodEntries t := by
  have hw := goodEntries_writeColumn (goodEntries_writeColumn h (f := fun _ => entryEmpty)
    (fun _ => by rw [entryKind_empty]; decide) s.buf.len.toNat s.channels) h.stage s.buf.len.toNat s.channels
  refine ⟨by rw [hdp]; exact h.results, fun i => ?_, fun i => ?_, fun ch e he => hw.seqs ch e ?_⟩
  · rw [State.stageAt, htab]; exact h.stage i
  · rw [State.rjStageAt, htab]; exact h.rjStage i
  · rw [State.seqAt, ht] at he; exact he

end Good

/-! ### Changes the loop does not notice -/

/-- `t` has the loop's registers of `s`: the sequencer's but CH, CLAIMED while Running, the configuration, the buffer,
the pin port and the place inside a step; inside one CH too. -/
structure SameLoop (s t : State) : Prop where
  params : t.params = s.params
  sq : t.sq = { s.sq with ch := t.sq.ch }
  ch : s.io.pos.isSome = true → t.sq.ch = s.sq.ch
  claimed : s.sq.lc = .running → t.fl.claimed = s.fl.claimed
  cfg : t.cfg = s.cfg
  seqs : t.buf.seqs = s.buf.seqs
  len : t.buf.len = s.buf.len
  port : t.io.port = s.io.port
  pos : t.io.pos = s.io.pos

/-- `t` has the tables of `s` too, and entries in RES and RJRES as good as those of `s`. -/
structure Quiet (s t : State) : Prop extends SameLoop s t where
  tab : t.tab = s.tab
  results : GoodResults s.dp → GoodResults t.dp

section Quiet
variable {s t : State}

theorem Quiet.of_eq (hp : t.params = s.params) (hdp : t.dp = s.dp) (hsq : t.sq = s.sq)
    (hcl : s.sq.lc = .running → t.fl.claimed = s.fl.claimed) (hcfg : t.cfg = s.cfg) (htab : t.tab = s.tab)
    (hseqs : t.buf.seqs = s.buf.seqs) (hlen : t.buf.len = s.buf.len) (hport : t.io.port = s.io.port)
    (hpos : t.io.pos = s.io.pos) : Quiet s t :=
  ⟨⟨hp, by rw [hsq], fun _ => by rw [hsq], hcl, hcfg, hseqs, hlen, hport, hpos⟩, htab, by rw [hdp]; exact id⟩

/-- The two frame reads of a channel and their parts, outside a step by micro-steps. -/
theorem Acquired.quiet (h : Acquired s t) (hpos : s.io.pos = none) : Quiet s t :=
  ⟨⟨h.params, h.sq, fun k => by simp [hpos] at k, fun _ => by rw [h.fl], h.cfg, by rw [h.buf], by rw [h.buf], h.port,
    h.pos⟩, h.tab, h.results⟩

/-- The same inside one. -/
theorem Acquired.quiet_of_sq (h : Acquired s t) (hsq : t.sq = s.sq) : Quiet s t :=
  ⟨⟨h.params, h.sq, fun _ => by rw [hsq], fun _ => by rw [h.fl], h.cfg, by rw [h.buf], by rw [h.buf], h.port, h.pos⟩,
    h.tab, h.results⟩

theorem OnlyPins.quiet (h : OnlyPins s t) : Quiet s t :=
  .of_eq h.params h.dp h.sq (fun _ => by rw [h.fl]) h.cfg h.tab (by rw [h.buf]) (by rw [h.buf]) h.port h.pos

theorem Quiet.trans {u : State} (h : Quiet s t) (k : Quiet t u) : Quiet s u where
  params := k.params.trans h.params
  sq := by rw [k.sq, h.sq]
  ch hp := (k.ch (by rw [h.pos]; exact hp)).trans (h.ch hp)
  claimed hr := (k.claimed (by rw [h.sq]; exact hr)).trans (h.claimed hr)
  cfg := k.cfg.trans h.cfg
  seqs := k.seqs.trans h.seqs
  len := k.len.trans h.len
  port := k.port.trans h.port
  pos := k.pos.trans h.pos
  tab := k.tab.trans h.tab
  results g := k.results (h.results g)

theorem quiet_accept (s : State) : Quiet s (accept s) :=
  .of_eq rfl rfl rfl (fun _ => rfl) rfl rfl rfl rfl rfl rfl

theorem quiet_interrupted (s : State) : Quiet s (interrupted s) :=
  .of_eq rfl rfl rfl (fun _ => rfl) rfl rfl rfl rfl rfl rfl

/-- A claim leaves the loop alone but for CLAIMED, which outside Running is no register of the loop. -/
theorem claimPins_quiet (hr : s.sq.lc ≠ .running) :
    (claimPins s).Post (fun _ t => Quiet s t ∧ t.fl.claimed = true)
      (fun x t => x = .transportFailure ∧ Quiet s t) := by
  refine (claimPins_spec s).mono ?_ fun _ _ k => ⟨k.1, k.2.quiet⟩
  rintro _ _ ⟨u, hu, rfl⟩
  have q := hu.quiet
  exact ⟨⟨⟨q.params, q.sq, q.ch, fun k => absurd k hr, q.cfg, q.seqs, q.len, q.port, q.pos⟩, q.tab, q.results⟩, rfl⟩

/-- What a command can do to the loop: nothing it notices; or, in Idle and after nothing it notices, an abort for a
failed transaction or the start of the session. -/
theorem CommandEffect.quiet_cases (hpos : s.sq.lc = .idle → s.io.pos = none) (k : CommandEffect s t) :
    Quiet s t ∨ s.sq.lc = .idle ∧ ∃ u, Quiet s u ∧
      (t = abort .transportFailure u ∨ t = enterRunning u ∧ u.fl.claimed = true ∧ 1 ≤ u.cfg.nch.toNat) := by
  have ha := quiet_accept s
  cases k with
  | answers e => exact .inl (.of_eq rfl rfl rfl (fun _ => rfl) rfl rfl rfl rfl rfl rfl)
  | computes d hi hres hrj =>
    refine .inl ⟨⟨rfl, rfl, fun _ => rfl, fun _ => rfl, rfl, rfl, rfl, rfl, rfl⟩, rfl, ?_⟩
    simp only [GoodResults, hres, hrj]
    exact id
  | releases hr =>
    have e := release_spec (accept s)
    exact .inl (ha.trans (.of_eq e.params e.dp e.sq (fun k => absurd k hr) e.cfg e.tab (by rw [e.buf]) (by rw [e.buf])
      (by rw [e.io]; rfl) (by rw [e.io]; rfl)))
  | starts hi hc hn => exact .inr ⟨hi, _, ha, .inr ⟨rfl, hc, hn⟩⟩
  | claims hi hc hcl =>
    have hk := claimPins_quiet (s := accept s) (by rw [show (accept s).sq = s.sq from rfl, hi]; decide)
    cases hm : claimPins (accept s) with
    | done a u => rw [hm] at hk; exact .inl (ha.trans hk.1)
    | raised x u =>
      rw [hm] at hk
      obtain ⟨rfl, hu⟩ := hk
      exact .inr ⟨hi, u, ha.trans hu, .inl rfl⟩
  | claimsAndStarts hi hc hcl =>
    have hk := claimPins_quiet (s := accept s) (by rw [show (accept s).sq = s.sq from rfl, hi]; decide)
    cases hm : claimPins (accept s) with
    | done a u =>
      rw [hm] at hk
      exact .inr ⟨hi, u, ha.trans hk.1, .inr ⟨rfl, hk.2, by rw [hk.1.cfg]; exact nch_of_claimable hcl⟩⟩
    | raised x u =>
      rw [hm] at hk
      obtain ⟨rfl, hu⟩ := hk
      exact .inr ⟨hi, u, ha.trans hu, .inl rfl⟩
  | reads body ch hb hi hc hn =>
    rcases (acquires_channelBody hb ch (accept s)).settle_cases with hu | ⟨u, hu, e⟩
    · exact .inl (ha.trans (hu.quiet (hpos hi)))
    · exact .inr ⟨hi, u, ha.trans (hu.quiet (hpos hi)), .inl e⟩

/-- The invariant after a change of the tables inside PH_SAMPLE, or of none of the loop's registers. -/
theorem SequencerInv.of_sameLoop (h : SequencerInv s) (q : SameLoop s t)
    (hlen : t.tab.stageLen = s.tab.stageLen ∨
      s.sq.lc = .running ∧ s.sq.phase = 1 ∧ t.tab.stageLen.toNat ≤ s.cfg.nch.toNat) (hk : GoodEntries t) :
    SequencerInv t := by
  have hlc : t.sq.lc = s.sq.lc := by rw [q.sq]
  have hph : t.sq.phase = s.sq.phase := by rw [q.sq]
  have htick : t.sq.tick = s.sq.tick := by rw [q.sq]
  have hreason : t.sq.stopReason = s.sq.stopReason := by rw [q.sq]
  refine
    { params := by rw [q.params]; exact h.params
      nch := by rw [q.params, q.cfg]; exact h.nch
      maxTicks := by rw [q.params, q.cfg]; exact h.maxTicks
      port := q.port.trans h.port
      phase := by rw [hph]; exact h.phase
      reason := by rw [hlc, hreason]; exact h.reason
      running := fun hr => ?_
      idle := fun hi => ?_
      stageLen := ?_
      staged := fun hr hp => ?_
      tick := by rw [htick, q.cfg]; exact h.tick
      cycle := fun hr hp => by rw [htick, q.cfg]; exact h.cycle (hlc ▸ hr) (hph ▸ hp)
      length := by rw [q.len, hlc, hph, htick]; exact h.length
      pos := fun k => ?_
      kinds := (goodEntries_iff t).mpr hk }
  · rw [hlc] at hr
    rw [q.claimed hr, q.cfg]
    exact h.running hr
  · rw [hlc] at hi
    obtain ⟨h1, h2, h3⟩ := h.idle hi
    refine ⟨htick.trans h1, q.len.trans h2, ?_⟩
    rcases hlen with e | ⟨e, -⟩
    · exact e.trans h3
    · simp [hi] at e
  · rw [q.cfg]
    rcases hlen with e | ⟨-, -, e⟩
    · rw [e]; exact h.stageLen
    · exact e
  · rw [hlc] at hr
    rw [hph] at hp
    rw [q.cfg]
    rcases hlen with e | ⟨-, e, -⟩
    · rw [e]; exact h.staged hr hp
    · rw [e] at hp; cases hp
  · rw [q.pos] at k
    rw [hlc, hph, q.ch k, q.cfg]
    exact h.pos k

theorem SequencerInv.quiet (h : SequencerInv s) (q : Quiet s t) : SequencerInv t :=
  have hk := (goodEntries_iff s).mp h.kinds
  h.of_sameLoop q.toSameLoop (.inl (by rw [q.tab])) (hk.congr (q.results hk.results) q.tab q.seqs)

theorem SequencerInv.pos_none (h : SequencerInv s) (hlc : s.sq.lc ≠ .running) : s.io.pos = none := by
  cases hp : s.io.pos with
  | none => rfl
  | some p => exact absurd (h.pos (by simp [hp])).1 hlc

/-! ### Changes of LC and PHASE -/

/-- A step in progress given up: the rest of the invariant does not speak of it. -/
theorem SequencerInv.clearPos (h : SequencerInv s) : SequencerInv { s with io.pos := none } :=
  ⟨h.params, h.nch, h.maxTicks, h.port, h.phase, h.reason, h.running, h.idle, h.stageLen, h.staged, h.tick, h.cycle,
    h.length, nofun, h.kinds⟩

/-- A transaction of PH_SAMPLE is next. -/
theorem SequencerInv.setPos (h : SequencerInv { s with io.pos := none }) (hr : s.sq.lc = .running)
    (hp : s.sq.phase = 1) (hch : s.sq.ch.toNat < s.cfg.nch.toNat) (p : SamplePos) :
    SequencerInv { s with io.pos := some p } :=
  ⟨h.params, h.nch, h.maxTicks, h.port, h.phase, h.reason, h.running, h.idle, h.stageLen, h.staged, h.tick, h.cycle,
    h.length, fun _ => ⟨hr, hp, hch⟩, h.kinds⟩

theorem setPos_eq_self {p : Option SamplePos} (h : s.io.pos = p) : { s with io.pos := p } = s := by
  subst h; rfl

/-- A session ends outside the phases in which the present tick's column is committed (rules R190, R214). -/
theorem sequencerInv_endSession (h : SequencerInv { s with io.pos := none })
    (hc : s.sq.lc = .running → committed s.sq.phase = false) {lc : LoopState} {reason : StopReason}
    (hf : reasonFits lc reason = true) (hlc : lc = .stopped ∨ lc = .aborted) :
    SequencerInv (endSession lc reason s) := by
  have e := endSession_spec lc reason s
  have hidle : lc ≠ .idle := by rcases hlc with rfl | rfl <;> decide
  have hrun : lc ≠ .running := by rcases hlc with rfl | rfl <;> decide
  have hlen : s.buf.len.toNat = s.sq.tick.toNat := by
    refine h.length.trans (if_neg ?_)
    rintro ⟨hr, hp⟩
    have := hc hr
    exact absurd (this.symm.trans hp) (by decide)
  have hk : GoodEntries (endSession lc reason s) :=
    ((goodEntries_iff _).mp h.kinds).congr (by rw [e.dp]; exact ((goodEntries_iff _).mp h.kinds).results) e.tab
      (by rw [e.buf])
  refine
    { params := by rw [e.params]; exact h.params
      nch := by rw [e.params, e.cfg]; exact h.nch
      maxTicks := by rw [e.params, e.cfg]; exact h.maxTicks
      port := by rw [e.io]; exact h.port
      phase := by rw [e.sq]; exact h.phase
      reason := by rw [e.sq]; exact hf
      running := fun k => ?_
      idle := fun k => ?_
      stageLen := by rw [e.tab, e.cfg]; exact h.stageLen
      staged := fun k => ?_
      tick := by rw [e.sq, e.cfg]; exact h.tick
      cycle := fun k => ?_
      length := ?_
      pos := by rw [e.io]; exact nofun
      kinds := (goodEntries_iff _).mpr hk }
  · rw [e.sq] at k; exact absurd k hrun
  · rw [e.sq] at k; exact absurd k hidle
  · rw [e.sq] at k; exact absurd k hrun
  · rw [e.sq] at k; exact absurd k hrun
  · rw [e.buf, e.sq]
    exact hlen.trans (if_neg fun k => hrun k.1).symm

/-- The loop goes to a phase whose conditions hold. -/
theorem SequencerInv.goto (h : SequencerInv s) (hpos : s.io.pos = none) {p : BitVec 3} (hp : p ≠ 7)
    (hstaged : p = 2 → s.tab.stageLen = s.cfg.nch)
    (hcycle : inCycle p = true → s.sq.tick.toNat < s.cfg.maxTicks.toNat)
    (hlen : s.sq.lc = .running → committed p = committed s.sq.phase) : SequencerInv (s.goto p) :=
  { params := h.params
    nch := h.nch
    maxTicks := h.maxTicks
    port := h.port
    phase := hp
    reason := h.reason
    running := h.running
    idle := h.idle
    stageLen := h.stageLen
    staged := fun _ => hstaged
    tick := h.tick
    cycle := fun _ => hcycle
    length := by
      refine h.length.trans ?_
      by_cases hr : s.sq.lc = .running
      · simp [hr, hlen hr]
      · simp [hr]
    pos := fun k => by simp [hpos] at k
    kinds := h.kinds }

end Quiet
end Sys2Proof.Machine

/-! ### The sequencer's invariant, effect by effect -/

namespace Sys2Proof.Machine

section Commands
variable {s t : State}

/-- START (rule R180). -/
theorem sequencerInv_enterRunning (h : SequencerInv s) (hi : s.sq.lc = .idle) (hc : s.fl.claimed = true)
    (hn : 1 ≤ s.cfg.nch.toNat) : SequencerInv (enterRunning s) where
  params := h.params
  nch := h.nch
  maxTicks := h.maxTicks
  port := h.port
  phase := by show (0 : BitVec 3) ≠ 7; decide
  reason := by
    have hr := h.reason
    rw [hi] at hr
    show reasonFits .running s.sq.stopReason = true
    revert hr
    cases s.sq.stopReason <;> decide
  running _ := ⟨hc, hn⟩
  idle k := by cases k
  stageLen := h.stageLen
  staged _ k := by cases k
  tick := h.tick
  cycle _ k := by cases k
  length := by
    obtain ⟨ht, hl, -⟩ := h.idle hi
    show s.buf.len.toNat =
      if LoopState.running = .running ∧ committed 0 = true then s.sq.tick.toNat + 1 else s.sq.tick.toNat
    rw [ht, hl]
    rfl
  pos k := absurd (h.pos k).1 (by simp [hi])
  kinds := h.kinds

/-- An abort for a failed transaction, outside the phases whose column is committed (rule R214). -/
theorem sequencerInv_abort (h : SequencerInv { s with io.pos := none })
    (hc : s.sq.lc = .running → committed s.sq.phase = false) : SequencerInv (abort .transportFailure s) :=
  sequencerInv_endSession h hc rfl (.inr rfl)

theorem sequencerInv_command (h : SequencerInv s) (k : CommandEffect s t) : SequencerInv t := by
  rcases k.quiet_cases fun hi => h.pos_none (by simp [hi]) with q | ⟨hi, u, q, rfl | ⟨rfl, hc, hn⟩⟩
  · exact h.quiet q
  · exact sequencerInv_abort (h.quiet q).clearPos fun k => by rw [q.sq, hi] at k; cases k
  · exact sequencerInv_enterRunning (h.quiet q) (by rw [q.sq]; exact hi) hc hn

/-! ### Register writes -/

/-- In Idle, a change of the configuration that keeps NCH and MAX_TICKS legal (rules R36, R42). -/
theorem sequencerInv_config (h : SequencerInv s) (hi : s.sq.lc = .idle) (k : OnlyConfig s t)
    (hn : t.cfg.nch.toNat ≤ s.params.nchMax) (hm : t.cfg.maxTicks.toNat ≤ s.params.bufDepth) : SequencerInv t := by
  obtain ⟨htick, hlen, hstage⟩ := h.idle hi
  have hb : t.buf.len = s.buf.len := by rw [k.buf]
  have hne : t.sq.lc ≠ .running := by rw [k.sq, hi]; decide
  have hdp : GoodResults t.dp := by rw [k.dp]; exact ((goodEntries_iff s).mp h.kinds).results
  exact
    { params := by rw [k.params]; exact h.params
      nch := by rw [k.params]; exact hn
      maxTicks := by rw [k.params]; exact hm
      port := by rw [k.io]; exact h.port
      phase := by rw [k.sq]; exact h.phase
      reason := by rw [k.sq]; exact h.reason
      running := fun e => absurd e hne
      idle := fun _ => by rw [k.sq, hb, k.tab]; exact ⟨htick, hlen, hstage⟩
      stageLen := by rw [k.tab, hstage]; exact Nat.zero_le _
      staged := fun e => absurd e hne
      tick := by rw [k.sq, htick]; exact Nat.zero_le _
      cycle := fun e => absurd e hne
      length := by rw [hb, k.sq]; exact h.length
      pos := by rw [k.io, h.pos_none (by simp [hi])]; exact nofun
      kinds := (goodEntries_iff t).mpr (((goodEntries_iff s).mp h.kinds).congr hdp k.tab (by rw [k.buf])) }

/-- A legal value leaves NCH and MAX_TICKS legal (rule R197 steps 5 and 6). -/
theorem legal_storeReg {r : Reg} {width : Nat} {w : Word32} (hw : r.writeWidth = some width)
    (hv : badValue s.params r width w = false) (hn : s.cfg.nch.toNat ≤ s.params.nchMax)
    (hm : s.cfg.maxTicks.toNat ≤ s.params.bufDepth) :
    (accept (storeReg r w s)).cfg.nch.toNat ≤ s.params.nchMax ∧
      (accept (storeReg r w s)).cfg.maxTicks.toNat ≤ s.params.bufDepth := by
  cases r with
  | nch =>
    simp only [badValue, Bool.or_eq_false_iff, decide_eq_false_iff_not] at hv
    refine ⟨?_, hm⟩
    show (w.setWidth 6).toNat ≤ _
    rw [BitVec.toNat_setWidth]
    exact (Nat.mod_le _ _).trans (by omega)
  | maxTicks =>
    simp only [badValue, Bool.or_eq_false_iff, decide_eq_false_iff_not] at hv
    exact ⟨hn, by show w.toNat ≤ _; omega⟩
  | _ => exact ⟨hn, hm⟩

theorem quiet_window {r : Reg} (hr : r.isWindow = true) (w : Word32) (s : State) :
    Quiet s (accept (storeReg r w s)) := by
  cases r with
  | bufCh => exact .of_eq rfl rfl rfl (fun _ => rfl) rfl rfl rfl rfl rfl rfl
  | bufTick => exact .of_eq rfl rfl rfl (fun _ => rfl) rfl rfl rfl rfl rfl rfl
  | _ => cases hr

theorem sequencerInv_regwr (h : SequencerInv s) (k : RegwrEffect s t) : SequencerInv t := by
  cases k with
  | command _ hk => exact sequencerInv_command h hk
  | interrupts => exact h.quiet (quiet_interrupted s)
  | window r w hr => exact h.quiet (quiet_window hr w s)
  | config r width w hw hr hi hp hv =>
    obtain ⟨hn, hm⟩ := legal_storeReg hw hv h.nch h.maxTicks
    exact sequencerInv_config h hi (onlyConfig_accept_storeReg r w s) hn hm

end Commands

/-! ### PH_SAMPLE -/

section Pass
variable {s t : State} {n k : Nat} {pos : Option SamplePos}

/-- Between two visits of a pass: the invariant but for the place inside the step, with the column whole once every
channel is visited. -/
structure SeqPass (n : Nat) (pos : Option SamplePos) (k : Nat) (s : State) : Prop where
  inv : SequencerInv { s with io.pos := none }
  running : s.sq.lc = .running
  phase : s.sq.phase = 1
  nch : s.cfg.nch.toNat = n
  whole : n ≤ k → s.tab.stageLen.toNat = n
  pos : s.io.pos = pos

theorem SeqPass.good (h : SeqPass n pos k s) : GoodEntries s :=
  have g := (goodEntries_iff _).mp h.inv.kinds
  ⟨g.results, g.stage, g.rjStage, g.seqs⟩

/-- A visit that stages entry `k` (rule R165). -/
theorem SeqPass.next (h : SeqPass n pos k s) (hk : k < n)
    (q : SameLoop { s with io.pos := none } { t with io.pos := none })
    (hlen : t.tab.stageLen = BitVec.ofNat 6 (k + 1)) (hg : GoodEntries t) (hpos : t.io.pos = s.io.pos) :
    SeqPass n pos (k + 1) t where
  inv := by
    refine h.inv.of_sameLoop q (.inr ⟨h.running, h.phase, ?_⟩) ⟨hg.results, hg.stage, hg.rjStage, hg.seqs⟩
    show t.tab.stageLen.toNat ≤ s.cfg.nch.toNat
    rw [hlen, toNat_ofNat_nch (s := s) (by rw [h.nch]; omega), h.nch]
    omega
  running := by rw [show t.sq = { s.sq with ch := t.sq.ch } from q.sq]; exact h.running
  phase := by rw [show t.sq = { s.sq with ch := t.sq.ch } from q.sq]; exact h.phase
  nch := by rw [show t.cfg = s.cfg from q.cfg]; exact h.nch
  whole _ := by rw [hlen, toNat_ofNat_nch (s := s) (by rw [h.nch]; omega)]; omega
  pos := hpos.trans h.pos

/-- The pass's own assignments write CH and the tables alone. -/
theorem sameLoop_of_tables (hp : t.params = s.params) (hsq : t.sq = { s.sq with ch := t.sq.ch }) (hfl : t.fl = s.fl)
    (hcfg : t.cfg = s.cfg) (hbuf : t.buf = s.buf) (hport : t.io.port = s.io.port) :
    SameLoop { s with io.pos := none } { t with io.pos := none } :=
  ⟨hp, hsq, nofun, fun _ => by show t.fl.claimed = _; rw [hfl], hcfg, by show t.buf.seqs = _; rw [hbuf],
    by show t.buf.len = _; rw [hbuf], hport, rfl⟩

theorem seqPass_steps (n : Nat) (pos : Option SamplePos) : PassSteps (SeqPass n pos) n where
  skip k s hk h _ :=
    h.next hk (sameLoop_of_tables rfl rfl rfl rfl rfl rfl) rfl
      (goodEntries_stageQuarantined (s := visit k s) (h.good.congr h.good.results rfl rfl) k) rfl
  isolate k _ hk h _ _ :=
    have g := goodEntries_stageReading h.good k
    h.next hk (sameLoop_of_tables rfl rfl rfl rfl rfl rfl) rfl ⟨g.results, g.stage, g.rjStage, g.seqs⟩ rfl
  stage k _ hk h _ :=
    h.next hk (sameLoop_of_tables rfl rfl rfl rfl rfl rfl) rfl (goodEntries_stageReading h.good k) rfl

/-- The readings of a channel, begun with the step in progress. -/
theorem SeqPass.of_acquired (h : SeqPass n pos k s) (ha : Acquired s t) : SeqPass n pos k t where
  inv := by
    have q : SameLoop { s with io.pos := none } { t with io.pos := none } :=
      sameLoop_of_tables ha.params ha.sq ha.fl ha.cfg ha.buf ha.port
    exact h.inv.quiet ⟨q, ha.tab, ha.results⟩
  running := by rw [ha.sq]; exact h.running
  phase := by rw [ha.sq]; exact h.phase
  nch := by rw [ha.cfg]; exact h.nch
  whole hk := by rw [ha.tab]; exact h.whole hk
  pos := ha.pos.trans h.pos

theorem SeqPass.abort (h : SeqPass n pos k s) : SequencerInv (abort .transportFailure s) :=
  sequencerInv_abort h.inv fun _ => by rw [h.phase]; rfl

theorem SeqPass.visit (h : SeqPass n pos k s) (i : Nat) : SeqPass n pos k (visit i s) :=
  h.of_acquired (.of_eq (by constructor <;> rfl) rfl rfl rfl)

theorem seqPass_readReading (h : SeqPass n pos k s) :
    (readReading k (Machine.visit k s)).Post (fun _ t => SeqPass n pos k t)
      (fun x t => SequencerInv (Machine.abort x t)) := by
  refine (acquires_readReading k (Machine.visit k s)).mono (fun _ _ ha => (h.visit k).of_acquired ha) ?_
  rintro _ u ⟨rfl, ha⟩
  exact ((h.visit k).of_acquired ha).abort

theorem SeqPass.cycle (h : SeqPass n pos k s) : s.sq.tick.toNat < s.cfg.maxTicks.toNat :=
  h.inv.cycle h.running (by show inCycle s.sq.phase = true; rw [h.phase]; rfl)

/-- The pass ends with the column whole (rule R165). -/
theorem SeqPass.finish (h : SeqPass n pos n s) : SequencerInv (({ s with io.pos := none } : State).goto 2) := by
  refine SequencerInv.goto (s := { s with io.pos := none }) h.inv rfl (by decide) (fun _ => ?_) (fun _ => h.cycle)
    fun _ => by show _ = committed s.sq.phase; rw [h.phase]; rfl
  exact BitVec.eq_of_toNat_eq ((h.whole (Nat.le_refl n)).trans h.nch.symm)

/-- The pass ends in a sensor fault (rule R166). -/
theorem SeqPass.halt (h : SeqPass n pos k s) (hk : k < n) :
    SequencerInv (haltSession { stageReading k s with io.pos := none }) := by
  have hst : SeqPass n pos (k + 1) (stageReading k s) :=
    h.next hk (sameLoop_of_tables rfl rfl rfl rfl rfl rfl) rfl (goodEntries_stageReading h.good k) rfl
  have hq : SequencerInv { stageReading k s with io.pos := none, fl.halt := true } :=
    hst.inv.quiet (.of_eq rfl rfl rfl (fun _ => rfl) rfl rfl rfl rfl rfl rfl)
  exact SequencerInv.goto (s := { stageReading k s with io.pos := none, fl.halt := true }) hq rfl (by decide)
    (fun e => absurd e (by decide)) (fun _ => hst.cycle) fun _ => by show _ = committed s.sq.phase; rw [h.phase]; rfl

/-- PH_SAMPLE begins (rule R165). -/
theorem seqPass_clearStaging (h : SequencerInv s) (hr : s.sq.lc = .running) (hph : s.sq.phase = 1)
    (hpos : s.io.pos = none) : SeqPass s.cfg.nch.toNat none 0 (clearStaging s) where
  inv := by
    have g := goodEntries_clearStaging ((goodEntries_iff s).mp h.kinds)
    exact h.clearPos.of_sameLoop (sameLoop_of_tables (t := clearStaging s) rfl rfl rfl rfl rfl rfl)
      (.inr ⟨hr, hph, Nat.zero_le _⟩) ⟨g.results, g.stage, g.rjStage, g.seqs⟩
  running := hr
  phase := hph
  nch := rfl
  whole h0 := by have := (h.running hr).2; omega
  pos := hpos

theorem sequencerInv_phSample (h : SequencerInv s) (hr : s.sq.lc = .running) (hph : s.sq.phase = 1)
    (hpos : s.io.pos = none) : SequencerInv (phSample s).settle := by
  refine Flow.Post.settle (P := SequencerInv) (Q := fun x t => SequencerInv (abort x t)) ?_ fun _ _ k => k
  refine (seqPass_steps s.cfg.nch.toNat none).phSample ?_ ?_ ?_ (seqPass_clearStaging h hr hph hpos)
  · exact fun k u _ hu => seqPass_readReading hu
  · intro k u hk hu _ _
    have := hu.halt hk
    rwa [setPos_eq_self (s := stageReading k u) hu.pos] at this
  · intro u hu
    have := hu.finish
    rwa [setPos_eq_self hu.pos] at this

/-! ### PH_SAMPLE by micro-steps -/

theorem SeqPass.enter (h : SeqPass n pos k s) (i : Nat) (hi : i < n) (p : SamplePos) :
    SequencerInv { frameHead i (Machine.visit i s) with io.pos := some p } := by
  have hf := (h.visit i).of_acquired (acquired_frameHead i _)
  refine SequencerInv.setPos hf.inv hf.running hf.phase ?_ p
  show (BitVec.ofNat 6 i).toNat < s.cfg.nch.toNat
  rw [toNat_ofNat_nch (s := s) (by rw [h.nch]; omega), h.nch]
  exact hi

theorem sequencerInv_enterChannels (h : SeqPass s.cfg.nch.toNat pos 0 s) :
    SequencerInv (enterChannels s.channels s) := by
  rw [channels_eq_range']
  exact (seqPass_steps _ pos).enterChannels (E := SequencerInv) (fun i _ hi hu _ => hu.enter i hi _)
    (fun _ hu => hu.finish) _ 0 s (Nat.zero_add _) h

theorem sequencerInv_leaveChannel (h : SeqPass s.cfg.nch.toNat pos k s) (hk : k < s.cfg.nch.toNat) :
    SequencerInv (leaveChannel k s) :=
  (seqPass_steps _ pos).leaveChannel (E := SequencerInv) (fun _ _ hi hu _ _ => hu.halt hi)
    (fun i _ hi hu _ => hu.enter i hi _) (fun _ hu => hu.finish) k s hk rfl h

/-- What follows a transaction of a frame. -/
theorem sequencerInv_afterFramePin {p : SamplePos} (h : SequencerInv s) (hpos : s.io.pos = some p) :
    SequencerInv (afterFramePin p s.sq.ch.toNat s) := by
  obtain ⟨hr, hph, hch⟩ := h.pos (by simp [hpos])
  have pass : SeqPass s.cfg.nch.toNat (some p) s.sq.ch.toNat s :=
    ⟨h.clearPos, hr, hph, rfl, fun k => absurd hch (by omega), hpos⟩
  unfold afterFramePin
  split
  · exact SequencerInv.setPos h.clearPos hr hph hch _
  · split
    · exact (pass.of_acquired (acquired_finishRj s)).enter _ hch _
    · have hcfg : (finishTc s).cfg = s.cfg := (onlyChannel_finishTc s).cfg
      have hf := pass.of_acquired (acquired_finishTc s)
      rw [← hcfg] at hf hch
      exact sequencerInv_leaveChannel hf hch

theorem sequencerInv_sampleMicro (h : SequencerInv s) (hr : s.sq.lc = .running)
    (hp : s.io.pos.isSome = true ∨ s.sq.phase = 1) : SequencerInv (sampleMicro s) := by
  unfold sampleMicro
  split
  · rename_i hpos
    exact sequencerInv_enterChannels (s := clearStaging s)
      (seqPass_clearStaging h hr (hp.resolve_left (by simp [hpos])) hpos)
  · rename_i p hpos
    obtain ⟨-, hph, -⟩ := h.pos (by simp [hpos])
    refine Flow.Post.settle (P := SequencerInv) (Q := fun x t => SequencerInv (abort x t)) ?_ fun _ _ k => k
    refine Flow.Post.andThen (P := fun _ u => Acquired s u ∧ u.sq = s.sq)
      ((keeps_framePin s.sq.ch.toNat p.done s).mono (fun _ _ k => k) ?_) ?_
    · rintro _ u ⟨rfl, ha, hsq⟩
      exact sequencerInv_abort (h.quiet (ha.quiet_of_sq hsq)).clearPos fun _ => by rw [hsq, hph]; rfl
    · rintro _ u ⟨ha, hsq⟩
      show SequencerInv (afterFramePin p s.sq.ch.toNat u)
      rw [← hsq]
      exact sequencerInv_afterFramePin (h.quiet (ha.quiet_of_sq hsq)) (ha.pos.trans hpos)

end Pass

/-! ### The other steps -/

section Steps
variable {s t : State}

theorem sequencerInv_phBoundary (h : SequencerInv s) (hpos : s.io.pos = none) (hph : s.sq.phase = 0) :
    SequencerInv (phBoundary s) := by
  have hc : s.sq.lc = .running → committed s.sq.phase = false := fun _ => by rw [hph]; rfl
  unfold phBoundary
  split
  · exact sequencerInv_endSession h.clearPos hc rfl (.inl rfl)
  · split
    · exact sequencerInv_endSession h.clearPos hc rfl (.inl rfl)
    · exact h.goto hpos (by decide) (fun e => absurd e (by decide)) (fun _ => by omega)
        fun _ => by rw [hph]; rfl

theorem SequencerInv.emit (h : SequencerInv s) (e : Event) : SequencerInv (s.emit e) :=
  h.quiet (.of_eq rfl rfl rfl (fun _ => rfl) rfl rfl rfl rfl rfl rfl)

/-- PH_APPEND has room for one more column (rules R9, R42). -/
theorem SequencerInv.toNat_len_succ (h : SequencerInv s) (hr : s.sq.lc = .running) (hph : s.sq.phase = 2) :
    (s.buf.len + 1).toNat = s.buf.len.toNat + 1 := by
  have hlt : s.sq.tick.toNat < s.cfg.maxTicks.toNat := h.cycle hr (by rw [hph]; rfl)
  have hlen : s.buf.len.toNat = s.sq.tick.toNat := h.length.trans (if_neg (by rw [hph]; simp [committed]))
  have := h.maxTicks
  obtain ⟨-, -, -, hd⟩ := h.params
  rw [BitVec.toNat_add]
  simp only [BitVec.ofNat_eq_ofNat, BitVec.toNat_ofNat]
  omega

/-- PH_APPEND counts the column it commits; BUF_LEN is one ahead of TICK until PH_TICK (rule R171). -/
theorem sequencerInv_phAppend (h : SequencerInv s) (hr : s.sq.lc = .running) (hpos : s.io.pos = none)
    (hph : s.sq.phase = 2) : SequencerInv (phAppend s).settle := by
  rw [phAppend_settle_whole s (h.staged hr hph)]
  have hlt : s.sq.tick.toNat < s.cfg.maxTicks.toNat := h.cycle hr (by rw [hph]; rfl)
  have hlen : s.buf.len.toNat = s.sq.tick.toNat := h.length.trans (if_neg (by rw [hph]; simp [committed]))
  have hsucc : (s.buf.len + 1).toNat = s.sq.tick.toNat + 1 := by rw [h.toNat_len_succ hr hph, hlen]
  exact
    { params := h.params
      nch := h.nch
      maxTicks := h.maxTicks
      port := h.port
      phase := by show (3 : BitVec 3) ≠ 7; decide
      reason := h.reason
      running := h.running
      idle := fun k => absurd (k.symm.trans hr) (by decide)
      stageLen := h.stageLen
      staged := fun _ k => absurd k (by show ¬ (3 : BitVec 3) = 2; decide)
      tick := h.tick
      cycle := fun _ _ => hlt
      length := hsucc.trans (if_pos ⟨hr, rfl⟩).symm
      pos := fun k => by simp [hpos] at k
      kinds := (goodEntries_iff _).mpr (goodEntries_append ((goodEntries_iff s).mp h.kinds) rfl rfl rfl) }

/-- PH_TICK counts the tick whose column is committed (rule R185). -/
theorem sequencerInv_phTick (h : SequencerInv s) (hr : s.sq.lc = .running) (hpos : s.io.pos = none)
    (hph : s.sq.phase = 4) : SequencerInv (phTick s) := by
  have hlt : s.sq.tick.toNat < s.cfg.maxTicks.toNat := h.cycle hr (by rw [hph]; rfl)
  have hlen : s.buf.len.toNat = s.sq.tick.toNat + 1 := h.length.trans (if_pos ⟨hr, by rw [hph]; rfl⟩)
  have hsucc : (s.sq.tick + 1).toNat = s.sq.tick.toNat + 1 := by
    have := s.cfg.maxTicks.isLt
    rw [BitVec.toNat_add]
    simp only [BitVec.ofNat_eq_ofNat, BitVec.toNat_ofNat]
    omega
  rw [phTick_eq]
  have hp := ite_eq_or_eq (s.cfg.maxTicks.toNat ≤ (s.sq.tick + 1).toNat) (0 : BitVec 3) 5
  generalize (if s.cfg.maxTicks.toNat ≤ (s.sq.tick + 1).toNat then 0 else 5 : BitVec 3) = p at hp ⊢
  obtain ⟨h7, h2, hcyc, hcom⟩ : p ≠ 7 ∧ p ≠ 2 ∧ inCycle p = false ∧ committed p = false := by
    rcases hp with rfl | rfl <;> decide
  exact
    { params := h.params
      nch := h.nch
      maxTicks := h.maxTicks
      port := h.port
      phase := h7
      reason := h.reason
      running := h.running
      idle := fun k => absurd (k.symm.trans hr) (by decide)
      stageLen := h.stageLen
      staged := fun _ k => absurd k h2
      tick := by show (s.sq.tick + 1).toNat ≤ s.cfg.maxTicks.toNat; omega
      cycle := fun _ k => absurd (hcyc.symm.trans k) (by decide)
      length := by
        have hc : ¬ (s.sq.lc = .running ∧ committed p = true) := fun k => absurd (hcom.symm.trans k.2) (by decide)
        exact hlen.trans (hsucc.symm.trans (if_neg hc).symm)
      pos := fun k => by simp [hpos] at k
      kinds := h.kinds }

theorem sequencerInv_effect (h : SequencerInv s) (k : StepEffect s t) : SequencerInv t := by
  cases k with
  | reads w => exact h.quiet (.of_eq rfl rfl rfl (fun _ => rfl) rfl rfl rfl rfl rfl rfl)
  | writes _ hk => exact sequencerInv_regwr h hk
  | rests hr => exact h
  | micro hr hp => exact sequencerInv_sampleMicro h hr hp
  | boundary hr hp hph => exact sequencerInv_phBoundary h hp hph
  | sample hr hp hph => exact sequencerInv_phSample h hr hph hp
  | append hr hp hph => exact sequencerInv_phAppend h hr hp hph
  | telem hr hp hph =>
    have ht : SequencerInv (emitTelem s) := h.emit _
    refine ht.goto hp (by decide) (fun e => absurd e (by decide)) (fun _ => ?_) fun _ => ?_
    · exact h.cycle hr (by rw [hph]; rfl)
    · show _ = committed s.sq.phase
      rw [hph]; rfl
  | tick hr hp hph => exact sequencerInv_phTick h hr hp hph
  | sleep hr hp hph =>
    refine (h.emit _).goto hp (by decide) (fun e => absurd e (by decide)) (fun e => absurd e (by decide))
      fun _ => ?_
    show _ = committed s.sq.phase
    rw [hph]; rfl
  | halt hr hp hph =>
    have ht : SequencerInv (emitTelem s) := h.emit _
    have hc : committed s.sq.phase = false := by rw [hph]; rfl
    exact sequencerInv_endSession ht.clearPos (fun _ => hc) rfl (.inl rfl)

theorem goodEntries_resetInput (s : State) : GoodEntries (resetInput s) where
  results := by
    show entryKind 0 ≠ 3 ∧ entryKind 0 ≠ 3
    decide
  stage i := by
    show entryKind (tabGet entryEmpty (Vector.replicate 32 entryEmpty) i) ≠ 3
    rw [tabGet_replicate_default]; decide
  rjStage i := by
    show entryKind (tabGet entryEmpty (Vector.replicate 32 entryEmpty) i) ≠ 3
    rw [tabGet_replicate_default]; decide
  seqs ch e he := by
    have : e ∈ tabGet [] (Vector.replicate 32 ([] : List Word32)) ch := he
    rw [tabGet_replicate_default] at this
    cases this

/-- The reset input establishes the invariant for any legal parameters (rule R240). -/
theorem sequencerInv_resetInput (hp : s.params.wf) : SequencerInv (resetInput s) where
  params := hp
  nch := Nat.zero_le _
  maxTicks := Nat.zero_le _
  port := rfl
  phase := by show (0 : BitVec 3) ≠ 7; decide
  reason := rfl
  running k := by cases k
  idle _ := ⟨rfl, rfl, rfl⟩
  stageLen := Nat.le_refl _
  staged k := by cases k
  tick := Nat.le_refl _
  cycle k := by cases k
  length := rfl
  pos k := by cases k
  kinds := (goodEntries_iff _).mpr (goodEntries_resetInput s)

theorem SequencerInv.popTurn (h : SequencerInv s) : SequencerInv s.popTurn :=
  h.quiet (.of_eq rfl rfl rfl (fun _ => rfl) rfl rfl rfl rfl rfl rfl)

/-- Every step that answers keeps the sequencer's invariant. -/
theorem sequencerInv_step (h : SequencerInv s) (hs : step s = .next t) : SequencerInv t := by
  obtain ⟨-, ⟨-, rfl⟩ | hk⟩ := step_effect h.port hs
  · exact sequencerInv_resetInput h.params
  · exact sequencerInv_effect h.popTurn hk

end Steps
end Sys2Proof.Machine

/-! The buffer's invariant (spec/10_state.md rule R50, spec/45_sampler_buffer.md rules R166, R171). -/

namespace Sys2Proof.Machine

/-- The buffer's invariant in every LC state: aligned lengths, and under HaltOnFault neither a quarantined channel nor a
committed FaultMarker. -/
structure BufferStored (s : State) : Prop where
  lengths : ∀ ch, ch < s.cfg.nch.toNat → (s.seqAt ch).length = s.buf.len.toNat
  noQuarantine : s.cfg.policy = .haltOnFault → ∀ ch, s.quarAt ch = false
  noMarkerCommitted : s.cfg.policy = .haltOnFault → ∀ ch, ch < s.cfg.nch.toNat → ∀ e ∈ s.seqAt ch, entryKind e ≠ 2

/-- The buffer's invariant without the sequencer's. -/
structure BufferContents (s : State) : Prop extends BufferStored s where
  idle : s.sq.lc = .idle → ∀ ch, s.seqAt ch = [] ∧ s.quarAt ch = false
  noMarkerStaged : s.cfg.policy = .haltOnFault → s.sq.lc = .running → s.sq.phase = 2 →
    ∀ ch, ch < s.cfg.nch.toNat → entryKind (s.stageAt ch) ≠ 2
  noMarkerInPass : s.cfg.policy = .haltOnFault → s.io.pos.isSome = true →
    ∀ ch, ch < s.sq.ch.toNat → entryKind (s.stageAt ch) ≠ 2

theorem bufferInv_iff (s : State) : BufferInv s ↔ SequencerInv s ∧ BufferContents s :=
  ⟨fun h => ⟨h.seq, ⟨h.lengths, h.noQuarantine, h.noMarkerCommitted⟩, h.idle, h.noMarkerStaged, h.noMarkerInPass⟩,
    fun ⟨hs, h⟩ => ⟨hs, h.idle, h.lengths, h.noQuarantine, h.noMarkerStaged, h.noMarkerInPass, h.noMarkerCommitted⟩⟩

section Contents
variable {s t : State}

theorem seqAt_of_seqs (h : t.buf.seqs = s.buf.seqs) (ch : Nat) : t.seqAt ch = s.seqAt ch := by simp [State.seqAt, h]

theorem quarAt_of_quar (h : t.tab.quar = s.tab.quar) (i : Nat) : t.quarAt i = s.quarAt i := by simp [State.quarAt, h]

theorem stageAt_of_stage (h : t.tab.stage = s.tab.stage) (i : Nat) : t.stageAt i = s.stageAt i := by
  simp [State.stageAt, h]

theorem BufferStored.congr (h : BufferStored s) (hcfg : t.cfg = s.cfg) (hseqs : t.buf.seqs = s.buf.seqs)
    (hlen : t.buf.len = s.buf.len) (hquar : t.tab.quar = s.tab.quar) : BufferStored t where
  lengths ch hch := by rw [seqAt_of_seqs hseqs, hlen]; exact h.lengths ch (by rwa [hcfg] at hch)
  noQuarantine hp ch := by rw [quarAt_of_quar hquar]; exact h.noQuarantine (by rwa [hcfg] at hp) ch
  noMarkerCommitted hp ch hch e he := by
    rw [hcfg] at hp hch
    rw [seqAt_of_seqs hseqs] at he
    exact h.noMarkerCommitted hp ch hch e he

theorem BufferContents.quiet (h : BufferContents s) (q : Quiet s t) : BufferContents t where
  toBufferStored := h.toBufferStored.congr q.cfg q.seqs q.len (by rw [q.tab])
  idle hi ch := by
    rw [seqAt_of_seqs q.seqs, quarAt_of_quar (s := s) (by rw [q.tab])]
    exact h.idle (by rwa [q.sq] at hi) ch
  noMarkerStaged hp hr hph ch hch := by
    rw [q.cfg] at hp hch
    rw [q.sq] at hr hph
    rw [stageAt_of_stage (s := s) (by rw [q.tab])]
    exact h.noMarkerStaged hp hr hph ch hch
  noMarkerInPass hp hpos ch hch := by
    rw [q.cfg] at hp
    rw [q.pos] at hpos
    rw [q.ch hpos] at hch
    rw [stageAt_of_stage (s := s) (by rw [q.tab])]
    exact h.noMarkerInPass hp hpos ch hch

/-- Outside Idle and PH_APPEND, with no step in progress, only what is stored counts. -/
theorem BufferStored.contents (h : BufferStored s) (hi : s.sq.lc ≠ .idle)
    (hph : s.sq.lc = .running → s.sq.phase ≠ 2) (hpos : s.io.pos = none) : BufferContents s where
  toBufferStored := h
  idle k := absurd k hi
  noMarkerStaged _ hr k := absurd k (hph hr)
  noMarkerInPass _ k := by simp [hpos] at k

theorem bufferContents_endSession (h : BufferStored s) {lc : LoopState} (reason : StopReason)
    (hlc : lc = .stopped ∨ lc = .aborted) : BufferContents (endSession lc reason s) := by
  have e := endSession_spec lc reason s
  refine BufferStored.contents (h.congr e.cfg (by rw [e.buf]) (by rw [e.buf]) (by rw [e.tab])) ?_ ?_ (by rw [e.io])
  · rw [e.sq]; rcases hlc with rfl | rfl <;> exact nofun
  · intro k; rw [e.sq] at k; rcases hlc with rfl | rfl <;> cases k

theorem bufferContents_abort (h : BufferStored s) (x : Cause) : BufferContents (abort x s) :=
  bufferContents_endSession h _ (.inr rfl)

/-! ### Commands and register writes -/

theorem bufferContents_command (hs : SequencerInv s) (h : BufferContents s) (k : CommandEffect s t) :
    BufferContents t := by
  rcases k.quiet_cases fun hi => hs.pos_none (by simp [hi]) with q | ⟨hi, u, q, rfl | ⟨rfl, -, -⟩⟩
  · exact h.quiet q
  · exact bufferContents_abort (h.quiet q).toBufferStored _
  · refine BufferStored.contents (s := enterRunning u) ((h.quiet q).toBufferStored.congr rfl rfl rfl rfl) nofun
      (fun _ => by show (0 : BitVec 3) ≠ 2; decide) ?_
    exact q.pos.trans (hs.pos_none (by simp [hi]))

/-- In Idle the buffer is empty and no channel is quarantined, whatever the configuration becomes. -/
theorem bufferContents_config (hs : SequencerInv s) (h : BufferContents s) (hi : s.sq.lc = .idle) (k : OnlyConfig s t) :
    BufferContents t := by
  have hlc : t.sq.lc = .idle := by rw [k.sq]; exact hi
  have empty : ∀ ch, t.seqAt ch = [] ∧ t.quarAt ch = false := fun ch => by
    rw [seqAt_of_seqs (s := s) (by rw [k.buf]), quarAt_of_quar (s := s) (by rw [k.tab])]
    exact h.idle hi ch
  exact
    { lengths := fun ch _ => by
        rw [(empty ch).1, show t.buf.len = s.buf.len by rw [k.buf], (hs.idle hi).2.1]; rfl
      noQuarantine := fun _ ch => (empty ch).2
      noMarkerCommitted := fun _ ch _ e he => by rw [(empty ch).1] at he; cases he
      idle := fun _ => empty
      noMarkerStaged := fun _ hr => by rw [hlc] at hr; cases hr
      noMarkerInPass := fun _ hp => by rw [k.io, hs.pos_none (by simp [hi])] at hp; cases hp }

theorem bufferContents_regwr (hs : SequencerInv s) (h : BufferContents s) (k : RegwrEffect s t) :
    BufferContents t := by
  cases k with
  | command _ hk => exact bufferContents_command hs h hk
  | interrupts => exact h.quiet (quiet_interrupted s)
  | window r w hr => exact h.quiet (quiet_window hr w s)
  | config r width w hw hr hi hp hv => exact bufferContents_config hs h hi (onlyConfig_accept_storeReg r w s)

end Contents

/-! ### PH_SAMPLE -/

section Pass
variable {s t : State} {n k : Nat} {pos : Option SamplePos}

/-- Between two visits of a pass: what is stored, and under HaltOnFault no FaultMarker staged for the channels
visited. -/
structure BufferPass (n : Nat) (pos : Option SamplePos) (k : Nat) (s : State) : Prop where
  stored : BufferStored s
  running : s.sq.lc = .running
  phase : s.sq.phase = 1
  nch : s.cfg.nch.toNat = n
  clean : s.cfg.policy = .haltOnFault → ∀ ch, ch < k → entryKind (s.stageAt ch) ≠ 2
  pos : s.io.pos = pos

theorem clean_stageReading (h : BufferPass n pos k s) (hn : n ≤ 32) (hk : k < n) (hf : s.faulted = false)
    (hp : s.cfg.policy = .haltOnFault) (ch : Nat) (hch : ch < k + 1) :
    entryKind ((stageReading k s).stageAt ch) ≠ 2 := by
  rw [stageAt_stageReading]
  split
  · simpa [State.faulted] using hf
  · exact h.clean hp ch (by omega)

theorem bufferPass_steps (n : Nat) (hn : n ≤ 32) (pos : Option SamplePos) : PassSteps (BufferPass n pos) n where
  skip k _ _ h hq :=
    { stored := h.stored.congr rfl rfl rfl rfl
      running := h.running
      phase := h.phase
      nch := h.nch
      clean := fun hp => absurd (h.stored.noQuarantine hp k) (by simp [hq])
      pos := h.pos }
  isolate _ _ _ h _ hq :=
    { stored :=
        { lengths := h.stored.lengths
          noQuarantine := fun hp => absurd (hq.symm.trans hp) (by decide)
          noMarkerCommitted := h.stored.noMarkerCommitted }
      running := h.running
      phase := h.phase
      nch := h.nch
      clean := fun hp => absurd (hq.symm.trans hp) (by decide)
      pos := h.pos }
  stage _ _ hk h hf :=
    { stored := h.stored.congr rfl rfl rfl rfl
      running := h.running
      phase := h.phase
      nch := h.nch
      clean := fun hp ch hch => clean_stageReading h hn hk hf hp ch hch
      pos := h.pos }

theorem BufferPass.of_acquired (h : BufferPass n pos k s) (ha : Acquired s t) : BufferPass n pos k t where
  stored := h.stored.congr ha.cfg (by rw [ha.buf]) (by rw [ha.buf]) (by rw [ha.tab])
  running := by rw [ha.sq]; exact h.running
  phase := by rw [ha.sq]; exact h.phase
  nch := by rw [ha.cfg]; exact h.nch
  clean hp ch hch := by
    rw [stageAt_of_stage (s := s) (by rw [ha.tab])]
    exact h.clean (by rwa [ha.cfg] at hp) ch hch
  pos := ha.pos.trans h.pos

theorem acquired_visit (i : Nat) (s : State) : Acquired s (visit i s) := .of_eq (by constructor <;> rfl) rfl rfl rfl

theorem bufferPass_readReading (h : BufferPass n pos k s) :
    (readReading k (visit k s)).Post (fun _ t => BufferPass n pos k t) (fun _ t => BufferStored t) := by
  have hv := h.of_acquired (acquired_visit k s)
  exact (acquires_readReading k (visit k s)).mono (fun _ _ ha => hv.of_acquired ha)
    fun _ _ ha => (hv.of_acquired ha.2).stored

theorem BufferPass.finish (h : BufferPass n pos n s) : BufferContents (({ s with io.pos := none } : State).goto 2) where
  toBufferStored := h.stored.congr rfl rfl rfl rfl
  idle k := absurd (k.symm.trans h.running) (by decide)
  noMarkerStaged hp _ _ ch hch := h.clean hp ch (by rw [← h.nch]; exact hch)
  noMarkerInPass _ k := by cases k

theorem BufferPass.halt (h : BufferPass n pos k s) :
    BufferContents (haltSession { stageReading k s with io.pos := none }) :=
  BufferStored.contents (s := haltSession { stageReading k s with io.pos := none }) (h.stored.congr rfl rfl rfl rfl)
    (fun k => absurd (k.symm.trans h.running) (by decide)) (fun _ => by show (6 : BitVec 3) ≠ 2; decide) rfl

/-- A frame of channel `k` is about to begin. -/
theorem BufferPass.enter (h : BufferPass n pos k s) (hk : k < n) (p : SamplePos) :
    BufferContents { frameHead k (visit k s) with io.pos := some p } where
  toBufferStored := h.stored.congr rfl rfl rfl rfl
  idle k := absurd (k.symm.trans h.running) (by decide)
  noMarkerStaged _ _ k := absurd (h.phase.symm.trans k) (by decide)
  noMarkerInPass hp _ ch hch := by
    have hlt : ch < (BitVec.ofNat 6 k).toNat := hch
    rw [toNat_ofNat_nch (s := s) (by rw [h.nch]; omega)] at hlt
    exact h.clean hp ch hlt

theorem bufferPass_clearStaging (h : BufferStored s) (hr : s.sq.lc = .running) (hph : s.sq.phase = 1)
    (hpos : s.io.pos = none) : BufferPass s.cfg.nch.toNat none 0 (clearStaging s) :=
  ⟨h.congr rfl rfl rfl rfl, hr, hph, rfl, fun _ _ k => absurd k (Nat.not_lt_zero _), hpos⟩

theorem bufferContents_phSample (h : BufferStored s) (hn : s.cfg.nch.toNat ≤ 32) (hr : s.sq.lc = .running)
    (hph : s.sq.phase = 1) (hpos : s.io.pos = none) : BufferContents (phSample s).settle := by
  refine Flow.Post.settle (P := BufferContents) (Q := fun _ t => BufferStored t) ?_ fun x _ k =>
    bufferContents_abort k x
  refine (bufferPass_steps s.cfg.nch.toNat hn none).phSample ?_ ?_ ?_ (bufferPass_clearStaging h hr hph hpos)
  · exact fun k u _ hu => bufferPass_readReading hu
  · intro k u _ hu _ _
    have := hu.halt
    rwa [setPos_eq_self (s := stageReading k u) hu.pos] at this
  · intro u hu
    have := hu.finish
    rwa [setPos_eq_self hu.pos] at this

/-! ### PH_SAMPLE by micro-steps -/

theorem bufferContents_enterChannels (h : BufferPass s.cfg.nch.toNat pos 0 s) (hn : s.cfg.nch.toNat ≤ 32) :
    BufferContents (enterChannels s.channels s) := by
  rw [channels_eq_range']
  exact (bufferPass_steps _ hn pos).enterChannels (E := BufferContents) (fun _ _ hi hu _ => hu.enter hi _)
    (fun _ hu => hu.finish) _ 0 s (Nat.zero_add _) h

theorem bufferContents_leaveChannel (h : BufferPass s.cfg.nch.toNat pos k s) (hn : s.cfg.nch.toNat ≤ 32)
    (hk : k < s.cfg.nch.toNat) : BufferContents (leaveChannel k s) :=
  (bufferPass_steps _ hn pos).leaveChannel (E := BufferContents) (fun _ _ _ hu _ _ => hu.halt)
    (fun _ _ hi hu _ => hu.enter hi _) (fun _ hu => hu.finish) k s hk rfl h

theorem bufferContents_afterFramePin {p : SamplePos} (hs : SequencerInv s) (hn : s.cfg.nch.toNat ≤ 32)
    (h : BufferContents s) (hpos : s.io.pos = some p) : BufferContents (afterFramePin p s.sq.ch.toNat s) := by
  obtain ⟨hr, hph, hch⟩ := hs.pos (by simp [hpos])
  have pass : BufferPass s.cfg.nch.toNat (some p) s.sq.ch.toNat s :=
    ⟨h.toBufferStored, hr, hph, rfl, fun hp ch k => h.noMarkerInPass hp (by simp [hpos]) ch k, hpos⟩
  unfold afterFramePin
  split
  · exact
      { toBufferStored := h.toBufferStored.congr rfl rfl rfl rfl
        idle := h.idle
        noMarkerStaged := h.noMarkerStaged
        noMarkerInPass := fun hp _ => h.noMarkerInPass hp (by simp [hpos]) }
  · split
    · exact (pass.of_acquired (acquired_finishRj s)).enter hch _
    · have hcfg : (finishTc s).cfg = s.cfg := (onlyChannel_finishTc s).cfg
      have hf := pass.of_acquired (acquired_finishTc s)
      rw [← hcfg] at hf hch hn
      exact bufferContents_leaveChannel hf hn hch

theorem bufferContents_sampleMicro (hs : SequencerInv s) (hn : s.cfg.nch.toNat ≤ 32) (h : BufferContents s)
    (hr : s.sq.lc = .running) (hp : s.io.pos.isSome = true ∨ s.sq.phase = 1) : BufferContents (sampleMicro s) := by
  unfold sampleMicro
  split
  · rename_i hpos
    have hph := hp.resolve_left (by simp [hpos])
    exact bufferContents_enterChannels (s := clearStaging s)
      (bufferPass_clearStaging h.toBufferStored hr hph hpos) hn
  · rename_i p hpos
    refine Flow.Post.settle (P := BufferContents) (Q := fun _ t => BufferStored t) ?_ fun x _ k =>
      bufferContents_abort k x
    refine Flow.Post.andThen (P := fun _ u => Acquired s u ∧ u.sq = s.sq)
      ((keeps_framePin s.sq.ch.toNat p.done s).mono (fun _ _ k => k) ?_) ?_
    · rintro _ u ⟨-, ha, hsq⟩
      exact (h.quiet (ha.quiet_of_sq hsq)).toBufferStored
    · rintro _ u ⟨ha, hsq⟩
      have q := ha.quiet_of_sq hsq
      show BufferContents (afterFramePin p s.sq.ch.toNat u)
      rw [← hsq]
      exact bufferContents_afterFramePin (hs.quiet q) (by rw [q.cfg]; exact hn) (h.quiet q) (ha.pos.trans hpos)

end Pass

/-! ### PH_APPEND, and every step -/

section Steps
variable {s t : State}

theorem SequencerInv.nch_le_32 (h : SequencerInv s) : s.cfg.nch.toNat ≤ 32 := by
  obtain ⟨-, hp, -, -⟩ := h.params
  exact h.nch.trans hp

/-- Every configured channel's sequence gets one entry, its staged one (rules R169, R171). -/
theorem seqAt_phAppend (hs : SequencerInv s) (h : BufferStored s) (hr : s.sq.lc = .running) (hph : s.sq.phase = 2)
    (ch : Nat) :
    (phAppend s).settle.seqAt ch = if ch < s.cfg.nch.toNat then s.seqAt ch ++ [s.stageAt ch] else s.seqAt ch := by
  rw [phAppend_settle_whole s (hs.staged hr hph)]
  exact seqAt_appendedSeqs s hs.nch_le_32 ch (h.lengths ch)

theorem bufferContents_phAppend (hs : SequencerInv s) (h : BufferContents s) (hr : s.sq.lc = .running)
    (hpos : s.io.pos = none) (hph : s.sq.phase = 2) : BufferContents (phAppend s).settle := by
  have hseq := seqAt_phAppend hs h.toBufferStored hr hph
  have hlen := hs.toNat_len_succ hr hph
  rw [phAppend_settle_whole s (hs.staged hr hph)] at hseq ⊢
  refine BufferStored.contents ⟨fun ch hch => ?_, fun hp ch => h.noQuarantine hp ch, fun hp ch hch e he => ?_⟩
    (fun k => absurd (k.symm.trans hr) (by decide)) (fun _ => by show (3 : BitVec 3) ≠ 2; decide) hpos
  · have hch' : ch < s.cfg.nch.toNat := hch
    rw [hseq, if_pos hch', List.length_append, h.lengths ch hch', List.length_singleton]
    exact hlen.symm
  · have hch' : ch < s.cfg.nch.toNat := hch
    rw [hseq, if_pos hch', List.mem_append, List.mem_singleton] at he
    rcases he with he | rfl
    · exact h.noMarkerCommitted hp ch hch' e he
    · exact h.noMarkerStaged hp hr hph ch hch'

theorem BufferContents.goto (h : BufferContents s) (hr : s.sq.lc = .running) (hpos : s.io.pos = none) {p : BitVec 3}
    (hp : p ≠ 2) : BufferContents (s.goto p) :=
  BufferStored.contents (s := s.goto p) (h.toBufferStored.congr rfl rfl rfl rfl)
    (fun k => absurd (k.symm.trans hr) (by decide)) (fun _ => hp) hpos

theorem BufferContents.emit (h : BufferContents s) (e : Event) : BufferContents (s.emit e) :=
  h.quiet (.of_eq rfl rfl rfl (fun _ => rfl) rfl rfl rfl rfl rfl rfl)

theorem bufferContents_phBoundary (h : BufferContents s) (hr : s.sq.lc = .running) (hpos : s.io.pos = none) :
    BufferContents (phBoundary s) := by
  unfold phBoundary
  split
  · exact bufferContents_endSession h.toBufferStored _ (.inl rfl)
  · split
    · exact bufferContents_endSession h.toBufferStored _ (.inl rfl)
    · exact h.goto hr hpos (by decide)

theorem bufferContents_phTick (h : BufferContents s) (hr : s.sq.lc = .running) (hpos : s.io.pos = none) :
    BufferContents (phTick s) := by
  rw [phTick_eq]
  refine BufferStored.contents (h.toBufferStored.congr rfl rfl rfl rfl)
    (fun k => absurd (k.symm.trans hr) (by decide)) (fun _ => ?_) hpos
  rcases ite_eq_or_eq (s.cfg.maxTicks.toNat ≤ (s.sq.tick + 1).toNat) (0 : BitVec 3) 5 with e | e <;>
    simp only [e] <;> decide

theorem bufferContents_effect (hs : SequencerInv s) (h : BufferContents s) (k : StepEffect s t) : BufferContents t := by
  cases k with
  | reads w => exact h.quiet (.of_eq rfl rfl rfl (fun _ => rfl) rfl rfl rfl rfl rfl rfl)
  | writes _ hk => exact bufferContents_regwr hs h hk
  | rests hr => exact h
  | micro hr hp => exact bufferContents_sampleMicro hs hs.nch_le_32 h hr hp
  | boundary hr hp hph => exact bufferContents_phBoundary h hr hp
  | sample hr hp hph => exact bufferContents_phSample h.toBufferStored hs.nch_le_32 hr hph hp
  | append hr hp hph => exact bufferContents_phAppend hs h hr hp hph
  | telem hr hp hph => exact (h.emit _).goto hr hp (by decide)
  | tick hr hp hph => exact bufferContents_phTick h hr hp
  | sleep hr hp hph => exact (h.emit _).goto hr hp (by decide)
  | halt hr hp hph => exact bufferContents_endSession (h.emit _).toBufferStored _ (.inl rfl)

theorem bufferContents_resetInput (s : State) : BufferContents (resetInput s) := by
  have hseq : ∀ ch, (resetInput s).seqAt ch = [] := fun ch => tabGet_replicate_default _ _
  have hquar : ∀ ch, (resetInput s).quarAt ch = false := fun ch => tabGet_replicate_default _ _
  exact
    { lengths := fun ch _ => by rw [hseq]; rfl
      noQuarantine := fun _ => hquar
      noMarkerCommitted := fun _ ch _ e he => by rw [hseq] at he; cases he
      idle := fun _ ch => ⟨hseq ch, hquar ch⟩
      noMarkerStaged := fun _ k => by cases k
      noMarkerInPass := fun _ k => by cases k }

theorem BufferContents.popTurn (h : BufferContents s) : BufferContents s.popTurn :=
  h.quiet (.of_eq rfl rfl rfl (fun _ => rfl) rfl rfl rfl rfl rfl rfl)

end Steps

/-- Settles O14, from the sequencer's invariant and by the effect of the step on the buffer and the staging column. -/
theorem bufferInvariantKept : Obligations.BufferInvariantKept := by
  intro s t h hs
  obtain ⟨hseq, hbuf⟩ := (bufferInv_iff s).mp h
  refine (bufferInv_iff t).mpr ⟨sequencerInv_step hseq hs, ?_⟩
  obtain ⟨-, ⟨-, rfl⟩ | hk⟩ := step_effect hseq.port hs
  · exact bufferContents_resetInput _
  · exact bufferContents_effect hseq.popTurn hbuf.popTurn hk

end Sys2Proof.Machine

/-! Who writes what (spec/10_state.md rules R33, R34, R47 to R50, R55, R57, spec/20_memory.md rule R74). -/

namespace Sys2Proof.Machine

/-! ### What most operations leave alone -/

/-- `t` has the parameters, TICK, the configuration, the buffer and its window, the tables, HALT and INT_PENDING of `s`;
events are only added. -/
structure Steady (s t : State) : Prop where
  params : t.params = s.params
  tick : t.sq.tick = s.sq.tick
  cfg : t.cfg = s.cfg
  buf : t.buf = s.buf
  tab : t.tab = s.tab
  halt : t.fl.halt = s.fl.halt
  intPending : t.fl.intPending = s.fl.intPending
  grows : Grows s t

section Steady
variable {s t u : State}

theorem Steady.refl (s : State) : Steady s s := ⟨rfl, rfl, rfl, rfl, rfl, rfl, rfl, .refl s⟩

theorem Steady.trans (h : Steady s t) (k : Steady t u) : Steady s u :=
  ⟨k.params.trans h.params, k.tick.trans h.tick, k.cfg.trans h.cfg, k.buf.trans h.buf, k.tab.trans h.tab,
    k.halt.trans h.halt, k.intPending.trans h.intPending, h.grows.trans k.grows⟩

theorem Acquired.steady (h : Acquired s t) : Steady s t :=
  ⟨h.params, by rw [h.sq], h.cfg, h.buf, h.tab, by rw [h.fl], by rw [h.fl], h.grows⟩

theorem OnlyPins.steady (h : OnlyPins s t) : Steady s t :=
  ⟨h.params, by rw [h.sq], h.cfg, h.buf, h.tab, by rw [h.fl], by rw [h.fl], h.history⟩

theorem steady_release (s : State) : Steady s (release s) := by
  have e := release_spec s
  exact ⟨e.params, by rw [e.sq], e.cfg, e.buf, e.tab, by rw [e.fl], by rw [e.fl],
    ⟨.release s.claimedPins.length :: s.releaseTrace.reverse, e.history⟩⟩

theorem steady_endSession (lc : LoopState) (reason : StopReason) (s : State) : Steady s (endSession lc reason s) :=
  have h : Steady s
      (({ s with sq.lc := lc, sq.stopReason := reason, io.pos := none } : State).emit (.stop lc reason)) :=
    ⟨rfl, rfl, rfl, rfl, rfl, rfl, rfl, [.stop lc reason], rfl⟩
  h.trans (steady_release _)

theorem steady_refuse (e : ErrCode) (s : State) : Steady s (refuse e s) :=
  ⟨rfl, rfl, rfl, rfl, rfl, rfl, rfl, .refl s⟩

theorem steady_goto (p : BitVec 3) (s : State) : Steady s (s.goto p) := ⟨rfl, rfl, rfl, rfl, rfl, rfl, rfl, .refl s⟩

theorem steady_emit (e : Event) (s : State) : Steady s (s.emit e) := ⟨rfl, rfl, rfl, rfl, rfl, rfl, rfl, grows_emit e s⟩

/-- An operation steady to its end or to its failure is steady with the abort. -/
theorem steady_settle {α : Type} {m : Flow α} (h : m.Keeps Steady s) : Steady s m.settle := by
  rcases h.settle_cases with k | ⟨t, k, e⟩
  · exact k
  · rw [e]; exact k.trans (steady_endSession _ _ t)

theorem keeps_claimPins (s : State) : (claimPins s).Keeps Steady s := by
  refine (claimPins_spec s).mono ?_ fun _ _ k => ⟨k.1, k.2.steady⟩
  rintro _ _ ⟨u, hu, rfl⟩
  exact hu.steady.trans ⟨rfl, rfl, rfl, rfl, rfl, rfl, rfl, .refl u⟩

/-- No command but INTR writes anything of this. -/
theorem CommandEffect.steady (k : CommandEffect s t) : Steady s t := by
  have ha : Steady s (accept s) := steady_refuse .none s
  cases k with
  | answers e => exact steady_refuse e s
  | computes d hi hres hrj => exact ⟨rfl, rfl, rfl, rfl, rfl, rfl, rfl, .refl s⟩
  | claims hi hc hcl => exact ha.trans (steady_settle (keeps_claimPins _))
  | releases hr => exact ha.trans (steady_release _)
  | reads body ch hb hi hc hn =>
    exact ha.trans (steady_settle ((acquires_channelBody hb ch _).mono (fun _ _ h => h.steady)
      fun _ _ h => ⟨h.1, h.2.steady⟩))
  | starts hi hc hn => exact ha.trans ⟨rfl, rfl, rfl, rfl, rfl, rfl, rfl, .refl _⟩
  | claimsAndStarts hi hc hcl =>
    refine ha.trans (steady_settle ((keeps_claimPins _).andThen (fun _ _ _ => Steady.trans) fun _ u => ?_))
    exact ⟨rfl, rfl, rfl, rfl, rfl, rfl, rfl, .refl u⟩

/-- A pin transaction on its own (rules R110 to R112). -/
theorem steady_execPin {i : Instr} (hi : (∃ p d, i = .setdir p d) ∨ (∃ p l, i = .write p l) ∨ ∃ p, i = .read p)
    (h : exec i s = .next t) : Steady s t := by
  rcases hi with ⟨p, d, rfl⟩ | ⟨p, l, rfl⟩ | ⟨p, rfl⟩ <;> cases h
  · exact steady_settle ((onlyPins_pinSetDir p d s).mono (fun _ _ k => k.steady) fun _ _ k => ⟨k.1, k.2.steady⟩)
  · exact steady_settle ((onlyPins_pinWrite p l s).mono (fun _ _ k => k.steady) fun _ _ k => ⟨k.1, k.2.steady⟩)
  · refine steady_settle ?_
    rw [pinRead_eq]
    split
    · exact (onlyPins_afterRead p s).steady
    · exact ⟨rfl, (onlyPins_drawn_emit s _).steady⟩

theorem steady_phBoundary (s : State) : Steady s (phBoundary s) := by
  unfold phBoundary
  split
  · exact steady_endSession _ _ s
  · split
    · exact steady_endSession _ _ s
    · exact steady_goto 1 s

theorem steady_phHalt (s : State) : Steady s (stop .faultHalt (emitTelem s)) :=
  (steady_emit _ s).trans (steady_endSession _ _ _)

/-! ### What PH_SAMPLE leaves alone -/

/-- The same without the tables, and with HALT only set. -/
structure Sampled (s t : State) : Prop where
  params : t.params = s.params
  tick : t.sq.tick = s.sq.tick
  cfg : t.cfg = s.cfg
  buf : t.buf = s.buf
  halt : s.fl.halt = true → t.fl.halt = true
  intPending : t.fl.intPending = s.fl.intPending
  grows : Grows s t

theorem Steady.sampled (h : Steady s t) : Sampled s t :=
  ⟨h.params, h.tick, h.cfg, h.buf, fun k => by rw [h.halt, k], h.intPending, h.grows⟩

theorem Sampled.trans (h : Sampled s t) (k : Sampled t u) : Sampled s u :=
  ⟨k.params.trans h.params, k.tick.trans h.tick, k.cfg.trans h.cfg, k.buf.trans h.buf, fun e => k.halt (h.halt e),
    k.intPending.trans h.intPending, h.grows.trans k.grows⟩

/-- The pass's own assignments. -/
theorem Sampled.of_eq (hp : t.params = s.params) (htick : t.sq.tick = s.sq.tick) (hcfg : t.cfg = s.cfg)
    (hbuf : t.buf = s.buf) (hfl : t.fl = s.fl) (hh : t.history = s.history) : Sampled s t :=
  ⟨hp, htick, hcfg, hbuf, by rw [hfl]; exact id, by rw [hfl], .of_history_eq hh⟩

theorem sampled_steps (s : State) (n : Nat) : PassSteps (fun _ t => Sampled s t) n where
  skip _ _ _ h _ := h.trans (.of_eq rfl rfl rfl rfl rfl rfl)
  isolate _ _ _ h _ _ := h.trans (.of_eq rfl rfl rfl rfl rfl rfl)
  stage _ _ _ h _ := h.trans (.of_eq rfl rfl rfl rfl rfl rfl)

theorem sampled_phSample (s : State) : Sampled s (phSample s).settle := by
  refine Flow.Post.settle (P := Sampled s) (Q := fun _ t => Sampled s t) ?_ fun x t k =>
    k.trans (steady_endSession _ _ t).sampled
  refine (sampled_steps s _).phSample ?_ ?_ ?_ (.of_eq rfl rfl rfl rfl rfl rfl)
  · intro k u _ hu
    have hv : Sampled s (visit k u) := hu.trans (.of_eq rfl rfl rfl rfl rfl rfl)
    exact (acquires_readReading k (visit k u)).mono (fun _ _ ha => hv.trans ha.steady.sampled)
      fun _ _ ha => hv.trans ha.2.steady.sampled
  · exact fun k u _ hu _ _ => hu.trans ⟨rfl, rfl, rfl, rfl, fun _ => rfl, rfl, .refl u⟩
  · exact fun u hu => hu.trans (.of_eq rfl rfl rfl rfl rfl rfl)

theorem buf_sampleMicro (s : State) : (sampleMicro s).buf = s.buf := by
  unfold sampleMicro
  split
  · exact (onlySample_enterChannels _ _).buf
  · rename_i p hp
    refine Flow.Post.settle (P := fun t => t.buf = s.buf) (Q := fun _ t => t.buf = s.buf) ?_ fun x t k =>
      (steady_endSession _ _ t).buf.trans k
    refine Flow.Post.andThen ((keeps_framePin s.sq.ch.toNat p.done s).mono (P' := fun _ t => t.buf = s.buf)
      (fun _ _ k => k.1.buf) fun _ _ k => k.2.1.buf) fun _ t ht => ?_
    exact (onlySample_afterFramePin p _ t).buf.trans ht

/-! ### Register writes and PH_APPEND -/

/-- What a register write leaves alone: all but the configuration, the window and INT_PENDING, which it does not
clear. -/
structure Written (s t : State) : Prop where
  params : t.params = s.params
  tick : t.sq.tick = s.sq.tick
  seqs : t.buf.seqs = s.buf.seqs
  len : t.buf.len = s.buf.len
  tab : t.tab = s.tab
  halt : t.fl.halt = s.fl.halt
  intPending : s.fl.intPending = true → t.fl.intPending = true
  grows : Grows s t

theorem Steady.written (h : Steady s t) : Written s t :=
  ⟨h.params, h.tick, by rw [h.buf], by rw [h.buf], h.tab, h.halt, h.intPending.trans, h.grows⟩

theorem OnlyConfig.written (h : OnlyConfig s t) : Written s t :=
  ⟨h.params, by rw [h.sq], by rw [h.buf], by rw [h.buf], h.tab, by rw [h.fl], by rw [h.fl]; exact id,
    .of_history_eq h.history⟩

theorem RegwrEffect.written (k : RegwrEffect s t) : Written s t := by
  cases k with
  | command _ hk => exact hk.steady.written
  | interrupts => exact ⟨rfl, rfl, rfl, rfl, rfl, rfl, fun _ => rfl, .refl s⟩
  | window r w hr => exact (onlyConfig_accept_storeReg r w s).written
  | config r width w hw hr hi hp hv => exact (onlyConfig_accept_storeReg r w s).written

/-- What PH_APPEND leaves alone: all but the committed buffer. -/
structure Appended (s t : State) : Prop where
  params : t.params = s.params
  tick : t.sq.tick = s.sq.tick
  cfg : t.cfg = s.cfg
  selCh : t.buf.selCh = s.buf.selCh
  selTick : t.buf.selTick = s.buf.selTick
  tab : t.tab = s.tab
  halt : t.fl.halt = s.fl.halt
  intPending : t.fl.intPending = s.fl.intPending
  grows : Grows s t

theorem appended_phAppend (s : State) : Appended s (phAppend s).settle := by
  by_cases hl : s.tab.stageLen = s.cfg.nch
  · rw [phAppend_settle_whole s hl]
    exact ⟨rfl, rfl, rfl, rfl, rfl, rfl, rfl, rfl, .refl s⟩
  · rw [phAppend_settle_partial s hl]
    have e : Steady s (abort .contractViolation s) := steady_endSession _ _ s
    exact ⟨e.params, e.tick, e.cfg, by rw [e.buf], by rw [e.buf], e.tab, e.halt, e.intPending, e.grows⟩

/-! ### Every operation -/

/-- None of PH_SAMPLE, PH_APPEND, PH_TICK, INTR and REGWR. -/
def isSteady : Instr → Bool
  | .phSample | .phAppend | .phTick | .intr | .regwr _ _ => false
  | .claim | .release | .rdframe _ | .tcfield | .rjfield | .classify | .tounit _ _ | .getrj _ | .get _ | .rdreading _
  | .start | .setdir _ _ | .write _ _ | .read _ | .phBoundary | .phTelem | .phSleep | .phHalt | .regrd _ => true

theorem steady_exec {i : Instr} (hi : isSteady i = true) (h : exec i s = .next t) : Steady s t := by
  by_cases hc : isCommand i = true
  · rcases exec_command hc h with ⟨rfl, -⟩ | k
    · cases hi
    · exact k.steady
  · cases i with
    | setdir p d => exact steady_execPin (.inl ⟨p, d, rfl⟩) h
    | write p l => exact steady_execPin (.inr (.inl ⟨p, l, rfl⟩)) h
    | read p => exact steady_execPin (.inr (.inr ⟨p, rfl⟩)) h
    | phBoundary => cases h; exact steady_phBoundary s
    | phTelem => cases h; exact (steady_emit _ s).trans (steady_goto 4 _)
    | phSleep => cases h; exact (steady_emit _ s).trans (steady_goto 0 _)
    | phHalt => cases h; exact steady_phHalt s
    | regrd rn => cases h; exact ⟨rfl, rfl, rfl, rfl, rfl, rfl, rfl, .refl s⟩
    | _ => first | exact absurd rfl hc | cases hi

/-- What each operation writes of this: most nothing, and five each their own part. -/
inductive OperationEffect (s : State) : Instr → State → Prop
  | steady (i : Instr) (t : State) (h : Steady s t) : OperationEffect s i t
  | sample (t : State) (h : Sampled s t) : OperationEffect s .phSample t
  | append (t : State) (h : Appended s t) : OperationEffect s .phAppend t
  | tick : OperationEffect s .phTick (phTick s)
  | interrupts : OperationEffect s .intr (interrupted s)
  | writes (rn : RegNum) (w : Word32) (t : State) (h : Written s t) : OperationEffect s (.regwr rn w) t

theorem exec_effect {i : Instr} (h : exec i s = .next t) : OperationEffect s i t := by
  cases hi : isSteady i with
  | true => exact .steady i t (steady_exec hi h)
  | false =>
    cases i with
    | phSample => cases h; exact .sample _ (sampled_phSample s)
    | phAppend => cases h; exact .append _ (appended_phAppend s)
    | phTick => cases h; exact .tick
    | intr => cases h; exact .interrupts
    | regwr rn w => exact .writes rn w t (exec_regwr_effect h).written
    | _ => cases hi

end Steady

/-- Settles O18, by the part of the state each kind of operation writes. -/
theorem onlyWriters : Obligations.OnlyWriters := by
  intro i s t h
  cases exec_effect h with
  | steady _ _ e =>
    exact ⟨fun _ => e.tick, fun _ => by simp [e.buf], fun _ => ⟨e.tab, e.halt⟩, fun _ _ => e.intPending,
      fun _ => by simp [e.buf, e.cfg], e.params⟩
  | sample _ e =>
    exact ⟨fun _ => e.tick, fun _ => by simp [e.buf], fun k => absurd rfl k, fun _ _ => e.intPending,
      fun _ => by simp [e.buf, e.cfg], e.params⟩
  | append _ e =>
    exact ⟨fun _ => e.tick, fun k => absurd rfl k, fun _ => ⟨e.tab, e.halt⟩, fun _ _ => e.intPending,
      fun _ => ⟨e.cfg, e.selCh, e.selTick⟩, e.params⟩
  | tick =>
    rw [phTick_eq]
    exact ⟨fun k => absurd rfl k, fun _ => ⟨rfl, rfl⟩, fun _ => ⟨rfl, rfl⟩, fun _ _ => rfl, fun _ => ⟨rfl, rfl, rfl⟩,
      rfl⟩
  | interrupts =>
    exact ⟨fun _ => rfl, fun _ => ⟨rfl, rfl⟩, fun _ => ⟨rfl, rfl⟩, fun k => absurd rfl k, fun _ => ⟨rfl, rfl, rfl⟩, rfl⟩
  | writes rn w _ e =>
    exact ⟨fun _ => e.tick, fun _ => ⟨e.seqs, e.len⟩, fun _ => ⟨e.tab, e.halt⟩, fun _ k => absurd rfl (k rn w),
      fun k => absurd rfl (k rn w), e.params⟩

theorem Grows.events {s t : State} (h : Grows s t) : ∃ l, t.events = s.events ++ l := by
  obtain ⟨l, e⟩ := h
  exact ⟨l.reverse, by simp [State.events, e]⟩

/-- Settles O19, by the same kinds. -/
theorem latchesAndHistoryStay : Obligations.LatchesAndHistoryStay := by
  intro i s t h
  cases exec_effect h with
  | steady _ _ e => exact ⟨e.halt.trans, e.intPending.trans, e.grows.events⟩
  | sample _ e => exact ⟨e.halt, e.intPending.trans, e.grows.events⟩
  | append _ e => exact ⟨e.halt.trans, e.intPending.trans, e.grows.events⟩
  | tick =>
    rw [phTick_eq]
    exact ⟨id, id, (Grows.refl s).events⟩
  | interrupts => exact ⟨id, fun _ => rfl, (Grows.refl s).events⟩
  | writes rn w _ e => exact ⟨e.halt.trans, e.intPending, e.grows.events⟩

/-- Of a step's effects PH_APPEND alone writes BUF (rule R50). -/
theorem StepEffect.seqs {s t : State} (k : StepEffect s t) :
    t.buf.seqs = s.buf.seqs ∨ s.sq.lc = .running ∧ s.sq.phase = 2 ∧ t = (phAppend s).settle := by
  cases k with
  | reads w => exact .inl rfl
  | writes _ hk => exact .inl hk.written.seqs
  | rests hr => exact .inl rfl
  | micro hr hp => exact .inl (by rw [buf_sampleMicro])
  | boundary hr hp hph => exact .inl (by rw [(steady_phBoundary s).buf])
  | sample hr hp hph => exact .inl (by rw [(sampled_phSample s).buf])
  | append hr hp hph => exact .inr ⟨hr, hph, rfl⟩
  | telem hr hp hph => exact .inl rfl
  | tick hr hp hph => exact .inl (by rw [phTick_eq])
  | sleep hr hp hph => exact .inl rfl
  | halt hr hp hph => exact .inl (by rw [(steady_phHalt s).buf])

/-- Settles O15: a step that is no reset leaves every sequence as it is, or is PH_APPEND, which appends one entry. -/
theorem bufferOnlyGrows : Obligations.BufferOnlyGrows := by
  intro s t h hreset hs ch hch
  obtain ⟨hseq, hbuf⟩ := (bufferInv_iff s).mp h
  obtain ⟨-, ⟨⟨ts, k⟩, -⟩ | k⟩ := step_effect hseq.port hs
  · exact absurd k (hreset ts)
  · rcases k.seqs with e | ⟨hr, hph, rfl⟩
    · exact ⟨[], by rw [seqAt_of_seqs e, List.append_nil]; rfl, by simp⟩
    · refine ⟨[s.stageAt ch], ?_, by simp⟩
      exact (seqAt_phAppend hseq.popTurn hbuf.popTurn.toBufferStored hr hph ch).trans (if_pos hch)

end Sys2Proof.Machine

/-! The words a host reads: the numbers of the enumerations (spec/30_encoding.md rule R90), the ENTRY words (rule R86)
and the STATUS word (spec/10_state.md rule R35) as numbers with their fields. -/

namespace Sys2Proof.Machine

/-! ### The numbers of the enumerations -/

theorem toNat_unitCode (u : TempUnit) :
    ∀ c ∈ [(TempUnit.celsius, 0), (.kelvin, 1), (.fahrenheit, 2)], u = c.1 → u.code.toNat = c.2 := by
  cases u <;> decide

theorem toNat_policyCode (p : Policy) :
    ∀ c ∈ [(Policy.haltOnFault, 0), (.quarantineFaultingChannel, 1)], p = c.1 → p.code.toNat = c.2 := by
  cases p <;> decide

theorem toNat_faultCode (f : FaultStatus) :
    ∀ c ∈ [(FaultStatus.none, 0), (.openCircuit, 1), (.shortToGround, 2), (.shortToVcc, 3), (.unknown, 4)],
      f = c.1 → f.code.toNat = c.2 := by
  cases f <;> decide

theorem toNat_pathScale (p : Path) : ∀ c ∈ [(Path.tc, 0), (.rj, 1)], p = c.1 → (pathScale p).toNat = c.2 := by
  cases p <;> decide

theorem toNat_loopCode (l : LoopState) :
    ∀ c ∈ [(LoopState.idle, 0), (.running, 1), (.stopped, 2), (.aborted, 3)], l = c.1 → l.code.toNat = c.2 := by
  cases l <;> decide

theorem toNat_reasonCode (r : StopReason) :
    ∀ c ∈ [(StopReason.none, 0), (.completed, 1), (.faultHalt, 2), (.interrupted, 3), (.transportFailure, 4),
        (.contractViolation, 5)], r = c.1 → r.code.toNat = c.2 := by
  cases r <;> decide

theorem toNat_errCode (e : ErrCode) :
    ∀ c ∈ [(ErrCode.none, 0), (.illegalCommand, 1), (.busy, 2), (.configError, 3), (.badIndex, 4), (.notClaimed, 5)],
      e = c.1 → e.code.toNat = c.2 := by
  cases e <;> decide

theorem toNat_flagBit (b : Bool) : (flagBit b).toNat = if b then 1 else 0 := by cases b <;> rfl

/-! ### Fields of a word -/

theorem toNat_field {n : Nat} (x : BitVec n) (lo len : Nat) :
    (x.extractLsb' lo len).toNat = x.toNat / 2 ^ lo % 2 ^ len := by
  rw [BitVec.extractLsb'_toNat, Nat.shiftRight_eq_div_pow]

theorem toNat_append_eq_add {a b : Nat} (x : BitVec a) (y : BitVec b) :
    (x ++ y).toNat = x.toNat * 2 ^ b + y.toNat := by
  rw [BitVec.toNat_append, ← Nat.shiftLeft_add_eq_or_of_lt y.isLt, Nat.shiftLeft_eq]

/-! ### The ENTRY words -/

theorem entryReading_eq (u : TempUnit) (p : Path) (v : BitVec 18) :
    entryReading u p v =
      BitVec.ofNat 32 ((8 + 2 * u.code.toNat + (pathScale p).toNat) * 2 ^ 27) ||| v.setWidth 32 := by
  cases u <;> cases p <;> rfl

/-- A Reading as a number: KIND 1 in bit 30, UNIT from bit 28, SCALE in bit 27, VALUE below. -/
theorem toNat_entryReading (u : TempUnit) (p : Path) (v : BitVec 18) :
    (entryReading u p v).toNat = 2 ^ 30 + u.code.toNat * 2 ^ 28 + (pathScale p).toNat * 2 ^ 27 + v.toNat := by
  have hu := u.code.isLt
  have hp := (pathScale p).isLt
  have hv := v.isLt
  have hc : (8 + 2 * u.code.toNat + (pathScale p).toNat) * 2 ^ 27 < 2 ^ 32 := by omega
  rw [entryReading_eq, BitVec.toNat_or, BitVec.toNat_ofNat, Nat.mod_eq_of_lt hc,
    BitVec.toNat_setWidth_of_le (by omega), ← Nat.shiftLeft_eq, ← Nat.shiftLeft_add_eq_or_of_lt (by omega),
    Nat.shiftLeft_eq]
  omega

theorem entryReading_fields (u : TempUnit) (p : Path) (v : BitVec 18) :
    let e := entryReading u p v
    (e.extractLsb' 30 2).toNat = 1 ∧ (e.extractLsb' 28 2).toNat = u.code.toNat ∧
      (e.extractLsb' 27 1).toNat = (pathScale p).toNat ∧ (e.extractLsb' 24 3).toNat = 0 ∧
      (e.extractLsb' 18 6).toNat = 0 ∧ e.extractLsb' 0 18 = v := by
  have hu := u.code.isLt
  have hp := (pathScale p).isLt
  have hv := v.isLt
  refine ⟨?_, ?_, ?_, ?_, ?_, BitVec.eq_of_toNat_eq ?_⟩ <;> rw [toNat_field, toNat_entryReading] <;> omega

theorem entryFault_fields (f : FaultStatus) :
    let e := entryFault f
    (e.extractLsb' 30 2).toNat = 2 ∧ (e.extractLsb' 27 3).toNat = 0 ∧ (e.extractLsb' 24 3).toNat = f.code.toNat ∧
      (e.extractLsb' 0 24).toNat = 0 := by
  cases f <;> decide

/-- Settles O57, from the fields of the entry words and the numbers of the enumerations. -/
theorem entryWordFields : Obligations.EntryWordFields := by
  refine ⟨fun u hu p hp v => ?_, fun f hf => ?_, rfl, fun e => ⟨rfl, rfl, rfl, rfl, rfl⟩⟩
  · obtain ⟨hkind, hunit, hscale, hfs, hzero, hvalue⟩ := entryReading_fields u.1 p.1 v
    exact ⟨hkind, hunit.trans (toNat_unitCode u.1 u hu rfl), hscale.trans (toNat_pathScale p.1 p hp rfl), hfs, hzero,
      hvalue⟩
  · obtain ⟨hkind, hhigh, hfs, hlow⟩ := entryFault_fields f.1
    exact ⟨hkind, hhigh, hfs.trans (toNat_faultCode f.1 f hf rfl), hlow⟩

/-! ### The STATUS word -/

/-- STATUS as a number (rule R35). -/
theorem toNat_statusWord (s : State) :
    (statusWord s).toNat = s.sq.phase.toNat * 2 ^ 11 + s.fl.err.code.toNat * 2 ^ 8 + (flagBit s.fl.halt).toNat * 2 ^ 7
      + (flagBit s.fl.intPending).toNat * 2 ^ 6 + (flagBit s.fl.claimed).toNat * 2 ^ 5
      + s.sq.stopReason.code.toNat * 2 ^ 2 + s.sq.lc.code.toNat := by
  unfold statusWord
  rw [BitVec.toNat_setWidth_of_le (by decide)]
  simp only [toNat_append_eq_add]
  omega

theorem statusWord_fields (s : State) :
    ((statusWord s).extractLsb' 0 2).toNat = s.sq.lc.code.toNat ∧
    ((statusWord s).extractLsb' 2 3).toNat = s.sq.stopReason.code.toNat ∧
    ((statusWord s).extractLsb' 8 3).toNat = s.fl.err.code.toNat ∧
    (statusWord s).extractLsb' 11 3 = s.sq.phase ∧ (statusWord s).extractLsb' 14 18 = 0 := by
  have hphase := s.sq.phase.isLt
  have herr := s.fl.err.code.isLt
  have hhalt := (flagBit s.fl.halt).isLt
  have hint := (flagBit s.fl.intPending).isLt
  have hclaimed := (flagBit s.fl.claimed).isLt
  have hreason := s.sq.stopReason.code.isLt
  have hlc := s.sq.lc.code.isLt
  have hzero : (0#18).toNat = 0 := rfl
  refine ⟨?_, ?_, ?_, BitVec.eq_of_toNat_eq ?_, BitVec.eq_of_toNat_eq (y := 0#18) ?_⟩ <;>
    rw [toNat_field, toNat_statusWord] <;> omega

/-- A bit of a word whose place holds a flag. -/
theorem getLsbD_of_flagBit {n : Nat} {x : BitVec n} {i : Nat} {b : Bool}
    (h : x.toNat / 2 ^ i % 2 = (flagBit b).toNat) : x.getLsbD i = b := by
  rw [← BitVec.testBit_toNat, Nat.testBit_eq_decide_div_mod_eq, h]
  cases b <;> rfl

theorem statusWord_flags (s : State) :
    (statusWord s).getLsbD 5 = s.fl.claimed ∧ (statusWord s).getLsbD 6 = s.fl.intPending ∧
      (statusWord s).getLsbD 7 = s.fl.halt := by
  have hhalt := (flagBit s.fl.halt).isLt
  have hint := (flagBit s.fl.intPending).isLt
  have hclaimed := (flagBit s.fl.claimed).isLt
  have hreason := s.sq.stopReason.code.isLt
  have hlc := s.sq.lc.code.isLt
  refine ⟨getLsbD_of_flagBit ?_, getLsbD_of_flagBit ?_, getLsbD_of_flagBit ?_⟩ <;> rw [toNat_statusWord] <;> omega

/-- Settles O54, from STATUS as a number. -/
theorem statusLayout : Obligations.StatusLayout := by
  intro s
  obtain ⟨hlc, hreason, herr, hphase, hzero⟩ := statusWord_fields s
  obtain ⟨hclaimed, hint, hhalt⟩ := statusWord_flags s
  exact ⟨fun c hc k => hlc.trans (toNat_loopCode _ c hc k), fun c hc k => hreason.trans (toNat_reasonCode _ c hc k),
    hclaimed, hint, hhalt, fun c hc k => herr.trans (toNat_errCode _ c hc k), hphase, hzero, rfl, fun _ => rfl⟩

end Sys2Proof.Machine

/-! The host bus (spec/10_state.md rules R36 to R54, spec/47_host_bus.md rules R195 to R200): the read views, and the
writes to registers other than CMD with their tests in order. -/

namespace Sys2Proof.Machine

/-! ### The register map -/

theorem toNat_slot {base i : Nat} (h : base + i < 256) : (BitVec.ofNat 8 (base + i)).toNat = base + i := by
  rw [BitVec.toNat_ofNat, Nat.mod_eq_of_lt h]

/-- The four tables of the map, each with its first register number (rule R45). -/
def tableWindows : List (Nat × (Nat → Reg)) := [(0x20, .csPin), (0x40, .stage), (0x60, .rjStage), (0x80, .qstat)]

/-- A slot's register, by the number of the slot. -/
theorem regOf_slot (nchMax : Nat) {i : Nat} (hi : i < 32) :
    ∀ w ∈ tableWindows, regOf nchMax (BitVec.ofNat 8 (w.1 + i)) = tableReg nchMax w.2 i := by
  have hn : ∀ base, base ≤ 0x80 → (BitVec.ofNat 8 (base + i)).toNat = base + i := fun base hb => toNat_slot (by omega)
  simp only [tableWindows, List.forall_mem_cons, List.not_mem_nil, IsEmpty.forall_iff, implies_true, and_true]
  refine ⟨?_, ?_, ?_, ?_⟩
  · rw [regOf_csPin _ _ (by rw [hn _ (by decide)]; omega) (by rw [hn _ (by decide)]; omega), hn _ (by decide),
      Nat.add_sub_cancel_left]
  · rw [regOf_stage _ _ (by rw [hn _ (by decide)]; omega) (by rw [hn _ (by decide)]; omega), hn _ (by decide),
      Nat.add_sub_cancel_left]
  · rw [regOf_rjStage _ _ (by rw [hn _ (by decide)]; omega) (by rw [hn _ (by decide)]; omega), hn _ (by decide),
      Nat.add_sub_cancel_left]
  · rw [regOf_qstat _ _ (by rw [hn _ (by decide)]; omega) (by rw [hn _ (by decide)]; omega), hn _ (by decide),
      Nat.add_sub_cancel_left]

theorem tableReg_some {nchMax i : Nat} (r : Nat → Reg) (h : i < nchMax) : tableReg nchMax r i = some (r i) := if_pos h

theorem tableReg_none {nchMax i : Nat} (r : Nat → Reg) (h : nchMax ≤ i) : tableReg nchMax r i = none :=
  if_neg (by omega)

/-- Rule R46's reserved numbers name no register. -/
theorem regOf_reserved {nchMax : Nat} {rn : RegNum}
    (h : (0x1B ≤ rn.toNat ∧ rn.toNat ≤ 0x1F) ∨ 0xA0 ≤ rn.toNat ∨
      ∃ base ∈ [0x20, 0x40, 0x60, 0x80], base + nchMax ≤ rn.toNat ∧ rn.toNat ≤ base + 31) :
    regOf nchMax rn = none := by
  rcases h with ⟨hlo, hhi⟩ | h | ⟨base, hb, hlo, hhi⟩
  · have key : ∀ n, n < 0x20 → 0x1B ≤ n → scalarReg n = none := by decide
    rw [regOf_scalar _ _ (by omega)]
    exact key _ (by omega) hlo
  · exact regOf_above _ _ h
  · have hrn : rn = BitVec.ofNat 8 (base + (rn.toNat - base)) := by
      rw [Nat.add_sub_cancel' (by omega), BitVec.ofNat_toNat, BitVec.setWidth_eq]
    have hw : ∃ w ∈ tableWindows, w.1 = base := by
      simp only [List.mem_cons, List.not_mem_nil, or_false] at hb
      rcases hb with rfl | rfl | rfl | rfl <;> simp [tableWindows]
    obtain ⟨w, hw, rfl⟩ := hw
    rw [hrn, regOf_slot nchMax (by omega) w hw]
    exact tableReg_none _ (by omega)

/-- The numbers whose register no write reaches: reserved ones and those of read-only registers (rules R46, R197). -/
theorem regOf_unwritable {nchMax : Nat} {rn : RegNum} (hs : rn.toNat ∉ [2, 3, 4, 5, 6, 7, 8, 0x0A, 0x17, 0x18])
    (ht : rn.toNat < 0x20 ∨ 0x20 + nchMax ≤ rn.toNat ∨ 0x40 ≤ rn.toNat) :
    (regOf nchMax rn).bind Reg.writeWidth = none := by
  have table : ∀ (r : Nat → Reg) i, (∀ j, (r j).writeWidth = none) →
      (tableReg nchMax r i).bind Reg.writeWidth = none := by
    intro r i hr
    unfold tableReg
    split
    · exact hr i
    · rfl
  by_cases h20 : rn.toNat < 0x20
  · have key : ∀ n, n < 0x20 → n ∉ [2, 3, 4, 5, 6, 7, 8, 0x0A, 0x17, 0x18] →
        (scalarReg n).bind Reg.writeWidth = none := by decide
    rw [regOf_scalar _ _ h20]
    exact key _ h20 hs
  by_cases h40 : rn.toNat < 0x40
  · rw [regOf_csPin _ _ (by omega) h40, tableReg_none _ (by omega)]
    rfl
  by_cases h60 : rn.toNat < 0x60
  · rw [regOf_stage _ _ (by omega) h60]
    exact table _ _ fun _ => rfl
  by_cases h80 : rn.toNat < 0x80
  · rw [regOf_rjStage _ _ (by omega) h80]
    exact table _ _ fun _ => rfl
  by_cases hA0 : rn.toNat < 0xA0
  · rw [regOf_qstat _ _ (by omega) hA0]
    exact table _ _ fun _ => rfl
  · rw [regOf_above _ _ (by omega)]
    rfl

/-! ### Reads -/

theorem regRead_of_regOf {s : State} {rn : RegNum} {r : Reg} (h : regOf s.params.nchMax rn = some r) :
    regRead rn s = readView s r := by simp [regRead, h]

theorem regRead_reserved {s : State} {rn : RegNum} (h : regOf s.params.nchMax rn = none) : regRead rn s = 0 := by
  simp [regRead, h]

/-- The read view of slot `i` of a table. -/
theorem regRead_slot {s : State} {i : Nat} (hi : i < 32) {w : Nat × (Nat → Reg)} (hw : w ∈ tableWindows) :
    regRead (BitVec.ofNat 8 (w.1 + i)) s = if i < s.params.nchMax then readView s (w.2 i) else 0 := by
  have h := regOf_slot s.params.nchMax hi w hw
  split
  · exact regRead_of_regOf (h.trans (tableReg_some _ ‹_›))
  · exact regRead_reserved (h.trans (tableReg_none _ (by omega)))

theorem toNat_view {n : Nat} (x : BitVec n) (h : n ≤ 32) : (x.setWidth 32).toNat = x.toNat :=
  BitVec.toNat_setWidth_of_le h

theorem toInt_view {n : Nat} (x : BitVec n) (h : n ≤ 32) : (x.signExtend 32).toInt = x.toInt :=
  BitVec.toInt_signExtend_of_le h

/-- QSTAT: QUAR in bit 0, QFS from bit 1 (rule R49). -/
theorem toNat_qstat (f : FaultStatus) (q : Bool) :
    ((f.code ++ flagBit q).setWidth 32 : Word32).toNat = (if q then 1 else 0) + 2 * f.code.toNat := by
  rw [toNat_view _ (by decide), toNat_append_eq_add, toNat_flagBit]
  omega

/-- VMETA: VUNIT in bits 1:0, VSCALE in bit 2 (rule R28). -/
theorem toNat_vmeta (p : Path) (u : TempUnit) :
    ((pathScale p ++ u.code).setWidth 32 : Word32).toNat = 4 * (pathScale p).toNat + u.code.toNat := by
  rw [toNat_view _ (by decide), toNat_append_eq_add]
  omega

/-- Settles O53, from the register of each slot and its read view. -/
theorem regrdTableWindows : Obligations.RegrdTableWindows := by
  intro s i hi
  have hwin : ∀ w ∈ tableWindows, regRead (BitVec.ofNat 8 (w.1 + i)) s =
      if i < s.params.nchMax then readView s (w.2 i) else 0 := fun w => regRead_slot hi
  refine ⟨fun h => ?_, fun h base hb => ?_⟩
  · simp only [h, if_true] at hwin
    refine ⟨?_, hwin (0x40, .stage) (by simp [tableWindows]), hwin (0x60, .rjStage) (by simp [tableWindows]),
      fun c hc k => ?_⟩
    · rw [hwin (0x20, .csPin) (by simp [tableWindows])]
      exact toNat_view _ (by decide)
    · rw [hwin (0x80, .qstat) (by simp [tableWindows])]
      exact (toNat_qstat _ _).trans (by rw [toNat_faultCode _ c hc k])
  · have hw : ∃ w ∈ tableWindows, w.1 = base := by
      simp only [List.mem_cons, List.not_mem_nil, or_false] at hb
      rcases hb with rfl | rfl | rfl | rfl <;> simp [tableWindows]
    obtain ⟨w, hw, rfl⟩ := hw
    rw [hwin w hw, if_neg (by omega)]

/-- Settles O52: each view is the register's, extended. -/
theorem regrdAnswersReadView : Obligations.RegrdAnswersReadView := by
  intro s
  refine ⟨fun _ => rfl, rfl, toNat_view _ (by decide), toNat_view _ (by decide), toNat_view _ (by decide), ?_, rfl, rfl,
    ?_, rfl, rfl, rfl, toNat_view _ (by decide), toInt_view _ (by decide), toInt_view _ (by decide), ?_,
    toInt_view _ (by decide), ?_, rfl, rfl, toNat_view _ (by decide), toNat_view _ (by decide), rfl,
    toNat_view _ (by decide), rfl, toNat_view _ (by decide), ?_⟩
  · exact fun c hc k => (toNat_view _ (by decide)).trans (toNat_unitCode _ c hc k)
  · exact fun c hc k => (toNat_view _ (by decide)).trans (toNat_policyCode _ c hc k)
  · exact fun c hc k => (toNat_view _ (by decide)).trans (toNat_faultCode _ c hc k)
  · intro p hp u hu k l
    exact (toNat_vmeta _ _).trans (by rw [toNat_pathScale _ p hp k, toNat_unitCode _ u hu l])
  · intro rn h
    exact regRead_reserved (regOf_reserved (h.imp id .inl))

/-- Settles O56: sign extension keeps the value, and RES shows the ENTRY's bits as they are. -/
theorem signedRegisterReads : Obligations.SignedRegisterReads := by
  intro s
  refine ⟨toInt_view _ (by decide), toInt_view _ (by decide), toInt_view _ (by decide), fun u p v h => ?_⟩
  show s.dp.res.extractLsb' 0 18 = v
  obtain ⟨-, -, -, -, -, hvalue⟩ := entryReading_fields u p v
  rw [h]
  exact hvalue

/-! ### Writes -/

section Writes
variable {s : State} {rn : RegNum} {r : Reg} {width : Nat} {w : Word32}

/-- A write to a number without a writable register is refused first, in every state (rule R197 test 1). -/
theorem exec_regwr_illegal (h0 : rn.toNat ≠ 0) (h : (regOf s.params.nchMax rn).bind Reg.writeWidth = none)
    (w : Word32) :
    exec (.regwr rn w) s = .next { s with fl.err := .illegalCommand } := by
  have hne : rn ≠ 0 := by rintro rfl; exact h0 rfl
  simp only [exec, execRegwr, hne, if_false, configWrite]
  split
  · rfl
  · rename_i r hr
    rw [hr] at h
    have hw : r.writeWidth = none := h
    simp only [hw]
    rfl

theorem exec_regwr_reg (h0 : rn ≠ 0) (h : regOf s.params.nchMax rn = some r) (hw : r.writeWidth = some width)
    (w : Word32) : exec (.regwr rn w) s = .next (writeReg r width w s) := by
  simp only [exec, execRegwr, h0, if_false, configWrite, h, hw]

theorem writeReg_window (hr : r.isWindow = true) (hv : w.toNat < 2 ^ width) :
    writeReg r width w s = accept (storeReg r w s) := by
  rw [writeReg, if_pos hr, if_neg (by omega)]

theorem writeReg_window_over (hr : r.isWindow = true) (hv : 2 ^ width ≤ w.toNat) :
    writeReg r width w s = refuse .configError s := by
  rw [writeReg, if_pos hr, if_pos hv]

theorem writeReg_busy (hr : r.isWindow = false) (hlc : s.sq.lc ≠ .idle) : writeReg r width w s = refuse .busy s := by
  rw [writeReg, if_neg (by simp [hr]), if_pos hlc]

theorem writeReg_frozen (hr : r.isWindow = false) (hp : r.isPinReg = true) (hc : s.fl.claimed = true) :
    writeReg r width w s = refuse .busy s := by
  rw [writeReg, if_neg (by simp [hr])]
  split
  · rfl
  · rw [if_pos ⟨hp, hc⟩]

theorem writeReg_bad (hr : r.isWindow = false) (hlc : s.sq.lc = .idle) (hp : r.isPinReg = true → s.fl.claimed = false)
    (hv : badValue s.params r width w = true) : writeReg r width w s = refuse .configError s := by
  have hpin : ¬ (r.isPinReg = true ∧ s.fl.claimed = true) := fun k => by simp [hp k.1] at k
  rw [writeReg, if_neg (by simp [hr]), if_neg (by simp [hlc]), if_neg hpin, if_pos hv]

theorem writeReg_stores (hr : r.isWindow = false) (hlc : s.sq.lc = .idle)
    (hp : r.isPinReg = true → s.fl.claimed = false) (hv : badValue s.params r width w = false) :
    writeReg r width w s = accept (storeReg r w s) := by
  have hpin : ¬ (r.isPinReg = true ∧ s.fl.claimed = true) := fun k => by simp [hp k.1] at k
  rw [writeReg, if_neg (by simp [hr]), if_neg (by simp [hlc]), if_neg hpin, if_neg (by simp [hv])]

end Writes

/-- Settles O58: the numbers rule R46 lists name no register, or one without a width to write. -/
theorem reservedAndReadOnlyRegisters : Obligations.ReservedAndReadOnlyRegisters := by
  intro s rn hwf n reserved readOnly
  have hlt : rn.toNat < 256 := rn.isLt
  have hmax : 1 ≤ s.params.nchMax := hwf.1
  refine ⟨fun h => ?_, fun h w => ?_⟩
  · show Host.Outcome.next { s with io.replies := regRead rn s :: s.io.replies } = _
    rw [regRead_reserved (regOf_reserved h)]
  · have hn : n = rn.toNat := rfl
    have hnum : n ≠ 0 ∧ n ∉ [2, 3, 4, 5, 6, 7, 8, 0x0A, 0x17, 0x18] ∧
        (n < 0x20 ∨ 0x20 + s.params.nchMax ≤ n ∨ 0x40 ≤ n) := by
      simp only [reserved, readOnly, List.mem_cons, List.not_mem_nil, or_false, exists_eq_or_imp, exists_eq_left] at h ⊢
      omega
    exact exec_regwr_illegal hnum.1 (regOf_unwritable hnum.2.1 hnum.2.2) w

/-! ### The writable registers -/

/-- The writable registers below the tables, but the window's, with their numbers and widths (rules R45, R197). -/
def configRegs : List (RegNum × Reg × Nat) :=
  [(2, .nch, 6), (3, .clkPin, 8), (4, .dataPin, 8), (5, .unit, 2), (6, .interval, 32), (7, .maxTicks, 32),
    (8, .policy, 1), (0x0A, .frame, 32)]

section Config
variable {s : State} {w : Word32}

/-- A write to one of them is decided by its tests. -/
theorem exec_regwr_config {c : RegNum × Reg × Nat} (hc : c ∈ configRegs) (s : State) (w : Word32) :
    exec (.regwr c.1 w) s = .next (writeReg c.2.1 c.2.2 w s) := by
  simp only [configRegs, List.mem_cons, List.not_mem_nil, or_false] at hc
  rcases hc with rfl | rfl | rfl | rfl | rfl | rfl | rfl | rfl <;> rfl

theorem exec_regwr_csPin {i : Nat} (hi : i < 32) (hn : i < s.params.nchMax) (w : Word32) :
    exec (.regwr (BitVec.ofNat 8 (0x20 + i)) w) s = .next (writeReg (.csPin i) 8 w s) := by
  have h := regOf_slot s.params.nchMax hi (0x20, Reg.csPin) (by simp [tableWindows])
  refine exec_regwr_reg (fun e => ?_) (h.trans (tableReg_some _ hn)) rfl w
  have := congrArg BitVec.toNat e
  rw [toNat_slot (by omega)] at this
  simp at this

/-- A write that passes every test: the register is stored and ERR cleared. -/
theorem exec_regwr_stores {c : RegNum × Reg × Nat} (hc : c ∈ configRegs) (hlc : s.sq.lc = .idle)
    (hp : c.2.1.isPinReg = true → s.fl.claimed = false) (hv : badValue s.params c.2.1 c.2.2 w = false) :
    exec (.regwr c.1 w) s = .next (accept (storeReg c.2.1 w s)) := by
  have hwin : c.2.1.isWindow = false := by
    simp only [configRegs, List.mem_cons, List.not_mem_nil, or_false] at hc
    rcases hc with rfl | rfl | rfl | rfl | rfl | rfl | rfl | rfl <;> rfl
  rw [exec_regwr_config hc, writeReg_stores hwin hlc hp hv]

/-- A word as the 32-bit numeral of its value. -/
theorem eq_ofNat_of_toNat {n : Nat} (h : w.toNat = n) : w = BitVec.ofNat 32 n := by
  rw [← h, BitVec.ofNat_toNat, BitVec.setWidth_eq]

theorem badValue_width {p : Params} {r : Reg} {width : Nat} (h : w.toNat < 2 ^ width)
    (hr : r ≠ .nch ∧ r ≠ .unit ∧ r ≠ .maxTicks) : badValue p r width w = false := by
  obtain ⟨h1, h2, h3⟩ := hr
  have hd : decide (2 ^ width ≤ w.toNat) = false := decide_eq_false (by omega)
  cases r <;> simp_all [badValue]

end Config

/-- Settles O59, register by register from the tests. -/
theorem regwrAcceptedWrites : Obligations.RegwrAcceptedWrites := by
  intro s w hwf
  have h32 : w.toNat < 2 ^ 32 := w.isLt
  obtain ⟨-, hmax, -, -⟩ := hwf
  refine ⟨fun hi hc => ⟨fun h1 hn => ?_, fun h8 => ⟨?_, ?_, fun i h hlt => ?_⟩⟩,
    fun hi => ⟨fun c hcu hw => ?_, ?_, fun hd => ?_, fun c hcp hw => ?_, ?_⟩, fun h6 => ?_, ?_⟩
  · rw [BitVec.ofNat_toNat]
    refine exec_regwr_stores (c := (2, .nch, 6)) (by simp [configRegs]) hi (fun _ => hc) ?_
    simp only [badValue, Bool.or_eq_false_iff, decide_eq_false_iff_not]
    omega
  · rw [BitVec.ofNat_toNat]
    exact exec_regwr_stores (c := (3, .clkPin, 8)) (by simp [configRegs]) hi (fun _ => hc)
      (badValue_width h8 (by decide))
  · rw [BitVec.ofNat_toNat]
    exact exec_regwr_stores (c := (4, .dataPin, 8)) (by simp [configRegs]) hi (fun _ => hc)
      (badValue_width h8 (by decide))
  · rw [exec_regwr_csPin h hlt, writeReg_stores rfl hi (fun _ => hc) (badValue_width h8 (by simp)),
      BitVec.ofNat_toNat]
    simp only [storeReg, tabSet, h, dif_pos]
    rfl
  · have hv : badValue s.params .unit 2 w = false ∧ TempUnit.ofCode (w.setWidth 2) = some c.1 := by
      rw [eq_ofNat_of_toNat hw]
      simp only [List.mem_cons, List.not_mem_nil, or_false] at hcu
      rcases hcu with rfl | rfl | rfl <;> exact ⟨rfl, rfl⟩
    refine (exec_regwr_stores (c := (5, .unit, 2)) (by simp [configRegs]) hi nofun hv.1).trans ?_
    simp only [storeReg, hv.2]
    rfl
  · exact exec_regwr_stores (c := (6, .interval, 32)) (by simp [configRegs]) hi nofun (badValue_width h32 (by decide))
  · refine exec_regwr_stores (c := (7, .maxTicks, 32)) (by simp [configRegs]) hi nofun ?_
    simp only [badValue, Bool.or_eq_false_iff, decide_eq_false_iff_not]
    omega
  · have hv : badValue s.params .policy 1 w = false ∧ Policy.ofCode (w.setWidth 1) = c.1 := by
      rw [eq_ofNat_of_toNat hw]
      simp only [List.mem_cons, List.not_mem_nil, or_false] at hcp
      rcases hcp with rfl | rfl <;> exact ⟨rfl, rfl⟩
    refine (exec_regwr_stores (c := (8, .policy, 1)) (by simp [configRegs]) hi nofun hv.1).trans ?_
    simp only [storeReg, hv.2]
    rfl
  · exact exec_regwr_stores (c := (0x0A, .frame, 32)) (by simp [configRegs]) hi nofun (badValue_width h32 (by decide))
  · rw [BitVec.ofNat_toNat]
    exact congrArg Host.Outcome.next (writeReg_window (r := .bufCh) rfl h6)
  · exact congrArg Host.Outcome.next (writeReg_window (r := .bufTick) rfl h32)

/-- Settles O55, from the window's writes, its read views and the frame of a register write. -/
theorem bufferWindow : Obligations.BufferWindow := by
  intro s
  refine ⟨fun w h => ⟨_, congrArg Host.Outcome.next (writeReg_window (r := .bufCh) rfl h), rfl, ?_⟩,
    fun w => ⟨_, congrArg Host.Outcome.next (writeReg_window (r := .bufTick) (width := 32) rfl w.isLt), rfl, rfl⟩, rfl,
    fun h => if_pos h, fun h => if_neg h, fun rn w t h => ?_⟩
  · show (w.setWidth 6).setWidth 32 = w
    apply BitVec.eq_of_toNat_eq
    rw [toNat_view _ (by decide), BitVec.toNat_setWidth, Nat.mod_eq_of_lt h]
  · have k := (exec_regwr_effect h).written
    exact ⟨k.seqs, k.len⟩

/-! ### The refusals in their order -/

/-- The writable numbers outside the window are those of `configRegs` and those of the chip-select slots. -/
theorem writable_reg {nchMax : Nat} {rn : RegNum} (hn : nchMax ≤ 32)
    (h : rn.toNat ∈ [2, 3, 4, 5, 6, 7, 8, 0x0A] ∨ (0x20 ≤ rn.toNat ∧ rn.toNat < 0x20 + nchMax)) :
    (∃ c ∈ configRegs, c.1 = rn) ∨ ∃ i, i < 32 ∧ i < nchMax ∧ rn = BitVec.ofNat 8 (0x20 + i) := by
  have hrn : ∀ n, rn.toNat = n → rn = BitVec.ofNat 8 n := by
    rintro n rfl
    rw [BitVec.ofNat_toNat, BitVec.setWidth_eq]
  rcases h with h | ⟨hlo, hhi⟩
  · refine .inl ?_
    simp only [List.mem_cons, List.not_mem_nil, or_false] at h
    rcases h with h | h | h | h | h | h | h | h <;> rw [hrn _ h] <;> simp [configRegs]
  · exact .inr ⟨rn.toNat - 0x20, by omega, by omega, hrn _ (by omega)⟩

/-- A value outside the legal values of the register the number names (rule R197 steps 5 and 6). -/
def IllegalValue (p : Params) (rn : RegNum) (w : Word32) : Prop :=
  (rn = 2 ∧ (w = 0 ∨ p.nchMax < w.toNat)) ∨ ((rn = 3 ∨ rn = 4 ∨ 0x20 ≤ rn.toNat) ∧ 2 ^ 8 ≤ w.toNat) ∨
    (rn = 5 ∧ 3 ≤ w.toNat) ∨ (rn = 7 ∧ p.bufDepth < w.toNat) ∨ (rn = 8 ∧ 2 ≤ w.toNat)

theorem configRegs_injective : ∀ c ∈ configRegs, ∀ d ∈ configRegs, c.1 = d.1 → c = d := by decide

theorem configRegs_below_tables : ∀ c ∈ configRegs, c.1.toNat < 0x20 := by decide

theorem badValue_over {p : Params} {w : Word32} {width : Nat} (r : Reg) (h : 2 ^ width ≤ w.toNat) :
    badValue p r width w = true := by
  unfold badValue
  rw [decide_eq_true h, Bool.true_or]

theorem badValue_config {c : RegNum × Reg × Nat} (hc : c ∈ configRegs) {p : Params} {w : Word32}
    (h : IllegalValue p c.1 w) : badValue p c.2.1 c.2.2 w = true := by
  have named : ∀ d ∈ configRegs, c.1 = d.1 → c = d := configRegs_injective c hc
  rcases h with ⟨e, h⟩ | ⟨e | e | e, h⟩ | ⟨e, h⟩ | ⟨e, h⟩ | ⟨e, h⟩
  · obtain rfl := named (2, .nch, 6) (by simp [configRegs]) e
    simp only [badValue, Bool.or_eq_true, decide_eq_true_eq]
    rcases h with rfl | h
    · exact .inr (.inl (by decide))
    · exact .inr (.inr h)
  · obtain rfl := named (3, .clkPin, 8) (by simp [configRegs]) e
    exact badValue_over _ h
  · obtain rfl := named (4, .dataPin, 8) (by simp [configRegs]) e
    exact badValue_over _ h
  · exact absurd (configRegs_below_tables c hc) (by omega)
  · obtain rfl := named (5, .unit, 2) (by simp [configRegs]) e
    simp only [badValue, Bool.or_eq_true, decide_eq_true_eq]
    omega
  · obtain rfl := named (7, .maxTicks, 32) (by simp [configRegs]) e
    simp only [badValue, Bool.or_eq_true, decide_eq_true_eq]
    exact .inr h
  · obtain rfl := named (8, .policy, 1) (by simp [configRegs]) e
    exact badValue_over _ h

/-- What a write to a writable number does: the tests of its register decide it. -/
theorem writable_write {s : State} {rn : RegNum} (hn : s.params.nchMax ≤ 32)
    (h : rn.toNat ∈ [2, 3, 4, 5, 6, 7, 8, 0x0A] ∨ (0x20 ≤ rn.toNat ∧ rn.toNat < 0x20 + s.params.nchMax)) :
    ∃ r width, (∀ w, exec (.regwr rn w) s = .next (writeReg r width w s)) ∧ r.isWindow = false ∧
      (r.isPinReg = true ↔ rn.toNat ∈ [2, 3, 4] ∨ 0x20 ≤ rn.toNat) ∧
      ∀ w, IllegalValue s.params rn w → badValue s.params r width w = true := by
  rcases writable_reg hn h with ⟨c, hc, rfl⟩ | ⟨i, hi, hlt, rfl⟩
  · refine ⟨c.2.1, c.2.2, exec_regwr_config hc s, ?_, ?_, fun w => badValue_config hc⟩ <;>
      simp only [configRegs, List.mem_cons, List.not_mem_nil, or_false] at hc <;>
      rcases hc with rfl | rfl | rfl | rfl | rfl | rfl | rfl | rfl <;> decide
  · have htn := toNat_slot (base := 0x20) (i := i) (by omega)
    refine ⟨.csPin i, 8, exec_regwr_csPin hi hlt, rfl, iff_of_true rfl (.inr (by omega)), fun w hw => ?_⟩
    have hne : ∀ k : RegNum, k.toNat < 0x20 → BitVec.ofNat 8 (0x20 + i) ≠ k := by
      rintro k hk rfl
      omega
    have h8 : 2 ^ 8 ≤ w.toNat := by
      rcases hw with ⟨k, -⟩ | ⟨-, k⟩ | ⟨k, -⟩ | ⟨k, -⟩ | ⟨k, -⟩
      · exact absurd k (hne _ (by decide))
      · exact k
      · exact absurd k (hne _ (by decide))
      · exact absurd k (hne _ (by decide))
      · exact absurd k (hne _ (by decide))
    exact badValue_over _ h8

/-- Settles O60: the tests of rule R197 in their order. -/
theorem regwrRefusals : Obligations.RegwrRefusals := by
  intro s w rn hwf writable pinReg
  have hn : s.params.nchMax ≤ 32 := hwf.2.1
  refine ⟨fun h0 hw hwin => ?_, ?_, fun hw hlc => ?_, fun hw _ hp hc => ?_, fun hw hlc hp hbad => ?_⟩
  · refine exec_regwr_illegal h0 (regOf_unwritable ?_ ?_) w
    · simp only [writable, List.mem_cons, List.not_mem_nil, or_false] at hw hwin ⊢
      omega
    · simp only [writable, List.mem_cons, List.not_mem_nil, or_false] at hw
      omega
  · rintro rfl h6
    exact congrArg Host.Outcome.next (writeReg_window_over (r := .bufCh) rfl h6)
  · obtain ⟨r, width, hex, hr, -, -⟩ := writable_write hn hw
    rw [hex, writeReg_busy hr hlc]
    rfl
  · obtain ⟨r, width, hex, hr, hpin, -⟩ := writable_write hn hw
    rw [hex, writeReg_frozen hr (hpin.mpr hp) hc]
    rfl
  · obtain ⟨r, width, hex, hr, hpin, hval⟩ := writable_write hn hw
    rw [hex, writeReg_bad hr hlc (fun k => hp (hpin.mp k)) (hval w hbad)]
    rfl

end Sys2Proof.Machine

/-! The state after reset (spec/10_state.md rule R56). -/

namespace Sys2Proof.Machine

/-- After reset every slot of a table reads its reset value. -/
theorem reset_tables (i : Nat) :
    State.reset.csPinAt i = 0 ∧ State.reset.stageAt i = 0 ∧ State.reset.rjStageAt i = 0 ∧
      State.reset.quarAt i = false ∧ State.reset.qfsAt i = .none ∧ State.reset.seqAt i = [] :=
  ⟨tabGet_replicate_default _ _, tabGet_replicate_default _ _, tabGet_replicate_default _ _,
    tabGet_replicate_default _ _, tabGet_replicate_default _ _, tabGet_replicate_default _ _⟩

/-- Settles O9: the registers from the definition of reset, the tables and the pins slot by slot. -/
theorem resetValues : Obligations.ResetValues := by
  have htab := reset_tables
  refine ⟨⟨rfl, rfl, rfl, rfl, rfl, rfl, rfl⟩, ⟨rfl, rfl, rfl, rfl, rfl, rfl⟩, ⟨rfl, rfl, rfl, rfl⟩,
    ⟨rfl, rfl, rfl, rfl⟩, ⟨rfl, fun i => (htab i).1, rfl, rfl, rfl⟩, ⟨rfl, rfl, rfl⟩, fun i => ?_, rfl,
    ⟨rfl, fun ch => ?_, rfl, rfl⟩, noPins_resetInput State.reset, rfl⟩
  · obtain ⟨-, hstage, hrj, hquar, hqfs, -⟩ := htab i
    exact ⟨hstage, hrj, hquar, hqfs⟩
  · obtain ⟨-, -, -, -, -, hseq⟩ := htab ch
    exact hseq

/-- Settles O11: the reset input, which establishes the invariants, leaves the state after reset as it is. -/
theorem invariantsAtReset : Obligations.InvariantsAtReset := by
  intro p hp
  have fixed : resetInput { State.reset with params := p } = { State.reset with params := p } := rfl
  have hs := sequencerInv_resetInput (s := { State.reset with params := p }) hp
  have hb := busInv_resetInput { State.reset with params := p }
  have hc := bufferContents_resetInput { State.reset with params := p }
  rw [fixed] at hs hb hc
  exact ⟨hs, hb, (bufferInv_iff _).mpr ⟨hs, hc⟩⟩

end Sys2Proof.Machine

/-! The accesses of the two data spaces (spec/20_memory.md rules R61, R66): a frame assembled from the bits of the
serial line, and a column committed to the buffer. -/

namespace Sys2Proof.Machine

/-! ### The frame a stream of levels assembles (rule R61) -/

/-- The word whose bit `31 - k` is the `k`-th level of the stream. -/
def streamWord (l : Nat → Level) : Word32 := BitVec.ofFnBE fun k => l k == .high

theorem getLsbD_streamWord (l : Nat → Level) {k : Nat} (hk : k < 32) :
    (streamWord l).getLsbD (31 - k) = (l k == .high) := by
  have h := BitVec.getMsbD_ofFnBE (fun k : Fin 32 => l k == .high) k
  rw [dif_pos hk, BitVec.getMsbD_eq_getLsbD, decide_eq_true hk, Bool.true_and] at h
  exact h

/-- Reading the word's bits back, most significant first, gives the stream it was assembled from. -/
theorem streamLevel_streamWord (l : Nat → Level) {k : Nat} (hk : k < 32) : streamLevel (streamWord l) k = l k := by
  rw [streamLevel, getLsbD_streamWord l hk]
  cases l k <;> rfl

/-- The word the environment's next frame read returns: READ number `k` is transaction number 2 + 3 k. -/
def State.nextFrame (s : State) : Word32 := streamWord fun k => (s.answerAt (2 + 3 * k)).level

theorem answersFrame_nextFrame {s : State} (h : s.allOk 0 98) : s.answersFrame 0 s.nextFrame := by
  refine ⟨h, fun k hk => ?_⟩
  rw [Nat.zero_add]
  exact (streamLevel_streamWord (fun k => (s.answerAt (2 + 3 * k)).level) hk).symm

/-! ### A command that reads a channel, accepted (rules R117, R160, R198) -/

theorem channelCommand_accepted {ch : BitVec 8} {body : Nat → State → Flow Unit} {s : State} (hi : s.sq.lc = .idle)
    (hc : s.fl.claimed = true) (hn : ch.toNat < s.cfg.nch.toNat) :
    channelCommand ch body s = (body ch.toNat (accept s)).settle := by
  have hc' : ¬ s.fl.claimed = false := by simp [hc]
  rw [channelCommand, inIdle, if_pos hi, if_neg hc', if_neg (Nat.not_le.mpr hn)]

/-- RDFRAME accepted and answered with the bits of `F` (rule R118). -/
theorem exec_rdframe_answered {ch : BitVec 8} {s : State} {F : Word32} (hi : s.sq.lc = .idle)
    (hc : s.fl.claimed = true) (hn : ch.toNat < s.cfg.nch.toNat) (hF : s.answersFrame 0 F) :
    exec (.rdframe ch) s = .next ((accept s).frameRead ch.toNat F) := by
  have hF' : (accept s).answersFrame 0 F := hF
  calc exec (.rdframe ch) s
      = .next (channelCommand ch readFrame s) := rfl
    _ = .next ((accept s).frameRead ch.toNat F) := by
        rw [channelCommand_accepted hi hc hn, readFrame_answered _ _ _ hF', Flow.settle_done]

/-- Settles O26, with the word the environment's answers assemble. -/
theorem rdframeAssemblesFrame : Obligations.RdframeAssemblesFrame := by
  intro ch s hi hc hn hok
  refine ⟨s.nextFrame, fun k hk => ?_, exec_rdframe_answered hi hc hn (answersFrame_nextFrame hok)⟩
  rw [State.nextFrame, getLsbD_streamWord _ hk, beq_iff_eq]

/-! ### A column of the buffer (rule R66) -/

/-- MemRead after a column is written: the column's entries, and every other entry as before. -/
theorem memRead_writeColumn (f : Nat → Word32) (t c k : Nat) (chs : List Nat) (s : State)
    (h : ∀ ch ∈ chs, ch < 32) :
    memRead (writeColumn f t chs s) c k = if c ∈ chs ∧ k = t then f c else memRead s c k := by
  induction chs generalizing s with
  | nil => simp [writeColumn]
  | cons ch chs ih =>
    obtain ⟨hch, hchs⟩ := List.forall_mem_cons.mp h
    rw [writeColumn, ih _ hchs, memRead_memWrite _ _ _ _ _ _ hch]
    by_cases hc : c = ch
    · subst hc
      by_cases hk : k = t <;> simp [hk]
    · simp [hc]

/-- MemRead after PH_APPEND with a whole column: the Empty column of its first pass is overwritten by the staging column
of its second (rule R169). -/
theorem memRead_phAppend {s : State} (hn : s.cfg.nch.toNat ≤ 32) (h : s.tab.stageLen = s.cfg.nch) (ch k : Nat) :
    memRead (phAppend s).settle ch k =
      if ch < s.cfg.nch.toNat ∧ k = s.buf.len.toNat then s.stageAt ch else memRead s ch k := by
  have h32 : ∀ c ∈ s.channels, c < 32 := fun c hc => (List.mem_range.mp hc).trans_le hn
  have hmem : ch ∈ s.channels ↔ ch < s.cfg.nch.toNat := List.mem_range
  have passes : memRead (phAppend s).settle ch k =
      memRead (writeColumn s.stageAt s.buf.len.toNat s.channels
        (writeColumn (fun _ => entryEmpty) s.buf.len.toNat s.channels s)) ch k := by
    rw [phAppend_whole s h]
    rfl
  rw [passes, memRead_writeColumn _ _ _ _ _ _ h32, memRead_writeColumn _ _ _ _ _ _ h32]
  simp only [hmem]
  split_ifs <;> rfl

/-- Settles O45: the state PH_APPEND leaves, and what MemRead reads in it. -/
theorem phAppendCommitsColumn : Obligations.PhAppendCommitsColumn := by
  intro s hwf hnch hlen
  obtain ⟨-, hmax, -, -⟩ := hwf
  exact ⟨(phAppend s).settle, rfl, by rw [phAppend_settle_whole s hlen], memRead_phAppend (hnch.trans hmax) hlen⟩

end Sys2Proof.Machine

/-! The encoding (spec/30_encoding.md rules R82 to R92): the fields of a word and the word of its fields, then encoder and
decoder as inverses of each other, format by format. -/

namespace Sys2Proof

/-! ### Fields of a word -/

section Fields
variable {a b c : Nat}

theorem high_field_append (x : BitVec a) (y : BitVec b) (z : BitVec c) :
    (x ++ y ++ z).extractLsb' (b + c) a = x := by
  rw [BitVec.extractLsb'_append_eq_of_le (by omega), Nat.add_sub_cancel, BitVec.extractLsb'_append_eq_left]

theorem middle_field_append (x : BitVec a) (y : BitVec b) (z : BitVec c) : (x ++ y ++ z).extractLsb' c b = y := by
  rw [BitVec.extractLsb'_append_eq_of_le (Nat.le_refl c), Nat.sub_self, BitVec.extractLsb'_append_eq_right]

/-- A word is made of its three fields. -/
theorem append_fields (w : BitVec (a + b + c)) :
    w.extractLsb' (b + c) a ++ w.extractLsb' c b ++ w.extractLsb' 0 c = w := by
  rw [BitVec.extractLsb'_append_extractLsb'_eq_extractLsb' (Nat.add_comm b c),
    BitVec.extractLsb'_append_extractLsb'_eq_extractLsb' (Nat.zero_add c).symm, BitVec.extractLsb'_eq_self]

end Fields

@[simp] theorem cmdOp_append (op : BitVec 5) (mod : BitVec 3) (idx : BitVec 8) : cmdOp (op ++ mod ++ idx) = op :=
  high_field_append op mod idx

@[simp] theorem cmdMod_append (op : BitVec 5) (mod : BitVec 3) (idx : BitVec 8) : cmdMod (op ++ mod ++ idx) = mod :=
  middle_field_append op mod idx

@[simp] theorem cmdIdx_append (op : BitVec 5) (mod : BitVec 3) (idx : BitVec 8) : cmdIdx (op ++ mod ++ idx) = idx :=
  BitVec.extractLsb'_append_eq_right

@[simp] theorem pinPop_append (pop : BitVec 2) (arg : BitVec 1) (pin : PinId) : pinPop (pop ++ arg ++ pin) = pop :=
  high_field_append pop arg pin

@[simp] theorem pinArg_append (pop : BitVec 2) (arg : BitVec 1) (pin : PinId) : pinArg (pop ++ arg ++ pin) = arg :=
  middle_field_append pop arg pin

@[simp] theorem pinPin_append (pop : BitVec 2) (arg : BitVec 1) (pin : PinId) : pinPin (pop ++ arg ++ pin) = pin :=
  BitVec.extractLsb'_append_eq_right

@[simp] theorem busWe_busWord (we : BitVec 1) (rn : RegNum) (wdata : Word32) : busWe (busWord we rn wdata) = we :=
  high_field_append we rn wdata

@[simp] theorem busRn_busWord (we : BitVec 1) (rn : RegNum) (wdata : Word32) : busRn (busWord we rn wdata) = rn :=
  middle_field_append we rn wdata

@[simp] theorem busWdata_busWord (we : BitVec 1) (rn : RegNum) (wdata : Word32) :
    busWdata (busWord we rn wdata) = wdata :=
  BitVec.extractLsb'_append_eq_right

theorem cmdWord_fields (w : BitVec 16) : cmdWord (cmdOp w) (cmdMod w) (cmdIdx w) = .cmd w :=
  congrArg Encoded.cmd (append_fields (a := 5) (b := 3) (c := 8) w)

theorem pinWord_fields (w : BitVec 11) : pinWord (pinPop w) (pinArg w) (pinPin w) = .pin w :=
  congrArg Encoded.pin (append_fields (a := 2) (b := 1) (c := 8) w)

theorem busWord_fields (w : BitVec 41) : busWord (busWe w) (busRn w) (busWdata w) = w :=
  append_fields (a := 1) (b := 8) (c := 32) w

/-! ### The bits of the enumerated operands (rules R85, R90) -/

@[simp] theorem Dir.ofBit_bit (d : Dir) : Dir.ofBit d.bit = d := by cases d <;> rfl
@[simp] theorem Dir.bit_ofBit : ∀ b, (Dir.ofBit b).bit = b := by decide
@[simp] theorem Level.ofBit_bit (l : Level) : Level.ofBit l.bit = l := by cases l <;> rfl
@[simp] theorem Level.bit_ofBit : ∀ b, (Level.ofBit b).bit = b := by decide
@[simp] theorem Path.ofBit_bit (p : Path) : Path.ofBit p.bit = p := by cases p <;> rfl
@[simp] theorem Path.bit_ofBit : ∀ b, (Path.ofBit b).bit = b := by decide

/-- The modifier of TOUNIT is the bit of its path, then its unit (rule R82). -/
theorem tounit_mod_fields :
    ∀ mod : BitVec 3, (Path.ofBit (mod.extractLsb' 2 1)).bit ++ mod.extractLsb' 0 2 = mod := by decide

/-! ### Decode of encode -/

/-- Settles O1: every field of the word the encoder builds is read back. The fields stay apart (`-BitVec.reduceAppend`), so
that the lemmas about appended fields see all three. -/
theorem decodeOfEncode : Obligations.DecodeOfEncode := by
  intro i hwf
  cases i with
  | claim | release | tcfield | rjfield | classify | start | intr => rfl
  | phBoundary | phSample | phAppend | phTelem | phTick | phSleep | phHalt => rfl
  | rdframe ch | getrj ch | get ch | rdreading ch =>
    simp [encode, cmdWord, decode, decodeCmd, indexedCmd, -BitVec.reduceAppend]
  | tounit src unit =>
    have hunit : unit ≠ 3#2 := by simpa [Instr.wellFormed] using hwf
    have hsrc : (src.bit ++ unit).extractLsb' 2 1 = src.bit := BitVec.extractLsb'_append_eq_left
    have hlow : (src.bit ++ unit).extractLsb' 0 2 = unit := BitVec.extractLsb'_append_eq_right
    simp [encode, cmdWord, decode, decodeCmd, tounitCmd, hsrc, hlow, hunit]
  | setdir pin dir | write pin level | read pin => simp [encode, pinWord, decode, decodePin, -BitVec.reduceAppend]
  | regrd rn | regwr rn wdata => simp [encode, decode, decodeBus]

/-! ### Encode of decode -/

theorem encode_of_plainCmd {w : BitVec 16} {op : BitVec 5} {i j : Instr} (henc : encode i = cmdWord op 0 0)
    (hwf : i.wellFormed = true) (hop : (cmdOp w).toNat = op.toNat) (h : plainCmd w i = some j) :
    encode j = .cmd w ∧ j.wellFormed = true := by
  unfold plainCmd at h
  split at h
  · rename_i hzero
    cases h
    exact ⟨by rw [henc, ← BitVec.eq_of_toNat_eq hop, ← cmdWord_fields w, hzero.1, hzero.2], hwf⟩
  · cases h

theorem encode_of_indexedCmd {w : BitVec 16} {op : BitVec 5} {i : BitVec 8 → Instr} {j : Instr}
    (henc : ∀ ch, encode (i ch) = cmdWord op 0 ch) (hwf : ∀ ch, (i ch).wellFormed = true)
    (hop : (cmdOp w).toNat = op.toNat) (h : indexedCmd w i = some j) : encode j = .cmd w ∧ j.wellFormed = true := by
  unfold indexedCmd at h
  split at h
  · rename_i hmod
    cases h
    exact ⟨by rw [henc, ← BitVec.eq_of_toNat_eq hop, ← cmdWord_fields w, hmod], hwf _⟩
  · cases h

theorem encode_of_tounitCmd {w : BitVec 16} {j : Instr} (hop : (cmdOp w).toNat = (0x07 : BitVec 5).toNat)
    (h : tounitCmd w = some j) : encode j = .cmd w ∧ j.wellFormed = true := by
  unfold tounitCmd at h
  split at h
  · rename_i hlegal
    obtain ⟨hidx, hunit⟩ := hlegal
    cases h
    refine ⟨?_, bne_iff_ne.mpr hunit⟩
    rw [encode, tounit_mod_fields, ← BitVec.eq_of_toNat_eq hop, ← cmdWord_fields w, hidx]
  · cases h

/-- A CMD word that decodes is the encoding of what it decodes to: one row of rule R83 for each value of op. -/
theorem encode_of_decodeCmd {w : BitVec 16} {i : Instr} (h : decodeCmd w = some i) :
    encode i = .cmd w ∧ i.wellFormed = true := by
  unfold decodeCmd at h
  split at h <;> rename_i hop
  · exact encode_of_plainCmd (op := 0x01) rfl rfl hop h
  · exact encode_of_plainCmd (op := 0x02) rfl rfl hop h
  · exact encode_of_indexedCmd (op := 0x03) (fun _ => rfl) (fun _ => rfl) hop h
  · exact encode_of_plainCmd (op := 0x04) rfl rfl hop h
  · exact encode_of_plainCmd (op := 0x05) rfl rfl hop h
  · exact encode_of_plainCmd (op := 0x06) rfl rfl hop h
  · exact encode_of_tounitCmd hop h
  · exact encode_of_indexedCmd (op := 0x08) (fun _ => rfl) (fun _ => rfl) hop h
  · exact encode_of_indexedCmd (op := 0x09) (fun _ => rfl) (fun _ => rfl) hop h
  · exact encode_of_indexedCmd (op := 0x0A) (fun _ => rfl) (fun _ => rfl) hop h
  · exact encode_of_plainCmd (op := 0x0B) rfl rfl hop h
  · exact encode_of_plainCmd (op := 0x0C) rfl rfl hop h
  · cases h

/-- A PIN word that decodes is the encoding of what it decodes to: one row of rule R85 for each value of pop. -/
theorem encode_of_decodePin {w : BitVec 11} {i : Instr} (h : decodePin w = some i) :
    encode i = .pin w ∧ i.wellFormed = true := by
  have hpop : ∀ pop : BitVec 2, (pinPop w).toNat = pop.toNat → pinWord pop (pinArg w) (pinPin w) = .pin w := by
    intro pop hn
    rw [← BitVec.eq_of_toNat_eq hn, pinWord_fields]
  unfold decodePin at h
  split at h <;> rename_i hn
  · cases h
    exact ⟨by rw [encode, Dir.bit_ofBit, hpop 1 hn], rfl⟩
  · cases h
    exact ⟨by rw [encode, Level.bit_ofBit, hpop 2 hn], rfl⟩
  · split at h <;> rename_i harg
    · cases h
      exact ⟨by rw [encode, ← harg, hpop 3 hn], rfl⟩
    · cases h
  · cases h

/-- The eight values of PHASE (rule R89). -/
theorem encode_of_decodeSeq : ∀ w : BitVec 3, ∀ i ∈ decodeSeq w, encode i = .seq w ∧ i.wellFormed = true := by
  decide

/-- A BUS word that decodes to a write is the encoding of that write; a read's word may hold any wdata (rule R88). -/
theorem encode_of_decodeBus_write {w : BitVec 41} {rn : RegNum} {d : Word32} (h : decodeBus w = .regwr rn d) :
    encode (.regwr rn d) = .bus w := by
  unfold decodeBus at h
  split at h <;> rename_i hwe
  · cases h
    rw [encode]
    exact congrArg Encoded.bus ((congrArg (busWord · _ _) hwe.symm).trans (busWord_fields w))
  · cases h

/-- Settles O2, format by format. -/
theorem encodeOfDecode : Obligations.EncodeOfDecode :=
  ⟨fun _ _ h => encode_of_decodeCmd h, fun _ _ h => encode_of_decodePin h, fun w i h => encode_of_decodeSeq w i h,
    fun _ _ _ h => encode_of_decodeBus_write (Option.some.inj h)⟩

/-- Settles O3: the decoder evaluates on each written word. -/
theorem writtenWordsDecode : Obligations.WrittenWordsDecode := by
  unfold Obligations.WrittenWordsDecode
  decide

end Sys2Proof

/-! The words a host may not write to CMD (spec/30_encoding.md rule R84, spec/47_host_bus.md rule R198). -/

namespace Sys2Proof.Machine

/-! ### The illegal command words -/

theorem plainCmd_eq_none {w : BitVec 16} {i : Instr} :
    plainCmd w i = none ↔ (cmdMod w).toNat ≠ 0 ∨ (cmdIdx w).toNat ≠ 0 := by
  simp [plainCmd, ← BitVec.toNat_inj, imp_iff_not_or]

theorem indexedCmd_eq_none {w : BitVec 16} {i : BitVec 8 → Instr} :
    indexedCmd w i = none ↔ (cmdMod w).toNat ≠ 0 := by
  simp [indexedCmd, ← BitVec.toNat_inj]

theorem tounitCmd_eq_none {w : BitVec 16} :
    tounitCmd w = none ↔ (cmdIdx w).toNat ≠ 0 ∨ (cmdMod w).toNat % 4 = 3 := by
  simp [tounitCmd, ← BitVec.toNat_inj, imp_iff_not_or]

/-- What rule R84 says of the three fields of a 16-bit word, as numbers. -/
def IllegalFields (op mod idx : Nat) : Prop :=
  op = 0 ∨ 0x0D ≤ op ∨ (op ≠ 0x07 ∧ mod ≠ 0) ∨
    (op ∈ [0x01, 0x02, 0x04, 0x05, 0x06, 0x07, 0x0B, 0x0C] ∧ idx ≠ 0) ∨ (op = 0x07 ∧ mod % 4 = 3)

/-! The kinds of rows of rule R83: with neither modifier nor index, with an index, TOUNIT; and no row. -/

theorem illegalFields_plain {op mod idx : Nat} (h : op ∈ [0x01, 0x02, 0x04, 0x05, 0x06, 0x0B, 0x0C]) :
    IllegalFields op mod idx ↔ mod ≠ 0 ∨ idx ≠ 0 := by
  simp only [IllegalFields, List.mem_cons, List.not_mem_nil, or_false] at h ⊢
  omega

theorem illegalFields_indexed {op mod idx : Nat} (h : op ∈ [0x03, 0x08, 0x09, 0x0A]) :
    IllegalFields op mod idx ↔ mod ≠ 0 := by
  simp only [IllegalFields, List.mem_cons, List.not_mem_nil, or_false] at h ⊢
  omega

theorem illegalFields_tounit (mod idx : Nat) : IllegalFields 0x07 mod idx ↔ idx ≠ 0 ∨ mod % 4 = 3 := by
  simp [IllegalFields]

theorem illegalFields_noRow {op mod idx : Nat} (h : op = 0 ∨ 0x0D ≤ op) : IllegalFields op mod idx := by
  rcases h with h | h
  · exact .inl h
  · exact .inr (.inl h)

/-- A 16-bit word is illegal exactly by its fields: case `h_n` below is the row of op `n`, `h_13` every other op. -/
theorem decodeCmd_eq_none (w : BitVec 16) :
    decodeCmd w = none ↔ IllegalFields (cmdOp w).toNat (cmdMod w).toNat (cmdIdx w).toNat := by
  unfold decodeCmd
  split <;> rename_i hop
  case h_7 => rw [hop, illegalFields_tounit, tounitCmd_eq_none]
  case h_3 | h_8 | h_9 | h_10 => rw [hop, illegalFields_indexed (by decide), indexedCmd_eq_none]
  case h_13 =>
    refine iff_of_true rfl (illegalFields_noRow ?_)
    simp only [imp_false] at *
    omega
  all_goals rw [hop, illegalFields_plain (by decide), plainCmd_eq_none]

/-- The fields of the low half of a word written to CMD. -/
theorem toNat_cmdFields (w : Word32) :
    let v := w.extractLsb' 0 16
    (cmdOp v).toNat = w.toNat / 2 ^ 11 % 32 ∧ (cmdMod v).toNat = w.toNat / 2 ^ 8 % 8 ∧
      (cmdIdx v).toNat = w.toNat % 2 ^ 8 := by
  simp only [cmdOp, cmdMod, cmdIdx, toNat_field]
  omega

theorem decodeCmdWrite_eq_none (w : Word32) :
    decodeCmdWrite w = none ↔ 2 ^ 16 ≤ w.toNat ∨
      IllegalFields (w.toNat / 2 ^ 11 % 32) (w.toNat / 2 ^ 8 % 8) (w.toNat % 2 ^ 8) := by
  have hw := w.isLt
  have hhigh : w.extractLsb' 16 16 = 0 ↔ ¬ 2 ^ 16 ≤ w.toNat := by
    rw [← BitVec.toNat_inj, toNat_field, show (0 : BitVec 16).toNat = 0 from rfl]
    omega
  obtain ⟨hop, hmod, hidx⟩ := toNat_cmdFields w
  rw [decodeCmdWrite, ← hop, ← hmod, ← hidx, ← decodeCmd_eq_none]
  split <;> rename_i h
  · exact (or_iff_right (hhigh.mp h)).symm
  · exact iff_of_true rfl (.inl (Classical.not_not.mp (mt hhigh.mpr h)))

theorem exec_regwr_illegal_word {w : Word32} (h : decodeCmdWrite w = none) (s : State) :
    exec (.regwr 0 w) s = .next { s with fl.err := .illegalCommand } := by
  have refused : command w s = .next (refuse .illegalCommand s) := by rw [command, h]
  exact refused

/-- Settles O4: the conditions of rule R84 row by row, then the refusal of rule R198. -/
theorem illegalCommandWordsRefused : Obligations.IllegalCommandWordsRefused := by
  intro w s
  have hunit : w.toNat / 2 ^ 8 % 8 % 4 = w.toNat / 2 ^ 8 % 4 := by omega
  refine ⟨?_, fun h => exec_regwr_illegal_word h s⟩
  rw [decodeCmdWrite_eq_none, IllegalFields, hunit]

/-- Settles O38: unit code 3 stands for no unit (rule R145), which is tested first. -/
theorem tounitReservedUnit : Obligations.TounitReservedUnit := by
  intro src s
  have hunit : TempUnit.ofCode 3 = none := rfl
  have hexec : exec (.tounit src 3) s = execTounit src 3 s := rfl
  rw [hexec, execTounit, hunit]
  rfl

end Sys2Proof.Machine

/-! What a step does (spec/47_host_bus.md rules R203, R204, spec/60_exceptions.md rule R226): whose turn it is, and which
operation, micro-step or rest follows. -/

namespace Sys2Proof.Machine

/-! ### Whose turn it is -/

section Turns
variable {s : State} {fine : Bool}

theorem nextAction_host {w : BitVec 41} {ts : List Turn} (h : s.io.turns = .host w :: ts) :
    nextAction s = .run (.bus w) s.popTurn := by
  simp [nextAction, h]

/-- On a core's turn, `fine` exactly when the turn is for a micro-step. -/
theorem nextAction_core
    (h : s.io.turns = [] ∨ (∃ ts, s.io.turns = .coreStep :: ts) ∨ ∃ ts, s.io.turns = .coreMicro :: ts) :
    ∃ fine, nextAction s = coreTurn fine s.popTurn ∧ (fine = true ↔ ∃ ts, s.io.turns = .coreMicro :: ts) := by
  rcases h with h | ⟨ts, h⟩ | ⟨ts, h⟩
  · exact ⟨false, by simp [nextAction, h, popTurn_of_no_turns h], by simp [h]⟩
  · exact ⟨false, by simp [nextAction, h], by simp [h]⟩
  · exact ⟨true, by simp [nextAction, h], by simp [h]⟩

/-! ### What the core does on its turn -/

theorem coreTurn_port (h : pinPop s.io.port ≠ 0) : coreTurn fine s = .run (.pin s.io.port) s.takePort := if_pos h

theorem coreTurn_rest (h : pinPop s.io.port = 0) (hr : s.sq.lc ≠ .running) : coreTurn fine s = .rest s := by
  rw [coreTurn, if_neg (not_not_intro h), if_pos hr]

theorem coreTurn_micro (h : pinPop s.io.port = 0) (hr : s.sq.lc = .running)
    (hm : s.io.pos.isSome = true ∨ (fine = true ∧ s.sq.phase = 1)) : coreTurn fine s = .micro s := by
  rw [coreTurn, if_neg (not_not_intro h), if_neg (not_not_intro hr)]
  split
  · rfl
  · rename_i hpos
    rw [if_pos (hm.resolve_left hpos)]

theorem coreTurn_seq (h : pinPop s.io.port = 0) (hr : s.sq.lc = .running) (hpos : s.io.pos = none)
    (hm : ¬ (fine = true ∧ s.sq.phase = 1)) : coreTurn fine s = .run (.seq s.sq.phase) s := by
  rw [coreTurn, if_neg (not_not_intro h), if_neg (not_not_intro hr), if_neg (by simp [hpos]), if_neg hm]

end Turns

theorem step_of_undecoded {s t : State} {w : Encoded} (hb : bugOf s = none) (ha : nextAction s = .run w t)
    (hd : decode w = none) : step s = .fault (undecoded w) := by simp [step, hb, ha, hd]

/-- Settles O6: the turn's action, then the step that takes it. -/
theorem stepRunsDecodedOperation : Obligations.StepRunsDecodedOperation := by
  intro s bug micro core s'
  have hbug : bugOf s = none ↔ ¬ bug := bugOf_eq_none_iff_not s
  refine ⟨fun hmet => ?_, fun hnone => ?_⟩
  · obtain ⟨f, hf⟩ := Option.ne_none_iff_exists'.mp (mt hbug.mp (not_not_intro hmet))
    exact ⟨f, step_of_bug hf⟩
  have hb := hbug.mpr hnone
  refine ⟨fun w ts i ht hd => step_of_run hb (nextAction_host ht) hd, fun hcore hport => ?_, fun hcore hport => ?_⟩ <;>
    obtain ⟨fine, ha, hfine⟩ := nextAction_core hcore
  · have hrun := ha.trans (coreTurn_port hport)
    exact ⟨fun i hd => step_of_run hb hrun hd, fun hd => ⟨_, step_of_undecoded hb hrun hd⟩⟩
  · refine ⟨fun hr => step_of_rest hb (ha.trans (coreTurn_rest hport hr)), fun hr hm => ?_, fun hr hpos hm i hd => ?_⟩
    · have hm' := hm.imp_right (And.imp_left hfine.mpr)
      exact step_of_micro hb (ha.trans (coreTurn_micro hport hr hm'))
    · have hm' := mt (And.imp_left hfine.mp) hm
      exact step_of_run hb (ha.trans (coreTurn_seq hport hr hpos hm')) hd

/-! ### The telemetry record (rule R95) -/

theorem length_telemItems (s : State) : s.telemItems.length = s.tab.stageLen.toNat := by simp [State.telemItems]

theorem getElem?_telemItems (s : State) {i : Nat} (h : i < s.tab.stageLen.toNat) :
    s.telemItems[i]? = some ⟨s.csPinAt i, s.stageAt i, s.rjStageAt i⟩ := by
  rw [State.telemItems, List.getElem?_map, List.getElem?_range h, Option.map_some]

/-- Settles O47, with the items PH_TELEM emits. -/
theorem phTelemEmitsRecord : Obligations.PhTelemEmitsRecord := fun s =>
  ⟨s.telemItems, length_telemItems s, fun _ h => getElem?_telemItems s h, rfl⟩

end Sys2Proof.Machine

/-! The transport (spec/40_transport.md): pin transactions on their own, CLAIM, RELEASE, and
the refusals of a channel command. -/

namespace Sys2Proof.Machine

/-! ### Pin transactions on their own (rules R110 to R112, R115) -/

/-- Settles O20: what each transaction leaves when the environment answers ok. -/
theorem pinTransactionSucceeds : Obligations.PinTransactionSucceeds := by
  intro p s h
  rw [← nextAnswer_eq_answerAt] at h ⊢
  refine ⟨fun d => ?_, fun l => ?_, ?_⟩
  · calc exec (.setdir p d) s
        = .next (pinSetDir p d s).settle := rfl
      _ = _ := by rw [pinSetDir_ok p d s h]; rfl
  · calc exec (.write p l) s
        = .next (pinWrite p l s).settle := rfl
      _ = _ := by rw [pinWrite_ok p l s h]; rfl
  · calc exec (.read p) s
        = .next (pinRead p s).settle := rfl
      _ = _ := by rw [pinRead_ok p s h]; rfl

theorem pinWrite_fails (p : PinId) (l : Level) (s : State) (h : s.nextAnswer.ok = false) :
    pinWrite p l s = .raised .transportFailure (s.drawn.emit (.pin (.write l) p .fail)) := by simp [pinWrite_eq, h]

theorem pinRead_fails (p : PinId) (s : State) (h : s.nextAnswer.ok = false) :
    pinRead p s = .raised .transportFailure (s.drawn.emit (.pin .read p .fail)) := by simp [pinRead_eq, h]

theorem pinSetDir_fails (p : PinId) (d : Dir) (s : State) (h : s.nextAnswer.ok = false) :
    pinSetDir p d s = .raised .transportFailure (s.drawn.emit (.pin (.setDir d) p .fail)) := by simp [pinSetDir_eq, h]

/-- A transaction on its own that fails is recorded, and the session is aborted (rules R115, R214). -/
theorem exec_pin_fails {i : Instr} {p : PinId} {op : PinOp} {s : State} (h : (s.answerAt 0).ok = false)
    (hi : (∃ d, i = .setdir p d ∧ op = .setDir d) ∨ (∃ l, i = .write p l ∧ op = .write l) ∨
      (i = .read p ∧ op = .read)) :
    exec i s = .next (abort .transportFailure (s.drawn.emit (.pin op p .fail))) := by
  rw [← nextAnswer_eq_answerAt] at h
  rcases hi with ⟨d, rfl, rfl⟩ | ⟨l, rfl, rfl⟩ | ⟨rfl, rfl⟩
  · exact congrArg (fun m => Host.Outcome.next m.settle) (pinSetDir_fails p d s h)
  · exact congrArg (fun m => Host.Outcome.next m.settle) (pinWrite_fails p l s h)
  · exact congrArg (fun m => Host.Outcome.next m.settle) (pinRead_fails p s h)

/-! ### A session aborted after some transactions (rules R115, R214) -/

theorem claimedPins_congr {s u : State} (hc : u.cfg = s.cfg) (hd : u.pins.dir = s.pins.dir) :
    u.claimedPins = s.claimedPins := by
  simp only [State.claimedPins, busPins_of_cfg hc, pdir_eq_of_pins hd]

/-- `u` is reached from `s` by transactions recorded as `l`, which left the configuration and the directions of the pins
as they were. -/
structure Issued (l : List Event) (s u : State) : Prop where
  cfg : u.cfg = s.cfg
  dir : u.pins.dir = s.pins.dir
  io : u.io = (s.drawnBy l.length).io
  history : u.history = l.reverse ++ s.history

section Issued
variable {l : List Event} {s u v : State} {x : Cause}

theorem answerAt_of_io (h : u.io = s.io) (k : Nat) : u.answerAt k = s.answerAt k := by simp [State.answerAt, h]

theorem Issued.answerAt (h : Issued l s u) (k : Nat) : u.answerAt k = s.answerAt (l.length + k) :=
  answerAt_of_drawn (by rw [h.io]; rfl) (by rw [h.io]; rfl) k

theorem Issued.nextAnswer (h : Issued l s u) : u.nextAnswer = s.answerAt l.length := by
  rw [nextAnswer_eq_answerAt, h.answerAt, Nat.add_zero]

/-- One more transaction, recorded as `e`. -/
theorem Issued.snoc (h : Issued l s u) {e : Event} (hcfg : v.cfg = u.cfg) (hdir : v.pins.dir = u.pins.dir)
    (hio : v.io = u.drawn.io) (hh : v.history = e :: u.history) : Issued (l ++ [e]) s v where
  cfg := hcfg.trans h.cfg
  dir := hdir.trans h.dir
  io := by rw [hio, drawn_io, h.io]; simp [State.drawnBy, Nat.add_assoc]
  history := by rw [hh, h.history]; simp

theorem issued_nil {s u : State} (hcfg : u.cfg = s.cfg) (hdir : u.pins.dir = s.pins.dir) (hio : u.io = s.io)
    (hh : u.history = s.history) : Issued [] s u :=
  ⟨hcfg, hdir, by rw [hio]; simp [State.drawnBy], hh⟩

theorem Issued.releaseTrace (h : Issued l s u) : u.releaseTrace = (s.drawnBy l.length).releaseTrace := by
  have hpins : u.claimedPins = (s.drawnBy l.length).claimedPins := claimedPins_congr h.cfg h.dir
  have hans : ∀ k, u.answerAt k = (s.drawnBy l.length).answerAt k := answerAt_of_io h.io
  simp only [State.releaseTrace, hpins, hans]

theorem Issued.events_abort (h : Issued l s u) :
    (abort x u).events = s.events ++ l ++ [.stop .aborted x.reason] ++ (s.drawnBy l.length).releaseTrace
      ++ [.release s.claimedPins.length] := by
  rw [State.events, (abort_spec x u).history, h.releaseTrace, h.history, claimedPins_congr h.cfg h.dir]
  simp [State.events]

theorem Issued.io_abort (h : Issued l s u) :
    (abort x u).io = { (s.drawnBy (l.length + s.claimedPins.length)).io with pos := none } := by
  rw [(abort_spec x u).io, claimedPins_congr h.cfg h.dir]
  simp [State.drawnBy, h.io, Nat.add_assoc]

theorem Issued.pdir_abort (h : Issued l s u) (q : PinId) :
    (abort x u).pdir q = if q ∈ s.busPins then none else s.pdir q := by
  rw [(abort_spec x u).pdir, busPins_of_cfg h.cfg, pdir_eq_of_pins h.dir]

theorem Issued.plvl_abort (h : Issued l s u) (q : PinId) :
    (abort x u).plvl q = if q ∈ s.busPins ∧ s.pdir q ≠ none then none else u.plvl q := by
  rw [(abort_spec x u).plvl, busPins_of_cfg h.cfg, pdir_eq_of_pins h.dir]

end Issued

/-- Settles O21: the failed transaction is recorded, then the abort follows. -/
theorem pinTransactionFails : Obligations.PinTransactionFails := by
  intro i p op s hfail hi
  have e := abort_spec .transportFailure (s.drawn.emit (.pin op p .fail))
  have h : Issued [.pin op p .fail] s (s.drawn.emit (.pin op p .fail)) := ⟨rfl, rfl, rfl, rfl⟩
  refine ⟨_, exec_pin_fails hfail hi, e.sq, e.fl, e.dp, e.cfg, e.tab, e.buf, e.params, h.pdir_abort, h.plvl_abort, ?_,
    h.io_abort⟩
  rw [h.events_abort]
  simp [Cause.reason]

/-! ### CLAIM and START (rules R113, R180) -/

theorem claimable_iff (s : State) : claimable s = true ↔ 1 ≤ s.cfg.nch.toNat ∧ s.busPins.Nodup := by
  simp [claimable]

theorem claimCommand_unclaimed {s : State} (hi : s.sq.lc = .idle) (hc : s.fl.claimed = false) :
    claimCommand s = if claimable s then (claimPins (accept s)).settle else refuse .configError s := by
  rw [claimCommand, inIdle_idle hi, if_neg (by simp [hc])]

/-- START without claimed pins: no channel is refused as CLAIM refuses it. -/
theorem startCommand_unclaimed {s : State} (hi : s.sq.lc = .idle) (hc : s.fl.claimed = false) :
    startCommand s = if claimable s
      then ((claimPins (accept s)).andThen fun _ t => .done () (enterRunning t)).settle
      else refuse .configError s := by
  rw [startCommand, inIdle_idle hi]
  by_cases hn : s.cfg.nch.toNat < 1
  · rw [if_pos hn, if_neg fun h => absurd (nch_of_claimable h) (Nat.not_le.mpr hn)]
  · rw [if_neg hn, if_neg (by simp [hc])]

section ClaimOk
variable {s : State} (hi : s.sq.lc = .idle) (hc : s.fl.claimed = false) (hn : 1 ≤ s.cfg.nch.toNat)
  (hd : s.busPins.Nodup) (hok : s.allOk 0 (2 * s.cfg.nch.toNat + 3))
include hi hc hn hd hok

theorem exec_claim_ok : exec .claim s = .next (afterClaim (accept s)) := by
  have hpins : claimPins (accept s) = .done () (afterClaim (accept s)) := claimPins_ok (accept s) hok
  have hcmd : claimCommand s = afterClaim (accept s) := by
    rw [claimCommand_unclaimed hi hc, if_pos ((claimable_iff s).mpr ⟨hn, hd⟩), hpins, Flow.settle_done]
  exact congrArg Host.Outcome.next hcmd

theorem exec_start_ok : exec .start s = .next (enterRunning (afterClaim (accept s))) := by
  have hpins : claimPins (accept s) = .done () (afterClaim (accept s)) := claimPins_ok (accept s) hok
  have hcmd : startCommand s = enterRunning (afterClaim (accept s)) := by
    rw [startCommand_unclaimed hi hc, if_pos ((claimable_iff s).mpr ⟨hn, hd⟩), hpins, Flow.andThen_done,
      Flow.settle_done]
  exact congrArg Host.Outcome.next hcmd

end ClaimOk

theorem history_afterClaim (s : State) :
    (afterClaim s).history = (claimTrace s.csPins s.cfg.clkPin s.cfg.dataPin).reverse ++ s.history := by
  simp [afterClaim, afterSetDir, afterWrite, history_afterSelects, claimTrace]

theorem io_afterClaim (s : State) : (afterClaim s).io = (s.drawnBy (2 * s.cfg.nch.toNat + 3)).io := by
  simp [afterClaim, afterSetDir, afterWrite, io_afterSelects, length_csPins, State.drawnBy, Nat.add_assoc]

/-- A claim leaves every chip-select and the clock outputs and high and the data pin an input (rules R53, R113). -/
theorem busIdle_afterClaim {s : State} (hd : s.busPins.Nodup) : (afterClaim s).busIdle := by
  obtain ⟨u, hu, e⟩ := onlyPins_afterClaim s
  have hcfg : (afterClaim s).cfg = s.cfg := by rw [e]; exact hu.cfg
  have hout : ∀ q, q ≠ s.cfg.dataPin → q = s.cfg.clkPin ∨ q ∈ s.csPins → (afterClaim s).drives q .high := by
    intro q hq hm
    rw [State.drives, pdir_afterClaim, plvl_afterClaim, if_neg hq, if_pos hm, if_pos hm]
    exact ⟨rfl, rfl⟩
  rw [State.busIdle, hcfg]
  refine ⟨fun i hi => ?_, hout _ (clkPin_ne_dataPin hd) (.inl rfl), ?_⟩
  · rw [csPinAt_of_cfg hcfg]
    exact hout _ (csPinAt_ne_dataPin hd hi) (.inr ((mem_csPins s _).mpr ⟨i, hi, rfl⟩))
  · rw [pdir_afterClaim, if_pos rfl]

/-- What a claim does outside the pins, the history and the environment's answers: CLAIMED is set. -/
theorem registers_afterClaim (s : State) :
    (afterClaim s).fl = { s.fl with claimed := true } ∧ (afterClaim s).dp = s.dp ∧ (afterClaim s).sq = s.sq ∧
      (afterClaim s).cfg = s.cfg ∧ (afterClaim s).tab = s.tab ∧ (afterClaim s).buf = s.buf ∧
      (afterClaim s).params = s.params := by
  obtain ⟨u, hu, e⟩ := onlyPins_afterClaim s
  rw [e]
  exact ⟨by rw [← hu.fl], hu.dp, hu.sq, hu.cfg, hu.tab, hu.buf, hu.params⟩

/-- Settles O22: the state a claim leaves, read group by group. -/
theorem claimClaimsPins : Obligations.ClaimClaimsPins := by
  intro s hi hc hn hd hok
  obtain ⟨hfl, hdp, hsq, hcfg, htab, hbuf, hparams⟩ := registers_afterClaim (accept s)
  have outside : ∀ p, p ∉ s.busPins → ¬(p = s.cfg.clkPin ∨ p ∈ s.csPins) ∧ p ≠ s.cfg.dataPin := by
    intro p hp
    simp only [State.busPins, List.mem_append, List.mem_cons, List.not_mem_nil, or_false, not_or] at hp
    exact ⟨not_or.mpr ⟨hp.2.1, hp.1⟩, hp.2.2⟩
  have hdata : ¬(s.cfg.dataPin = s.cfg.clkPin ∨ s.cfg.dataPin ∈ s.csPins) := by
    rintro (h | h)
    · exact clkPin_ne_dataPin hd h.symm
    · obtain ⟨i, hlt, h⟩ := (mem_csPins s _).mp h
      exact csPinAt_ne_dataPin hd hlt h
  refine ⟨_, exec_claim_ok hi hc hn hd hok, hfl, busIdle_afterClaim (s := accept s) hd, fun p hp => ?_, ?_, ?_, hdp,
    hsq, hcfg, htab, hbuf, hparams, io_afterClaim (accept s)⟩
  · obtain ⟨hwritten, hp⟩ := outside p hp
    exact ⟨by rw [pdir_afterClaim]; exact (if_neg hp).trans (if_neg hwritten),
      by rw [plvl_afterClaim]; exact if_neg hwritten⟩
  · rw [plvl_afterClaim]
    exact if_neg hdata
  · rw [State.events, history_afterClaim, List.reverse_append, List.reverse_reverse]
    rfl

/-- Settles O23: the tests of CLAIM and START before the first transaction. -/
theorem claimWithoutTransactions : Obligations.ClaimWithoutTransactions := by
  intro s hi
  refine ⟨fun hc => ?_, fun hc hbad => ?_⟩
  · have accepted : claimCommand s = accept s := by rw [claimCommand, inIdle_idle hi, if_pos hc]
    exact congrArg Host.Outcome.next accepted
  · have hbad' : ¬ claimable s = true := by
      rw [claimable_iff]
      rintro ⟨hn, hd⟩
      rcases hbad with h0 | hdup
      · simp [h0] at hn
      · exact hdup hd
    have hclaim : claimCommand s = refuse .configError s := by rw [claimCommand_unclaimed hi hc, if_neg hbad']
    have hstart : startCommand s = refuse .configError s := by rw [startCommand_unclaimed hi hc, if_neg hbad']
    exact ⟨congrArg Host.Outcome.next hclaim, congrArg Host.Outcome.next hstart⟩

/-- Settles O40: START runs CLAIM's transactions on the way to Running. -/
theorem startClaimsFirst : Obligations.StartClaimsFirst := fun _ hi hc hn hd hok =>
  ⟨_, exec_claim_ok hi hc hn hd hok, rfl, exec_start_ok hi hc hn hd hok⟩

/-! ### RELEASE (rule R114) -/

theorem exec_release_accepted {s : State} (h : s.sq.lc ≠ .running) : exec .release s = .next (release (accept s)) :=
  congrArg Host.Outcome.next (if_neg h)

/-- Settles O24: the release of the state with ERR cleared. -/
theorem releaseFreesPins : Obligations.ReleaseFreesPins := by
  intro s hr
  have e := release_spec (accept s)
  refine ⟨_, exec_release_accepted hr, e.fl, e.pdir, e.plvl, ?_, e.dp, e.sq, e.cfg, e.tab, e.buf, e.params, e.io⟩
  have hh : (release (accept s)).history = .release s.claimedPins.length :: (s.releaseTrace.reverse ++ s.history) :=
    e.history
  rw [State.events, hh]
  simp [State.events]

theorem releasePins_unclaimed (ps : List PinId) (k : Nat) (s : State) (h : ∀ p ∈ ps, s.pdir p = none) :
    releasePins ps k s = (k, s) := by
  induction ps with
  | nil => rfl
  | cons p ps ih =>
    obtain ⟨hp, hps⟩ := List.forall_mem_cons.mp h
    rw [releasePins, if_neg (not_not_intro hp), ih hps]

/-- A release with no configured pin claimed. -/
theorem release_unclaimed {s : State} (h : ∀ p ∈ s.busPins, s.pdir p = none) :
    release s = ({ s with fl.claimed := false } : State).emit (.release 0) := by
  rw [release, releasePins_unclaimed _ _ _ h]

/-- Settles O25: after the first release CLAIMED and ERR are clear and every configured pin is unclaimed. -/
theorem releaseIsIdempotent : Obligations.ReleaseIsIdempotent := by
  intro s t hr ht
  obtain rfl : release (accept s) = t := by
    rw [exec_release_accepted hr] at ht
    exact Host.Outcome.next.inj ht
  have e := release_spec (accept s)
  generalize release (accept s) = t at e ⊢
  have hr' : t.sq.lc ≠ .running := by rw [e.sq]; exact hr
  have hpins : ∀ p ∈ (accept t).busPins, (accept t).pdir p = none := by
    intro p hp
    have hp' : p ∈ (accept s).busPins := by rwa [← busPins_of_cfg e.cfg]
    exact (e.pdir p).trans (if_pos hp')
  have hfl : ({ t.fl with err := .none, claimed := false } : Flags) = t.fl := by rw [e.fl]; rfl
  calc exec .release t
      = .next (release (accept t)) := exec_release_accepted hr'
    _ = .next { t with
          fl := { t.fl with err := .none, claimed := false }
          history := .release 0 :: t.history } := by rw [release_unclaimed hpins]; rfl
    _ = .next { t with history := .release 0 :: t.history } := by rw [hfl]

/-! ### Refusals of a channel command (rules R117, R160, R199) -/

theorem channelCommand_refusals {ch : BitVec 8} {body : Nat → State → Flow Unit} {s : State} (hi : s.sq.lc = .idle) :
    (s.fl.claimed = false → channelCommand ch body s = refuse .notClaimed s) ∧
      (s.fl.claimed = true → s.cfg.nch.toNat ≤ ch.toNat → channelCommand ch body s = refuse .badIndex s) := by
  rw [channelCommand, inIdle_idle hi]
  refine ⟨fun hc => if_pos hc, fun hc hn => ?_⟩
  rw [if_neg (by simp [hc]), if_pos hn]

/-- The four commands that read a channel run `channelCommand` with one of the channel's operations. -/
theorem exec_channelCommand {i : Instr} {ch : BitVec 8} (hi : i ∈ [.rdframe ch, .getrj ch, .get ch, .rdreading ch]) :
    ∃ body ∈ channelBodies, ∀ s, exec i s = .next (channelCommand ch body s) := by
  simp only [List.mem_cons, List.not_mem_nil, or_false] at hi
  rcases hi with rfl | rfl | rfl | rfl
  · exact ⟨readFrame, by simp [channelBodies], fun _ => rfl⟩
  · exact ⟨getRj, by simp [channelBodies], fun _ => rfl⟩
  · exact ⟨getTc, by simp [channelBodies], fun _ => rfl⟩
  · exact ⟨readReading, by simp [channelBodies], fun _ => rfl⟩

/-- Settles O32: the tests of `channelCommand`, in their order. -/
theorem channelCommandRefusals : Obligations.ChannelCommandRefusals := by
  intro i ch s hi hidle
  obtain ⟨body, -, hexec⟩ := exec_channelCommand hi
  obtain ⟨hclaim, hindex⟩ := channelCommand_refusals (ch := ch) (body := body) hidle
  rw [hexec]
  exact ⟨fun hc => congrArg _ (hclaim hc), fun hc hn => congrArg _ (hindex hc hn)⟩

end Sys2Proof.Machine

/-! The frame read by its pin transactions (spec/40_transport.md rules R117, R118), and the abort when one of them fails
(rules R115, R212, R214). -/

namespace Sys2Proof.Machine

/-! ### The frame read as its 98 transactions (rule R118) -/

/-- The `m` transactions of channel `ch`'s frame read from number `k` on. -/
def framePins (ch : Nat) : Nat → Nat → State → Flow Unit
  | 0, _, s => .done () s
  | m + 1, k, s => (framePin ch k s).andThen fun _ t => framePins ch m (k + 1) t

theorem framePins_three (ch m k : Nat) (s : State) :
    framePins ch (m + 3) k s = (framePin ch k s).andThen fun _ t => (framePin ch (k + 1) t).andThen fun _ u =>
      (framePin ch (k + 2) u).andThen fun _ v => framePins ch m (k + 3) v := rfl

section Positions
variable {ch k : Nat} {s : State}

theorem framePin_first : framePin ch 0 s = pinWrite (s.csPinAt ch) .low s := rfl

theorem framePin_clockLow (hk : k < 97) (hm : k % 3 = 1) : framePin ch k s = pinWrite s.cfg.clkPin .low s := by
  rw [framePin, if_neg (by omega), if_neg (by omega), show (k - 1) % 3 = 0 by omega]
  rfl

theorem framePin_read (hk : k < 97) (hm : k % 3 = 2) : framePin ch k s = sampleBit s := by
  rw [framePin, if_neg (by omega), if_neg (by omega), show (k - 1) % 3 = 1 by omega]
  rfl

theorem framePin_clockHigh (h0 : k ≠ 0) (hk : k < 97) (hm : k % 3 = 0) :
    framePin ch k s = pinWrite s.cfg.clkPin .high s := by
  rw [framePin, if_neg h0, if_neg (by omega), show (k - 1) % 3 = 2 by omega]
  rfl

theorem framePin_last :
    framePin ch 97 s = (pinWrite (s.csPinAt ch) .high s).andThen fun _ t => .done () (latchFrame t) := rfl

/-- Before the last, a transaction is a WRITE of the chip-select or of the clock, or the READ of a clock pulse. -/
theorem framePin_cases (ch : Nat) (hk : k < 97) (s : State) :
    (∃ p l, (p = s.csPinAt ch ∨ p = s.cfg.clkPin) ∧ k % 3 ≠ 2 ∧ framePin ch k s = pinWrite p l s ∧
      frameOp (s.csPinAt ch) s.cfg.clkPin s.cfg.dataPin k = (.write l, p)) ∨
    (k % 3 = 2 ∧ framePin ch k s = sampleBit s ∧
      frameOp (s.csPinAt ch) s.cfg.clkPin s.cfg.dataPin k = (.read, s.cfg.dataPin)) := by
  have hlast : ¬ 97 ≤ k := Nat.not_le.mpr hk
  by_cases h0 : k = 0
  · subst h0
    exact .inl ⟨_, .low, .inl rfl, by decide, framePin_first, rfl⟩
  · rcases (by omega : k % 3 = 1 ∨ k % 3 = 2 ∨ k % 3 = 0) with hm | hm | hm
    · exact .inl ⟨_, .low, .inr rfl, by omega, framePin_clockLow hk hm, by simp [frameOp, h0, hlast, hm]⟩
    · exact .inr ⟨hm, framePin_read hk hm, by simp [frameOp, h0, hlast, hm]⟩
    · exact .inl ⟨_, .high, .inr rfl, by omega, framePin_clockHigh h0 hk hm, by simp [frameOp, h0, hlast, hm]⟩

end Positions

/-- The clock pulses from number `j` on and the last transaction are the transactions from number 1 + 3 j on. -/
theorem framePins_pulses (ch n : Nat) : ∀ (j : Nat) (s : State), j + n = 32 →
    framePins ch (3 * n + 1) (1 + 3 * j) s = (clockPulses n s).andThen fun _ t => framePin ch 97 t := by
  induction n with
  | zero =>
    intro j s hj
    obtain rfl : j = 32 := hj
    show (framePin ch 97 s).andThen (fun _ t => Flow.done () t) = framePin ch 97 s
    cases framePin ch 97 s <;> rfl
  | succ n ih =>
    intro j s hj
    have hrest : ∀ u, framePins ch (3 * n + 1) (1 + 3 * j + 3) u =
        (clockPulses n u).andThen fun _ t => framePin ch 97 t := fun u => ih (j + 1) u (by omega)
    show framePins ch (3 * n + 1 + 3) (1 + 3 * j) s = _
    simp only [framePins_three, hrest, clockPulses, clockPulse, Flow.andThen_assoc,
      framePin_clockLow (ch := ch) (show 1 + 3 * j < 97 by omega) (by omega),
      framePin_read (ch := ch) (show 1 + 3 * j + 1 < 97 by omega) (by omega),
      framePin_clockHigh (ch := ch) (show 1 + 3 * j + 2 ≠ 0 by omega) (by omega) (by omega)]

theorem readFrame_eq_framePins (ch : Nat) (s : State) : readFrame ch s = framePins ch 98 0 (frameHead ch s) := by
  have hpulses := fun t => framePins_pulses ch 32 0 t rfl
  show readFrame ch s = (framePin ch 0 (frameHead ch s)).andThen fun _ t => framePins ch (3 * 32 + 1) (1 + 3 * 0) t
  simp only [hpulses]
  rfl

/-! ### The registers after some of the READs (rules R117, R118) -/

/-- The level READ number `k` of the next frame read returns. -/
def State.readLevel (s : State) (k : Nat) : Level := (s.answerAt (2 + 3 * k)).level

/-- The datapath `d` a frame read begun with `d₀` has made after `m` READs that returned the levels `l`. -/
structure Collected (l : Nat → Level) (m : Nat) (d₀ d : Datapath) : Prop where
  others : d = { d₀ with sr := d.sr, bitcnt := d.bitcnt, bit := d.bit }
  bitcnt : d.bitcnt = BitVec.ofNat 6 m
  sr : ∀ j, d.sr.getLsbD j = (decide (j < m) && (l (m - 1 - j) == .high))
  bit : d.bit = if m = 0 then d₀.bit else readBit (l (m - 1))

theorem collected_frameHead (l : Nat → Level) (ch : Nat) (s : State) : Collected l 0 s.dp (frameHead ch s).dp where
  others := rfl
  bitcnt := rfl
  sr j := by simp [frameHead]
  bit := rfl

theorem getLsbD_readBit (l : Level) (j : Nat) :
    ((readBit l).setWidth 32).getLsbD j = (decide (j = 0) && (l == .high)) := by
  cases l <;> simp [readBit]

theorem Collected.shiftIn {l : Nat → Level} {m : Nat} {d₀ : Datapath} {s : State} (h : Collected l m d₀ s.dp)
    (hm : m < 32) : Collected l (m + 1) d₀ (shiftIn (readBit (l m)) s).dp where
  others := by
    show ({ s.dp with bit := _, sr := _, bitcnt := _ } : Datapath) = _
    rw [h.others]
    rfl
  bitcnt := by
    show s.dp.bitcnt + 1 = _
    rw [h.bitcnt, BitVec.ofNat_add]
    rfl
  sr j := by
    show ((s.dp.sr <<< 1) ||| (readBit (l m)).setWidth 32).getLsbD j = _
    rw [BitVec.getLsbD_or, getLsbD_readBit, BitVec.getLsbD_shiftLeft, h.sr]
    rcases j with _ | j
    · simp
    · have hj : m - (j + 1) = m - 1 - j := by omega
      by_cases hjm : j < m
      · have hj32 : j + 1 < 32 := by omega
        simp [hj, hjm, hj32]
      · simp [hjm]
  bit := rfl

/-- The READs' levels stand in SR, the last in bit 0. -/
theorem Collected.sr_read {l : Nat → Level} {m j : Nat} {d₀ d : Datapath} (h : Collected l m d₀ d) (hj : j < m) :
    d.sr.getLsbD (m - 1 - j) = true ↔ l j = .high := by
  rw [h.sr, show m - 1 - (m - 1 - j) = j by omega, decide_eq_true (by omega : m - 1 - j < m), Bool.true_and, beq_iff_eq]

theorem Collected.sr_above {l : Nat → Level} {m j : Nat} {d₀ d : Datapath} (h : Collected l m d₀ d) (hj : m ≤ j) :
    d.sr.getLsbD j = false := by
  rw [h.sr, decide_eq_false (Nat.not_lt.mpr hj), Bool.false_and]

theorem Collected.bit_last {l : Nat → Level} {m j : Nat} {d₀ d : Datapath} (h : Collected l m d₀ d) (hj : m = j + 1) :
    d.bit = 1 ↔ l j = .high := by
  subst hj
  rw [h.bit, if_neg (Nat.succ_ne_zero j), Nat.add_sub_cancel]
  cases l j <;> decide

/-! ### The state between two transactions of a frame read -/

theorem frameEvents_succ (s : State) (ch n : Nat) :
    s.frameEvents ch (n + 1) = s.frameEvents ch n ++
      [pinEvent (frameOp (s.csPinAt ch) s.cfg.clkPin s.cfg.dataPin n) (s.answerAt n)] := by
  simp [State.frameEvents, List.range_succ]

@[simp] theorem length_frameEvents (s : State) (ch n : Nat) : (s.frameEvents ch n).length = n := by
  simp [State.frameEvents]

/-- `u` is the state the frame read of channel `ch` begun in `s` has reached after `n` transactions, all successful. -/
structure FrameProgress (ch n : Nat) (s u : State) : Prop where
  only : OnlyFrame s u
  chan : u.sq.ch = BitVec.ofNat 6 ch
  dp : Collected s.readLevel (n / 3) s.dp u.dp
  plvl : ∀ q, q ≠ s.csPinAt ch → q ≠ s.cfg.clkPin → u.plvl q = s.plvl q
  issued : Issued (s.frameEvents ch n) s u

theorem frameProgress_frameHead (ch : Nat) (s : State) : FrameProgress ch 0 s (frameHead ch s) where
  only := by constructor <;> rfl
  chan := rfl
  dp := collected_frameHead _ ch s
  plvl _ _ _ := rfl
  issued := issued_nil rfl rfl rfl rfl

section Progress
variable {ch n : Nat} {s u : State}

theorem FrameProgress.answer (h : FrameProgress ch n s u) : u.nextAnswer = s.answerAt n := by
  rw [h.issued.nextAnswer, length_frameEvents]

/-- The pins a frame read names are those of the state it began in. -/
theorem FrameProgress.frameOp_eq (h : FrameProgress ch n s u) (k : Nat) :
    frameOp (u.csPinAt ch) u.cfg.clkPin u.cfg.dataPin k = frameOp (s.csPinAt ch) s.cfg.clkPin s.cfg.dataPin k := by
  rw [csPinAt_of_cfg h.only.cfg, h.only.cfg]

/-- The transaction that follows, recorded as the frame read's next event. -/
theorem FrameProgress.snoc (h : FrameProgress ch n s u) {v : State} (hcfg : v.cfg = u.cfg)
    (hdir : v.pins.dir = u.pins.dir) (hio : v.io = u.drawn.io)
    (hh : v.history =
      pinEvent (frameOp (u.csPinAt ch) u.cfg.clkPin u.cfg.dataPin n) u.nextAnswer :: u.history) :
    Issued (s.frameEvents ch (n + 1)) s v := by
  rw [frameEvents_succ]
  exact h.issued.snoc hcfg hdir hio (by rw [hh, h.frameOp_eq, h.answer])

/-- A successful transaction before the last (rules R111, R112, R117). -/
theorem FrameProgress.step (h : FrameProgress ch n s u) (hn : n < 97) (ok : (s.answerAt n).ok = true) :
    ∃ v, framePin ch n u = .done () v ∧ FrameProgress ch (n + 1) s v := by
  rw [← h.answer] at ok
  rcases framePin_cases ch hn u with ⟨p, l, hp, hm, hrun, hop⟩ | ⟨hm, hrun, hop⟩
  · refine ⟨afterWrite p l u, by rw [hrun, pinWrite_ok p l u ok], ?_⟩
    have hsame : (n + 1) / 3 = n / 3 := by omega
    refine ⟨h.only.trans (by constructor <;> rfl), h.chan, by rw [hsame]; exact h.dp, fun q hq hq' => ?_, ?_⟩
    · have hne : q ≠ p := by
        rintro rfl
        rcases hp with hp | hp
        · exact hq (hp.trans (csPinAt_of_cfg h.only.cfg ch))
        · exact hq' (hp.trans (by rw [h.only.cfg]))
      rw [plvl_afterWrite, if_neg hne]
      exact h.plvl q hq hq'
    · refine h.snoc (v := afterWrite p l u) rfl rfl rfl ?_
      rw [hop]
      simp [afterWrite, pinEvent, PinAnswer.result, ok]
  · have hlevel : u.nextAnswer.level = s.readLevel (n / 3) := by
      rw [h.answer, State.readLevel, show 2 + 3 * (n / 3) = n by omega]
    have hnext : (n + 1) / 3 = n / 3 + 1 := by omega
    refine ⟨shiftIn (readBit u.nextAnswer.level) (afterRead u.cfg.dataPin u), ?_, ?_⟩
    · rw [hrun, sampleBit, pinRead_ok _ u ok, Flow.andThen_done]
    · refine ⟨h.only.trans (by constructor <;> rfl), h.chan, ?_, h.plvl,
        h.snoc (v := shiftIn (readBit u.nextAnswer.level) (afterRead u.cfg.dataPin u)) rfl rfl rfl ?_⟩
      · rw [hnext, hlevel]
        exact Collected.shiftIn (s := afterRead u.cfg.dataPin u) h.dp (by omega)
      · rw [hop]
        simp [afterRead, shiftIn, pinEvent, PinAnswer.readResult, ok]

/-- A transaction that fails is recorded, and nothing else happens (rule R115). -/
theorem framePin_fails (ch : Nat) (hn : n < 98) (h : u.nextAnswer.ok = false) :
    framePin ch n u = .raised .transportFailure (u.drawn.emit
      (pinEvent (frameOp (u.csPinAt ch) u.cfg.clkPin u.cfg.dataPin n) u.nextAnswer)) := by
  have hw : ∀ p l, pinEvent (.write l, p) u.nextAnswer = .pin (.write l) p .fail := fun p l => by
    simp [pinEvent, PinAnswer.result, h]
  have hr : ∀ p, pinEvent (.read, p) u.nextAnswer = .pin .read p .fail := fun p => by
    simp [pinEvent, PinAnswer.readResult, h]
  rcases (by omega : n < 97 ∨ n = 97) with hlt | rfl
  · rcases framePin_cases ch hlt u with ⟨p, l, -, -, hrun, hop⟩ | ⟨-, hrun, hop⟩
    · rw [hrun, hop, hw, pinWrite_fails p l u h]
    · rw [hrun, hop, hr, sampleBit, pinRead_fails _ u h, Flow.andThen_raised]
  · have hop : frameOp (u.csPinAt ch) u.cfg.clkPin u.cfg.dataPin 97 = (.write .high, u.csPinAt ch) := rfl
    rw [hop, hw, framePin_last, pinWrite_fails _ _ u h, Flow.andThen_raised]

end Progress

/-- As long as no transaction fails, the frame read goes on from the state its transactions so far have made. -/
theorem readFrame_progress (ch : Nat) (s : State) (n : Nat) (hn : n ≤ 97) (hok : s.allOk 0 n) :
    ∃ u, FrameProgress ch n s u ∧ readFrame ch s = framePins ch (98 - n) n u := by
  induction n with
  | zero => exact ⟨_, frameProgress_frameHead ch s, readFrame_eq_framePins ch s⟩
  | succ n ih =>
    obtain ⟨u, hu, hrun⟩ := ih (by omega) fun k hk => hok k (by omega)
    have ok : (s.answerAt n).ok = true := by simpa using hok n (by omega)
    obtain ⟨v, hstep, hv⟩ := hu.step (by omega) ok
    have hcount : 98 - n = 98 - (n + 1) + 1 := by omega
    exact ⟨v, hv, by rw [hrun, hcount, framePins, hstep, Flow.andThen_done]⟩

/-- A frame read whose transaction number `n` is the first to fail raises TransportFailure in the state of its `n`
successful transactions with the failed one recorded. -/
theorem readFrame_fails {ch n : Nat} {s : State} (hn : n < 98) (hok : s.allOk 0 n)
    (hfail : (s.answerAt n).ok = false) :
    ∃ u e, FrameProgress ch n s u ∧ Issued (s.frameEvents ch (n + 1)) s (u.drawn.emit e) ∧
      readFrame ch s = .raised .transportFailure (u.drawn.emit e) := by
  obtain ⟨u, hu, hrun⟩ := readFrame_progress ch s n (by omega) hok
  have hcount : 98 - n = 98 - (n + 1) + 1 := by omega
  rw [← hu.answer] at hfail
  refine ⟨u, _, hu, hu.snoc rfl rfl rfl rfl, ?_⟩
  rw [hrun, hcount, framePins, framePin_fails ch hn hfail, Flow.andThen_raised]

/-- Settles O27: the transactions before the failed one, then the abort. -/
theorem rdframeFailureAborts : Obligations.RdframeFailureAborts := by
  intro ch s n hi hc hch hn hok hfail
  obtain ⟨u, e, hu, hissued, hrun⟩ := readFrame_fails (ch := ch.toNat) (s := accept s) hn hok hfail
  have hexec : exec (.rdframe ch) s = .next (abort .transportFailure (u.drawn.emit e)) := by
    have hcmd : channelCommand ch readFrame s = abort .transportFailure (u.drawn.emit e) := by
      rw [channelCommand_accepted hi hc hch, hrun, Flow.settle_raised]
    exact congrArg Host.Outcome.next hcmd
  have ended := abort_spec .transportFailure (u.drawn.emit e)
  have hdp : (abort .transportFailure (u.drawn.emit e)).dp = u.dp := ended.dp
  have hfl : u.fl = { s.fl with err := .none } := hu.only.fl
  have hsq : u.sq = { s.sq with ch := BitVec.ofNat 6 ch.toNat } := by rw [hu.only.sq, hu.chan]; rfl
  have hlevels := hissued.plvl_abort (x := .transportFailure)
  refine ⟨_, hexec, ?_, ?_, fun j hj => ?_, fun j hj => ?_, fun h0 => ?_, fun j hj => ?_, ?_,
    ended.cfg.trans hu.only.cfg, ended.tab.trans hu.only.tab, ended.buf.trans hu.only.buf, ended.params.trans hu.only.params,
    hissued.pdir_abort, fun q hq hd => ?_, fun q hq => ?_, ?_, ?_⟩
  · rw [ended.sq]
    exact congrArg (fun sq : Sequencer => { sq with lc := .aborted, stopReason := .transportFailure }) hsq
  · rw [hdp, ← hu.dp.bitcnt]
    exact hu.dp.others
  · rw [hdp]
    exact hu.dp.sr_read hj
  · rw [hdp]
    exact hu.dp.sr_above hj
  · rw [hdp, hu.dp.bit, if_pos h0]
    rfl
  · rw [hdp]
    exact hu.dp.bit_last hj
  · rw [ended.fl]
    exact congrArg (fun fl : Flags => { fl with claimed := false }) hfl
  · exact (hlevels q).trans (if_pos ⟨hq, hd⟩)
  · have hstay : ¬ (q ∈ s.busPins ∧ s.pdir q ≠ none) := by
      rintro ⟨hm, hd⟩
      exact hq.elim (· hm) (hd ·.1)
    have hother : q ≠ s.csPinAt ch.toNat ∧ q ≠ s.cfg.clkPin := by
      refine hq.elim (fun hm => ⟨?_, ?_⟩) And.right
      · rintro rfl; exact hm (csPinAt_mem_busPins hch)
      · rintro rfl; exact hm ((mem_busPins s _).mpr (.inr (.inl rfl)))
    exact ((hlevels q).trans (if_neg hstay)).trans (hu.plvl q hother.1 hother.2)
  · rw [hissued.events_abort, length_frameEvents]
    rfl
  · rw [hissued.io_abort, length_frameEvents]
    rfl

end Sys2Proof.Machine

/-! How a bus command given in Idle can end (spec/40_transport.md rule R115, spec/60_exceptions.md rules R212, R214): a
failed transaction is recorded exactly when the operation raises. -/

namespace Sys2Proof.Machine

/-! ### Failed transactions in the history -/

/-- Some event of the list is a pin transaction that failed (rule R115). -/
def HasFailure (l : List Event) : Prop := ∃ op p, Event.pin op p .fail ∈ l

/-- `t` adds events to `s`, none of them a failed transaction. -/
def Clean (s t : State) : Prop := ∃ l, t.history = l ++ s.history ∧ ¬ HasFailure l

/-- `t` adds events to `s`, some of them a failed transaction. -/
def Marred (s t : State) : Prop := ∃ l, t.history = l ++ s.history ∧ HasFailure l

theorem hasFailure_append (l m : List Event) : HasFailure (l ++ m) ↔ HasFailure l ∨ HasFailure m := by
  simp only [HasFailure, List.mem_append, exists_or]

section History
variable {s t u : State}

theorem Clean.of_history_eq (h : t.history = s.history) : Clean s t := ⟨[], h, by simp [HasFailure]⟩

theorem Clean.trans (h : Clean s t) (k : Clean t u) : Clean s u := by
  obtain ⟨l, hl, nl⟩ := h
  obtain ⟨m, hm, nm⟩ := k
  exact ⟨m ++ l, by rw [hm, hl, List.append_assoc], by rw [hasFailure_append]; exact not_or.mpr ⟨nm, nl⟩⟩

theorem Clean.trans_marred (h : Clean s t) (k : Marred t u) : Marred s u := by
  obtain ⟨l, hl, -⟩ := h
  obtain ⟨m, hm, fm⟩ := k
  exact ⟨m ++ l, by rw [hm, hl, List.append_assoc], (hasFailure_append m l).mpr (.inl fm)⟩

theorem Marred.trans_grows (h : Marred s t) (k : Grows t u) : Marred s u := by
  obtain ⟨l, hl, fl⟩ := h
  obtain ⟨m, hm⟩ := k
  exact ⟨m ++ l, by rw [hm, hl, List.append_assoc], (hasFailure_append m l).mpr (.inr fl)⟩

theorem clean_of_event {e : Event} (he : ∀ op p, e ≠ .pin op p .fail) (h : t.history = e :: s.history) : Clean s t := by
  refine ⟨[e], h, ?_⟩
  rintro ⟨op, p, hm⟩
  exact he op p (List.mem_singleton.mp hm).symm

theorem marred_drawn_emit (op : PinOp) (p : PinId) (s : State) : Marred s (s.drawn.emit (.pin op p .fail)) :=
  ⟨[.pin op p .fail], rfl, op, p, List.mem_singleton_self _⟩

end History

/-! ### Operations that raise exactly when a transaction failed -/

/-- No transaction failed if the operation runs to its end, and one did if it raises. -/
def Flow.Marks {α : Type} (s : State) (m : Flow α) : Prop := m.Post (fun _ t => Clean s t) (fun _ t => Marred s t)

theorem Flow.Marks.andThen {α β : Type} {s : State} {m : Flow α} {k : α → State → Flow β} (hm : m.Marks s)
    (hk : ∀ a t, (k a t).Marks t) : (m.andThen k).Marks s :=
  Flow.Post.andThen hm fun a t h => (hk a t).mono (fun _ _ k => h.trans k) fun _ _ k => h.trans_marred k

/-- Assignments after the last transaction emit nothing. -/
theorem Flow.Marks.andThen_assign {α : Type} {s : State} {m : Flow α} (hm : m.Marks s) {f : α → State → State}
    (hf : ∀ a t, (f a t).history = t.history) : (m.andThen fun a t => Flow.done () (f a t)).Marks s :=
  hm.andThen fun a t => Clean.of_history_eq (hf a t)

theorem marks_pinSetDir (p : PinId) (d : Dir) (s : State) : (pinSetDir p d s).Marks s := by
  rw [pinSetDir_eq]
  split
  · exact clean_of_event (e := .pin (.setDir d) p .ok) nofun rfl
  · exact marred_drawn_emit _ p s

theorem marks_pinWrite (p : PinId) (l : Level) (s : State) : (pinWrite p l s).Marks s := by
  rw [pinWrite_eq]
  split
  · exact clean_of_event (e := .pin (.write l) p .ok) nofun rfl
  · exact marred_drawn_emit _ p s

theorem marks_pinRead (p : PinId) (s : State) : (pinRead p s).Marks s := by
  rw [pinRead_eq]
  split
  · exact clean_of_event (e := .pin .read p (.okBit s.nextAnswer.level)) nofun rfl
  · exact marred_drawn_emit _ p s

theorem marks_sampleBit (s : State) : (sampleBit s).Marks s := (marks_pinRead _ s).andThen_assign fun _ _ => rfl

theorem marks_clockPulses (n : Nat) (s : State) : (clockPulses n s).Marks s := by
  induction n generalizing s with
  | zero => exact Clean.of_history_eq rfl
  | succ n ih =>
    have pulse : (clockPulse s).Marks s := (marks_pinWrite _ _ s).andThen fun _ t =>
      (marks_sampleBit t).andThen fun _ u => marks_pinWrite _ _ u
    exact pulse.andThen fun _ t => ih t

theorem marks_readFrame (ch : Nat) (s : State) : (readFrame ch s).Marks s := by
  have body := (marks_pinWrite (s.csPinAt ch) .low (frameHead ch s)).andThen fun _ t =>
    (marks_clockPulses 32 t).andThen fun _ u => (marks_pinWrite (u.csPinAt ch) .high u).andThen_assign
      (f := fun _ v => latchFrame v) fun _ _ => rfl
  exact body

theorem marks_getRj (ch : Nat) (s : State) : (getRj ch s).Marks s :=
  (marks_readFrame ch s).andThen_assign fun _ _ => rfl

theorem history_finishTc (s : State) : (finishTc s).history = s.history := by
  by_cases h : classifyFrame s.dp.frame = .none
  · rw [finishTc_reading s h]
  · rw [finishTc_fault s h]

theorem marks_getTc (ch : Nat) (s : State) : (getTc ch s).Marks s :=
  (marks_readFrame ch s).andThen_assign fun _ => history_finishTc

theorem marks_channelBody {body : Nat → State → Flow Unit} (hb : body ∈ channelBodies) (ch : Nat) (s : State) :
    (body ch s).Marks s := by
  simp only [channelBodies, List.mem_cons, List.not_mem_nil, or_false] at hb
  rcases hb with rfl | rfl | rfl | rfl
  · exact marks_readFrame ch s
  · exact marks_getRj ch s
  · exact marks_getTc ch s
  · exact (marks_getRj ch s).andThen fun _ t => marks_getTc ch t

theorem marks_claimSelects (ps : List PinId) (s : State) : (claimSelects ps s).Marks s := by
  induction ps generalizing s with
  | nil => exact Clean.of_history_eq rfl
  | cons p ps ih => exact (marks_pinSetDir p _ s).andThen fun _ t => (marks_pinWrite p _ t).andThen fun _ u => ih u

theorem marks_claimPins (s : State) : (claimPins s).Marks s :=
  (marks_claimSelects _ s).andThen fun _ t => (marks_pinSetDir _ _ t).andThen fun _ u =>
    (marks_pinWrite _ _ u).andThen fun _ v => (marks_pinSetDir _ _ v).andThen_assign fun _ _ => rfl

/-! ### The two ends of a command given in Idle -/

/-- A transaction failed, and the session is aborted and the pins released (rules R115, R214). -/
structure AbortedFrom (s t : State) : Prop where
  lc : t.sq.lc = .aborted
  stopReason : t.sq.stopReason = .transportFailure
  phase : t.sq.phase = s.sq.phase
  claimed : t.fl.claimed = false
  released : ∀ p, p ∈ s.busPins → t.pdir p = none
  marred : Marred s t

/-- No transaction failed, and the session is still idle, or `runs` and it was started (rules R180, R198). -/
structure CompletedFrom (runs : Prop) (s t : State) : Prop where
  stopReason : t.sq.stopReason = s.sq.stopReason
  lc : t.sq.lc = .idle ∨ runs ∧ t.sq.lc = .running ∧ t.sq.phase = 0
  clean : Clean s t

section Ends
variable {s t : State} {runs : Prop}

/-- A command's answer in ERR alone, and what else leaves LC, PHASE and the history as they were. -/
theorem CompletedFrom.of_eq (hi : s.sq.lc = .idle) (hsq : t.sq = s.sq) (hh : t.history = s.history) :
    CompletedFrom runs s t :=
  ⟨by rw [hsq], .inl (by rw [hsq]; exact hi), .of_history_eq hh⟩

/-- Only START can leave the session running. -/
theorem CompletedFrom.of_notRunning (h : CompletedFrom False s t) : CompletedFrom runs s t :=
  ⟨h.stopReason, h.lc.imp_right fun k => k.1.elim, h.clean⟩

theorem completedFrom_enterRunning (h : CompletedFrom False s t) : CompletedFrom True s (enterRunning t) :=
  ⟨h.stopReason, .inr ⟨trivial, rfl, rfl⟩, h.clean.trans (.of_history_eq rfl)⟩

/-- `t` has the configuration and the sequencer of `s`, but for CH. -/
def SameSession (s t : State) : Prop := t.cfg = s.cfg ∧ t.sq = { s.sq with ch := t.sq.ch }

theorem abortedFrom_abort (h : SameSession s t) (hm : Marred s t) : AbortedFrom s (abort .transportFailure t) := by
  obtain ⟨hcfg, hsq⟩ := h
  have e := abort_spec .transportFailure t
  have grows : Grows t (abort .transportFailure t) := (steady_endSession _ _ t).grows
  refine ⟨by rw [e.sq], by rw [e.sq]; rfl, by rw [e.sq, hsq], by rw [e.fl], fun p hp => ?_, hm.trans_grows grows⟩
  rw [e.pdir, busPins_of_cfg hcfg, if_pos hp]

/-- The operation ends a command given in `s`: completed, or raised where the abort has its work to do. -/
def Flow.Ends (runs : Prop) (s : State) (m : Flow Unit) : Prop :=
  m.Post (fun _ t => CompletedFrom runs s t) (fun x t => x = .transportFailure ∧ SameSession s t ∧ Marred s t)

theorem Flow.Ends.settle {m : Flow Unit} (h : m.Ends runs s) :
    AbortedFrom s m.settle ∨ CompletedFrom runs s m.settle := by
  cases m with
  | done a t => exact .inr h
  | raised x t =>
    obtain ⟨rfl, hs, hm⟩ := h
    exact .inl (abortedFrom_abort hs hm)

/-- An operation that marks its failures and keeps the session ends the command accepted in Idle that runs it. -/
theorem Flow.Marks.ends {m : Flow Unit} (hm : m.Marks (accept s)) (hk : m.Keeps SameSession (accept s))
    (hi : s.sq.lc = .idle) : m.Ends False s := by
  refine (Flow.Post.and hm hk).mono ?_ ?_
  · rintro _ t ⟨hclean, -, hsq⟩
    exact ⟨by rw [hsq]; rfl, .inl (by rw [hsq]; exact hi), hclean⟩
  · rintro _ t ⟨hmarred, rfl, hsame⟩
    exact ⟨rfl, hsame, hmarred⟩

theorem ends_channelBody {body : Nat → State → Flow Unit} (hb : body ∈ channelBodies) (ch : Nat)
    (hi : s.sq.lc = .idle) : (body ch (accept s)).Ends False s :=
  (marks_channelBody hb ch _).ends
    ((acquires_channelBody hb ch _).mono (fun _ _ h => ⟨h.cfg, h.sq⟩) fun _ _ h => ⟨h.1, h.2.cfg, h.2.sq⟩) hi

theorem OnlyPins.sameSession (h : OnlyPins s t) : SameSession s t := ⟨h.cfg, by rw [h.sq]⟩

theorem ends_claimPins (hi : s.sq.lc = .idle) : (claimPins (accept s)).Ends False s := by
  refine (marks_claimPins _).ends ((claimPins_spec _).mono ?_ fun _ _ h => ⟨h.1, h.2.sameSession⟩) hi
  rintro _ _ ⟨u, hu, rfl⟩
  exact hu.sameSession

/-! ### The commands -/

theorem ends_channelCommand {body : Nat → State → Flow Unit} (hb : body ∈ channelBodies) (ch : BitVec 8)
    (hi : s.sq.lc = .idle) :
    AbortedFrom s (channelCommand ch body s) ∨ CompletedFrom runs s (channelCommand ch body s) := by
  rw [channelCommand, inIdle_idle hi]
  split
  · exact .inr (.of_eq hi rfl rfl)
  · split
    · exact .inr (.of_eq hi rfl rfl)
    · exact (ends_channelBody hb ch.toNat hi).settle.imp_right .of_notRunning

theorem ends_claimCommand (hi : s.sq.lc = .idle) :
    AbortedFrom s (claimCommand s) ∨ CompletedFrom runs s (claimCommand s) := by
  rw [claimCommand, inIdle_idle hi]
  split
  · exact .inr (.of_eq hi rfl rfl)
  · split
    · exact (ends_claimPins hi).settle.imp_right .of_notRunning
    · exact .inr (.of_eq hi rfl rfl)

theorem ends_startCommand (hi : s.sq.lc = .idle) :
    AbortedFrom s (startCommand s) ∨ CompletedFrom True s (startCommand s) := by
  have accepted : CompletedFrom False s (accept s) := .of_eq hi rfl rfl
  rw [startCommand, inIdle_idle hi]
  split
  · exact .inr (.of_eq hi rfl rfl)
  · split
    · exact .inr (completedFrom_enterRunning accepted)
    · split
      · exact Flow.Ends.settle ((ends_claimPins hi).andThen fun _ _ h => completedFrom_enterRunning h)
      · exact .inr (.of_eq hi rfl rfl)

end Ends

/-- A command that drives the bus, given in Idle, ends in one of the two ways. -/
theorem exec_busCommand_ends {i : Instr} {ch : BitVec 8} {s t : State}
    (hi : i ∈ [.claim, .start, .rdframe ch, .getrj ch, .get ch, .rdreading ch]) (hidle : s.sq.lc = .idle)
    (h : exec i s = .next t) : AbortedFrom s t ∨ CompletedFrom (i = .start) s t := by
  rcases List.mem_cons.mp hi with rfl | hi
  · cases h
    exact ends_claimCommand hidle
  rcases List.mem_cons.mp hi with rfl | hi
  · cases h
    simpa using ends_startCommand hidle
  · obtain ⟨body, hb, hexec⟩ := exec_channelCommand hi
    rw [hexec] at h
    cases h
    exact ends_channelCommand hb ch hidle

/-- What a command that drives the bus never writes (rules R33, R34, R47 to R50, R55). -/
theorem exec_busCommand_steady {i : Instr} {ch : BitVec 8} {s t : State}
    (hi : i ∈ [.claim, .start, .rdframe ch, .getrj ch, .get ch, .rdreading ch]) (h : exec i s = .next t) :
    Steady s t := by
  have hcmd : isCommand i = true ∧ i ≠ .intr := by
    simp only [List.mem_cons, List.not_mem_nil, or_false] at hi
    rcases hi with rfl | rfl | rfl | rfl | rfl | rfl <;> exact ⟨rfl, nofun⟩
  rcases exec_command hcmd.1 h with ⟨hintr, -⟩ | effect
  · exact absurd hintr hcmd.2
  · exact effect.steady

theorem hasFailure_reverse (l : List Event) : HasFailure l.reverse ↔ HasFailure l := by
  simp only [HasFailure, List.mem_reverse]

theorem events_of_history {s t : State} {l : List Event} (h : t.history = l ++ s.history) :
    t.events = s.events ++ l.reverse := by
  rw [State.events, h, List.reverse_append, State.events]

/-- Settles O28: the two ends of the command exclude each other by LC, and the history tells them apart. -/
theorem idleCommandOutcomes : Obligations.IdleCommandOutcomes := by
  intro i ch s t hi hidle h
  have keep := exec_busCommand_steady hi h
  refine ⟨keep.cfg, keep.tab, keep.buf, keep.tick, keep.halt, keep.intPending, keep.params, ?_⟩
  rcases exec_busCommand_ends hi hidle h with e | e
  · obtain ⟨l, hl, hfail⟩ := e.marred
    exact ⟨l.reverse, events_of_history hl, iff_of_true e.lc ((hasFailure_reverse l).mpr hfail),
      fun _ => ⟨e.stopReason, e.phase, e.claimed, e.released⟩, fun hn => absurd e.lc hn⟩
  · obtain ⟨l, hl, hnone⟩ := e.clean
    have hlc : t.sq.lc ≠ .aborted := by rcases e.lc with h | ⟨-, h, -⟩ <;> simp [h]
    exact ⟨l.reverse, events_of_history hl, iff_of_false hlc (mt (hasFailure_reverse l).mp hnone),
      fun ha => absurd ha hlc, fun _ => ⟨e.stopReason, e.lc⟩⟩

end Sys2Proof.Machine

/-! The decoder and the channel's conversions (spec/41_decoder.md rules R130 to R135, spec/44_channel.md rules R155,
R156): the sign-and-magnitude reading of a field is its two's complement value, and no conversion overflows VAL. -/

namespace Sys2Proof.Machine

/-! ### The fields of a frame as signed numbers (rules R130 to R132) -/

/-- The pseudocode of rules R130 and R131 for a field of `w + 1` bits, with the masks of its top bit and of the bits
below: where the top bit is set, the magnitude counts down from -1. -/
theorem signMagnitude_eq_toInt {w : Nat} {sign low : BitVec (w + 1)} (hsign : sign = BitVec.twoPow (w + 1) w)
    (hlow : low.toNat = 2 ^ w - 1) (x : BitVec (w + 1)) :
    (if x &&& sign ≠ 0 then -((~~~x &&& low).toNat + 1 : Int) else (x &&& low).toNat) = x.toInt := by
  have hpow : 2 ^ (w + 1) = 2 * 2 ^ w := Nat.pow_succ'
  have hx : x.toNat < 2 * 2 ^ w := hpow ▸ x.isLt
  have mask : ∀ y : BitVec (w + 1), (y &&& low).toNat = y.toNat % 2 ^ w := fun y => by
    rw [BitVec.toNat_and, hlow, Nat.and_two_pow_sub_one_eq_mod]
  have top : x &&& sign ≠ 0 ↔ 2 ^ w ≤ x.toNat := by
    have hbit : x.getLsbD w = decide (2 ^ w ≤ x.toNat) := x.getLsbD_last
    rw [hsign, BitVec.and_twoPow, hbit]
    by_cases h : 2 ^ w ≤ x.toNat <;> simp [h]
  rw [mask, mask, BitVec.toNat_not, BitVec.toInt_eq_toNat_cond]
  by_cases h : 2 ^ w ≤ x.toNat
  · have below : (2 ^ (w + 1) - 1 - x.toNat) % 2 ^ w = 2 ^ (w + 1) - 1 - x.toNat := Nat.mod_eq_of_lt (by omega)
    rw [if_pos (top.mpr h), below, if_neg (by omega)]
    omega
  · rw [if_neg (mt top.mp h), Nat.mod_eq_of_lt (Nat.not_le.mp h), if_pos (by omega)]

theorem tcQuantity_eq_toInt (F : Word32) : tcQuantity F = (tcFieldOf F).toInt :=
  signMagnitude_eq_toInt (by decide) rfl (tcFieldOf F)

theorem rjQuantity_eq_toInt (F : Word32) : rjQuantity F = (rjFieldOf F).toInt :=
  signMagnitude_eq_toInt (by decide) rfl (rjFieldOf F)

/-- The quantity is exact in TCQ (rule R130). -/
theorem ofInt_tcQuantity (F : Word32) : BitVec.ofInt 14 (tcQuantity F) = tcFieldOf F := by
  rw [tcQuantity_eq_toInt, BitVec.ofInt_toInt]

/-- The quantity is exact in RJQ (rule R131). -/
theorem ofInt_rjQuantity (F : Word32) : BitVec.ofInt 12 (rjQuantity F) = rjFieldOf F := by
  rw [rjQuantity_eq_toInt, BitVec.ofInt_toInt]

theorem tcField_eq (s : State) : tcField s = { s with dp.tcq := tcFieldOf s.dp.frame } := by
  rw [tcField, ofInt_tcQuantity]

theorem rjField_eq (s : State) : rjField s = { s with dp.rjq := rjFieldOf s.dp.frame } := by
  rw [rjField, ofInt_rjQuantity]

/-- Settles O33: what each command writes, and the value of each field. -/
theorem fieldsAreTwosComplement : Obligations.FieldsAreTwosComplement := by
  intro s hi
  refine ⟨?_, ?_, tcQuantity_eq_toInt s.dp.frame, rjQuantity_eq_toInt s.dp.frame⟩
  · calc exec .tcfield s
        = .next (inIdle s fun s => tcField (accept s)) := rfl
      _ = .next { s with dp.tcq := s.dp.frame.extractLsb' 18 14, fl.err := .none } := by
          rw [inIdle_idle hi, tcField_eq]
          rfl
  · calc exec .rjfield s
        = .next (inIdle s fun s => rjField (accept s)) := rfl
      _ = .next { s with dp.rjq := s.dp.frame.extractLsb' 4 12, fl.err := .none } := by
          rw [inIdle_idle hi, rjField_eq]
          rfl

/-! ### The round trip of rule R135 -/

theorem toInt_ofNat_magnitude {m : Nat} (hm : m ≤ 0x7FF) : (BitVec.ofNat 12 m).toInt = m := by
  rw [BitVec.toInt_eq_toNat_cond, BitVec.toNat_ofNat]
  omega

theorem toInt_ofNat_negated {m : Nat} (hpos : 1 ≤ m) (hm : m ≤ 0x7FF) :
    (BitVec.ofNat 12 (0x1000 - m)).toInt = -m := by
  rw [BitVec.toInt_eq_toNat_cond, BitVec.toNat_ofNat]
  omega

/-- Settles O34: the quantity depends on the field alone, and is its two's complement value. -/
theorem referenceJunctionRoundTrip : Obligations.ReferenceJunctionRoundTrip := by
  intro F m hm
  rw [rjQuantity_eq_toInt]
  exact ⟨fun hF => hF ▸ toInt_ofNat_magnitude hm, fun hpos hF => hF ▸ toInt_ofNat_negated hpos hm⟩

/-! ### The converter does not overflow (rule R145) -/

/-- VAL holds the scaled integer of every quantity of 14 bits, the wider of the two paths. -/
theorem toInt_ofInt_convert (src : Path) (unit : TempUnit) {q : Int} (hlo : -2 ^ 13 ≤ q) (hhi : q < 2 ^ 13) :
    (BitVec.ofInt 18 (convert src unit q)).toInt = convert src unit q := by
  obtain ⟨above, below⟩ : -2 ^ 17 ≤ convert src unit q ∧ convert src unit q < 2 ^ 17 := by
    cases src <;> cases unit <;> simp only [convert] <;> omega
  exact BitVec.toInt_ofInt_eq_self (by decide) above below

theorem toInt_convert_tcField (unit : TempUnit) (F : Word32) :
    (BitVec.ofInt 18 (convert .tc unit (tcFieldOf F).toInt)).toInt = convert .tc unit (tcFieldOf F).toInt :=
  toInt_ofInt_convert _ _ (BitVec.le_toInt (tcFieldOf F)) BitVec.toInt_lt

theorem toInt_convert_rjField (unit : TempUnit) (F : Word32) :
    (BitVec.ofInt 18 (convert .rj unit (rjFieldOf F).toInt)).toInt = convert .rj unit (rjFieldOf F).toInt := by
  have hlo := BitVec.le_toInt (rjFieldOf F)
  have hhi := BitVec.toInt_lt (x := rjFieldOf F)
  exact toInt_ofInt_convert _ _ (by omega) (by omega)

/-! ### One frame read of a channel and what follows it (rules R155, R156) -/

section Answered
variable {ch : BitVec 8} {s : State} {F : Word32}

/-- An accepted channel command that reads one frame, answered with the bits of `F`, and then computes from it. -/
theorem channelCommand_answered (finish : State → State) (hi : s.sq.lc = .idle) (hc : s.fl.claimed = true)
    (hn : ch.toNat < s.cfg.nch.toNat) (hF : s.answersFrame 0 F) :
    channelCommand ch (fun c t => (readFrame c t).andThen fun _ u => .done () (finish u)) s =
      finish ((accept s).frameRead ch.toNat F) := by
  have hF' : (accept s).answersFrame 0 F := hF
  rw [channelCommand_accepted hi hc hn, readFrame_answered _ _ _ hF', Flow.andThen_done, Flow.settle_done]

theorem exec_getrj_answered (hi : s.sq.lc = .idle) (hc : s.fl.claimed = true) (hn : ch.toNat < s.cfg.nch.toNat)
    (hF : s.answersFrame 0 F) : exec (.getrj ch) s = .next (finishRj ((accept s).frameRead ch.toNat F)) :=
  congrArg _ (channelCommand_answered finishRj hi hc hn hF)

theorem exec_get_answered (hi : s.sq.lc = .idle) (hc : s.fl.claimed = true) (hn : ch.toNat < s.cfg.nch.toNat)
    (hF : s.answersFrame 0 F) : exec (.get ch) s = .next (finishTc ((accept s).frameRead ch.toNat F)) :=
  congrArg _ (channelCommand_answered finishTc hi hc hn hF)

end Answered

/-- Settles O29, with the converted quantity of the frame's field. -/
theorem getrjReadsReferenceJunction : Obligations.GetrjReadsReferenceJunction := by
  intro ch s F hi hc hn hF
  refine ⟨_, toInt_convert_rjField s.cfg.unit F, ?_⟩
  have frame : ((accept s).frameRead ch.toNat F).dp.frame = F := rfl
  rw [exec_getrj_answered hi hc hn hF, finishRj_eq, frame, ofInt_rjQuantity]
  rfl

/-- Settles O30: GET's two branches are the classifier's answer, which is None exactly when bit 16 is clear. -/
theorem getReadsThermocouple : Obligations.GetReadsThermocouple := by
  intro ch s F hi hc hn hF
  have frame : ((accept s).frameRead ch.toNat F).dp.frame = F := rfl
  have hnone : classifyFrame ((accept s).frameRead ch.toNat F).dp.frame = .none ↔ F.getLsbD 16 = false :=
    classifyFrame_eq_none F
  rw [exec_get_answered hi hc hn hF]
  refine ⟨fun hclear => ⟨_, toInt_convert_tcField s.cfg.unit F, ?_⟩, fun hset => ?_⟩
  · rw [finishTc_reading _ (hnone.mpr hclear), frame, ofInt_tcQuantity]
    rfl
  · rw [finishTc_fault _ (mt hnone.mp (by simp [hset])), frame]
    rfl

end Sys2Proof.Machine

/-! The fault classifier (spec/42_fault_classifier.md rules R140 to R143): one lemma per row of rule R141's table, and
what the command writes. -/

namespace Sys2Proof.Machine

/-! ### The rows of rule R141's table with the fault flag set, in the priority order of rule R142

The row of the clear flag is `classifyFrame_eq_none`. -/

section Rows
variable {F : Word32}

theorem classifyFrame_openCircuit (fault : F.getLsbD 16 = true) (oc : F.getLsbD 0 = true) :
    classifyFrame F = .openCircuit := by
  simp only [classifyFrame, fault, oc, reduceCtorEq, if_false, if_true]

theorem classifyFrame_shortToGround (fault : F.getLsbD 16 = true) (oc : F.getLsbD 0 = false)
    (scg : F.getLsbD 1 = true) : classifyFrame F = .shortToGround := by
  simp only [classifyFrame, fault, oc, scg, reduceCtorEq, if_false, if_true]

theorem classifyFrame_shortToVcc (fault : F.getLsbD 16 = true) (oc : F.getLsbD 0 = false)
    (scg : F.getLsbD 1 = false) (scv : F.getLsbD 2 = true) : classifyFrame F = .shortToVcc := by
  simp only [classifyFrame, fault, oc, scg, scv, reduceCtorEq, if_false, if_true]

theorem classifyFrame_unknown (fault : F.getLsbD 16 = true) (oc : F.getLsbD 0 = false)
    (scg : F.getLsbD 1 = false) (scv : F.getLsbD 2 = false) : classifyFrame F = .unknown := by
  simp only [classifyFrame, fault, oc, scg, scv, reduceCtorEq, if_false]

end Rows

/-- CLASSIFY in Idle writes FS and ERR and nothing else (rule R143). -/
theorem exec_classify_idle {s : State} (hi : s.sq.lc = .idle) :
    exec .classify s = .next { s with dp.fs := classifyFrame s.dp.frame, fl.err := .none } :=
  calc exec .classify s
      = .next (inIdle s fun s => classify (accept s)) := rfl
    _ = .next { s with dp.fs := classifyFrame s.dp.frame, fl.err := .none } := by
        rw [inIdle_idle hi]
        rfl

/-- Settles O35: the status CLASSIFY writes is the classifier's answer for FRAME, given by the row FRAME stands in. -/
theorem classifyTruthTable : Obligations.ClassifyTruthTable := fun s hi =>
  ⟨classifyFrame s.dp.frame, exec_classify_idle hi, (classifyFrame_eq_none s.dp.frame).mpr, classifyFrame_openCircuit,
    classifyFrame_shortToGround, classifyFrame_shortToVcc, classifyFrame_unknown⟩

end Sys2Proof.Machine

/-! The unit converter (spec/43_unit_converter.md rules R145, R148): what TOUNIT writes in Idle, VAL exactly. -/

namespace Sys2Proof.Machine

/-- TCQ and RJQ both count within 14 bits, RJQ within 12 of them. -/
theorem pathQuantity_bounds (src : Path) (s : State) :
    -2 ^ 13 ≤ pathQuantity src s ∧ pathQuantity src s < 2 ^ 13 := by
  cases src with
  | tc => exact ⟨BitVec.le_toInt s.dp.tcq, BitVec.toInt_lt⟩
  | rj =>
    have hlo : -2 ^ 11 ≤ pathQuantity .rj s := BitVec.le_toInt s.dp.rjq
    have hhi : pathQuantity .rj s < 2 ^ 11 := BitVec.toInt_lt
    omega

/-- VAL holds the scaled integer of either path's quantity, in every unit (rule R145). -/
theorem toInt_convert_pathQuantity (src : Path) (u : TempUnit) (s : State) :
    (BitVec.ofInt 18 (convert src u (pathQuantity src s))).toInt = convert src u (pathQuantity src s) := by
  obtain ⟨hlo, hhi⟩ := pathQuantity_bounds src s
  exact toInt_ofInt_convert src u hlo hhi

/-- The code of a unit stands for that unit (rule R40). -/
theorem tempUnit_ofCode_code (u : TempUnit) : TempUnit.ofCode u.code = some u := by cases u <;> rfl

section Idle
variable {s : State} (src : Path) (u : TempUnit)

/-- TOUNIT in Idle with the code of a unit is the conversion, accepted (rules R145, R198). -/
theorem exec_tounit_idle (hi : s.sq.lc = .idle) :
    exec (.tounit src u.code) s = .next (toUnit src u (accept s)) := by
  have hexec : exec (.tounit src u.code) s = execTounit src u.code s := rfl
  rw [hexec, execTounit, tempUnit_ofCode_code]
  exact congrArg _ (inIdle_idle hi _)

theorem tounit_writes_exact_value (hi : s.sq.lc = .idle) :
    ∃ v : BitVec 18, v.toInt = convert src u (pathQuantity src s) ∧
      exec (.tounit src u.code) s =
        .next { s with dp.val := v, dp.vscale := src, dp.vunit := u, fl.err := .none } :=
  ⟨_, toInt_convert_pathQuantity src u s, exec_tounit_idle src u hi⟩

end Idle

/-- Settles O36: each row of the list is the converter's formula for its path and the unit its code stands for. -/
theorem tounitConvertsExactly : Obligations.TounitConvertsExactly := by
  intro s hi
  simp only [List.forall_mem_cons]
  exact ⟨tounit_writes_exact_value .tc .celsius hi, tounit_writes_exact_value .tc .kelvin hi,
    tounit_writes_exact_value .tc .fahrenheit hi, tounit_writes_exact_value .rj .celsius hi,
    tounit_writes_exact_value .rj .kelvin hi, tounit_writes_exact_value .rj .fahrenheit hi, List.forall_mem_nil _⟩

end Sys2Proof.Machine

/-! RDREADING (spec/44_channel.md rules R155 to R158): the state its two frame reads leave, and what is read in it. -/

namespace Sys2Proof.Machine

/-! ### What a completed frame read leaves, and two of them in a row (rule R118) -/

section FrameRead
variable (ch : Nat) (F G : Word32) (s : State)

@[simp] theorem cfg_frameRead : (s.frameRead ch F).cfg = s.cfg := rfl

@[simp] theorem csPinAt_frameRead (i : Nat) : (s.frameRead ch F).csPinAt i = s.csPinAt i := rfl

theorem io_frameRead : (s.frameRead ch F).io = (s.drawnBy 98).io := rfl

theorem plvl_frameRead (p : PinId) :
    (s.frameRead ch F).plvl p = if p = s.csPinAt ch ∨ p = s.cfg.clkPin then some .high else s.plvl p := by
  have writes : (s.frameRead ch F).plvl p =
      ((s.setPlvl s.cfg.clkPin (some .high)).setPlvl (s.csPinAt ch) (some .high)).plvl p := rfl
  rw [writes, plvl_setPlvl, plvl_setPlvl, ite_or]

theorem events_frameRead :
    (s.frameRead ch F).events = s.events ++ frameTrace (s.csPinAt ch) s.cfg.clkPin s.cfg.dataPin F := by
  rw [events_of_history (s := s) (t := s.frameRead ch F) rfl, List.reverse_reverse]

theorem io_frameRead_frameRead : ((s.frameRead ch F).frameRead ch G).io = (s.drawnBy 196).io := by
  simp [io_frameRead, State.drawnBy, Nat.add_assoc]

theorem plvl_frameRead_frameRead (p : PinId) :
    ((s.frameRead ch F).frameRead ch G).plvl p =
      if p = s.csPinAt ch ∨ p = s.cfg.clkPin then some .high else s.plvl p := by
  rw [plvl_frameRead, plvl_frameRead, csPinAt_frameRead, cfg_frameRead]
  split_ifs <;> rfl

theorem events_frameRead_frameRead :
    ((s.frameRead ch F).frameRead ch G).events =
      s.events ++ frameTrace (s.csPinAt ch) s.cfg.clkPin s.cfg.dataPin F
        ++ frameTrace (s.csPinAt ch) s.cfg.clkPin s.cfg.dataPin G := by
  rw [events_frameRead, events_frameRead, csPinAt_frameRead, cfg_frameRead]

end FrameRead

/-! ### The datapath of the two acquisitions -/

/-- The entry GET makes of a frame, by the frame's fault flag (rules R140, R156). -/
theorem tcEntryOf_eq (u : TempUnit) (F : Word32) :
    tcEntryOf u F = if F.getLsbD 16 then entryFault (classifyFrame F)
      else entryReading u .tc (BitVec.ofInt 18 (convert .tc u (tcFieldOf F).toInt)) := by
  have none_iff := classifyFrame_eq_none F
  cases fault : F.getLsbD 16 with
  | false => rw [tcEntryOf, if_pos (none_iff.mpr fault), if_neg Bool.false_ne_true]
  | true => rw [tcEntryOf, if_neg (mt none_iff.mp (by simp [fault])), if_pos rfl]

/-- What the thermocouple result of a frame is, with and without a fault (rule R156). -/
theorem finishTc_eq (s : State) :
    finishTc s = { s with
      dp := { s.dp with
        fs := classifyFrame s.dp.frame
        tcq := if s.dp.frame.getLsbD 16 then s.dp.tcq else tcFieldOf s.dp.frame
        val := if s.dp.frame.getLsbD 16 then s.dp.val
          else BitVec.ofInt 18 (convert .tc s.cfg.unit (tcFieldOf s.dp.frame).toInt)
        vscale := if s.dp.frame.getLsbD 16 then s.dp.vscale else .tc
        vunit := if s.dp.frame.getLsbD 16 then s.dp.vunit else s.cfg.unit
        res := tcEntryOf s.cfg.unit s.dp.frame } } := by
  have none_iff := classifyFrame_eq_none s.dp.frame
  cases fault : s.dp.frame.getLsbD 16 with
  | false =>
    have hnone : classifyFrame s.dp.frame = .none := none_iff.mpr fault
    simp [finishTc_reading s hnone, ofInt_tcQuantity, tcEntryOf, hnone]
  | true =>
    have hsome : classifyFrame s.dp.frame ≠ .none := mt none_iff.mp (by simp [fault])
    simp [finishTc_fault s hsome, tcEntryOf, hsome]

/-- The conversions after the frames `F` and `G`: GETRJ's results from `F` stay in the registers GET does not write from
`G` (rules R155 to R157). -/
theorem finishTc_finishRj_frameRead (ch : Nat) (F G : Word32) (s : State) :
    finishTc ((finishRj (s.frameRead ch F)).frameRead ch G) =
      { (s.frameRead ch F).frameRead ch G with dp := s.dp.afterReading s.cfg.unit F G } := by
  rw [finishTc_eq, finishRj_eq]
  simp [State.frameRead, State.csPinAt, Datapath.afterReading, rjEntryOf, ofInt_rjQuantity, apply_ite (BitVec.ofInt 18)]

/-- RDREADING accepted and answered with the bits of `F`, then of `G` (rule R157). -/
theorem exec_rdreading_answered {ch : BitVec 8} {s : State} {F G : Word32} (hi : s.sq.lc = .idle)
    (hc : s.fl.claimed = true) (hn : ch.toNat < s.cfg.nch.toNat) (hF : s.answersFrame 0 F)
    (hG : s.answersFrame 98 G) :
    exec (.rdreading ch) s = .next
      { ((accept s).frameRead ch.toNat F).frameRead ch.toNat G with dp := s.dp.afterReading s.cfg.unit F G } := by
  have hF' : (accept s).answersFrame 0 F := hF
  have hG' : (accept s).answersFrame 98 G := hG
  calc exec (.rdreading ch) s
      = .next (channelCommand ch readReading s) := rfl
    _ = .next (finishTc ((finishRj ((accept s).frameRead ch.toNat F)).frameRead ch.toNat G)) := by
        rw [channelCommand_accepted hi hc hn, readReading_answered _ _ _ _ hF' hG', Flow.settle_done]
    _ = _ := by
        rw [finishTc_finishRj_frameRead]
        rfl

/-- Settles O31: the datapath is the union of the two acquisitions; the rest is what two frame reads in a row leave. -/
theorem rdreadingReadsTwoFrames : Obligations.RdreadingReadsTwoFrames := by
  intro ch s F G hi hc hn hF hG
  refine ⟨_, _, _, exec_rdreading_answered hi hc hn hF hG, toInt_convert_rjField s.cfg.unit F,
    toInt_convert_tcField s.cfg.unit G, ?union, rfl, rfl, rfl, rfl, rfl, rfl, rfl,
    plvl_frameRead_frameRead ch.toNat F G (accept s), io_frameRead_frameRead ch.toNat F G (accept s),
    events_frameRead_frameRead ch.toNat F G (accept s)⟩
  simp only [Datapath.afterReading, rjEntryOf, tcEntryOf_eq, apply_ite (BitVec.ofInt 18)]
  rfl

end Sys2Proof.Machine

/-! The session's own steps (spec/45_sampler_buffer.md rules R165 to R173): that every step answers where the
sequencer's invariant holds, and how PH_APPEND with a wrong column and PH_HALT end. -/

namespace Sys2Proof.Machine

/-! ### Every step answers (rule R226) -/

theorem command_answers (w : Word32) (s : State) : ∃ t, command w s = .next t := by
  unfold command
  split
  · exact ⟨_, rfl⟩
  · split <;> exact ⟨_, rfl⟩

/-- No operation faults or is refused: misuse is answered in ERR (rule R199), a failure by the abort (rule R214). -/
theorem exec_answers (i : Instr) (s : State) : ∃ t, exec i s = .next t := by
  cases i with
  | regwr rn w =>
    show ∃ t, (if rn = 0 then command w s else configWrite rn w s) = .next t
    split
    · exact command_answers w s
    · obtain ⟨t, ht, -⟩ := configWrite_spec rn w s
      exact ⟨t, ht⟩
  | _ => exact ⟨_, rfl⟩

/-- Every PHASE but 7 names a step (rule R89). -/
theorem decodeSeq_answers : ∀ w : BitVec 3, w ≠ 7 → (decodeSeq w).isSome = true := by decide

theorem inCycle_of_committed : ∀ p : BitVec 3, committed p = true → inCycle p = true := by decide

section Answers
variable {s : State}

/-- BUF_LEN is at most one ahead of TICK, and only where the cycle has not reached MAX_TICKS (rule R171). -/
theorem SequencerInv.len_le_bufDepth (h : SequencerInv s) : s.buf.len.toNat ≤ s.params.bufDepth := by
  have hmax := h.maxTicks
  have htick := h.tick
  rw [h.length]
  split
  · rename_i hc
    obtain ⟨hr, hcommitted⟩ := hc
    have := h.cycle hr (inCycle_of_committed _ hcommitted)
    omega
  · omega

theorem SequencerInv.bugOf_eq_none (h : SequencerInv s) : bugOf s = none := by
  have hclaimed : ¬ (s.sq.lc = .running ∧ s.fl.claimed = false) := by
    rintro ⟨hr, hc⟩
    obtain ⟨hc', -⟩ := h.running hr
    simp [hc] at hc'
  exact (Machine.bugOf_eq_none s).mpr ⟨hclaimed, h.stageLen, h.len_le_bufDepth, h.tick, h.kinds, h.phase⟩

/-- The core's turn answers: at rest, by a micro-step, or by the step PHASE names. -/
theorem SequencerInv.step_coreTurn_answers (h : SequencerInv s) {fine : Bool}
    (ha : nextAction s = coreTurn fine s.popTurn) : ∃ t, step s = .next t := by
  have hb := h.bugOf_eq_none
  rcases coreTurn_cases fine s.popTurn h.port with ⟨-, hc⟩ | ⟨-, -, hc⟩ | ⟨-, -, -, hc⟩ | ⟨-, -, hc⟩ <;> rw [hc] at ha
  · exact ⟨_, step_of_rest hb ha⟩
  · exact ⟨_, step_of_micro hb ha⟩
  · exact ⟨_, step_of_micro hb ha⟩
  · obtain ⟨i, hd⟩ := Option.isSome_iff_exists.mp (decodeSeq_answers _ h.phase)
    rw [step_of_run hb ha hd]
    exact exec_answers i _

theorem SequencerInv.step_answers (h : SequencerInv s) : ∃ t, step s = .next t := by
  have hb := h.bugOf_eq_none
  have core := fun hcore =>
    have ⟨_, ha, _⟩ := nextAction_core (s := s) hcore
    h.step_coreTurn_answers ha
  match ht : s.io.turns with
  | [] => exact core (.inl ht)
  | .host w :: _ =>
    rw [step_of_run hb (nextAction_host ht) rfl]
    exact exec_answers _ _
  | .coreStep :: ts => exact core (.inr (.inl ⟨ts, ht⟩))
  | .coreMicro :: ts => exact core (.inr (.inr ⟨ts, ht⟩))
  | .reset :: ts => exact ⟨_, step_of_reset (t := s.popTurn) hb (by simp [nextAction, ht])⟩

end Answers

/-- Settles O12: the invariant excludes every condition of rule R226, so the step answers, and keeps the invariant. -/
theorem sequencerInvariantKept : Obligations.SequencerInvariantKept := by
  intro s h
  obtain ⟨t, ht⟩ := h.step_answers
  exact ⟨t, ht, sequencerInv_step h ht⟩

/-! ### PH_APPEND with a wrong column, and PH_HALT (rules R170, R173) -/

/-- The events of the entry to a terminal state, in their order (rules R190, R214). -/
theorem Ended.events {lc : LoopState} {reason : StopReason} {s t : State} (e : Ended lc reason s t) :
    t.events = s.events ++ [.stop lc reason] ++ s.releaseTrace ++ [.release s.claimedPins.length] := by
  simp [State.events, e.history]

/-- Settles O46: the assertion fails before anything is written, and the abort follows. -/
theorem phAppendContractViolation : Obligations.PhAppendContractViolation := by
  intro s h
  have e := abort_spec .contractViolation s
  have hexec : exec .phAppend s = .next (abort .contractViolation s) := by
    rw [← phAppend_settle_partial s h]
    rfl
  exact ⟨_, hexec, e.sq, e.fl, e.dp, e.cfg, e.tab, e.buf, e.params, e.pdir, e.plvl, e.events, e.io⟩

theorem events_emitTelem (s : State) : (emitTelem s).events = s.events ++ [.telem s.sq.tick s.telemItems] := by
  simp [emitTelem, State.events]

/-- Settles O51: the record, which changes nothing but the history, then the stop. -/
theorem phHaltStops : Obligations.PhHaltStops := by
  intro s
  have e := stop_spec .faultHalt (emitTelem s)
  refine ⟨_, rfl, e.sq, e.fl, e.dp, e.cfg, e.tab, e.buf, e.params, e.pdir, e.plvl, ?_, e.io⟩
  calc (stop .faultHalt (emitTelem s)).events
      = (emitTelem s).events ++ [.stop .stopped .faultHalt] ++ s.releaseTrace ++ [.release s.claimedPins.length] :=
        e.events
    _ = _ := by
        rw [events_emitTelem, List.append_assoc s.events]
        rfl

end Sys2Proof.Machine

/-! The ways a PH_SAMPLE can end (spec/45_sampler_buffer.md rules R165, R166, spec/60_exceptions.md rule R212). -/

namespace Sys2Proof.Machine

/-- Between two visits of a PH_SAMPLE begun in `s`: only what the pass may write has changed, neither PHASE nor a flag
has, and the entries of the `k` channels visited are staged. -/
structure MidPass (s : State) (k : Nat) (t : State) : Prop where
  only : OnlySample s t
  phase : t.sq.phase = s.sq.phase
  fl : t.fl = s.fl
  stageLen : t.tab.stageLen = BitVec.ofNat 6 k

/-- The end of a PH_SAMPLE that raised nothing: at PH_APPEND with the column whole, or at PH_HALT with a FaultMarker as
the last entry staged (rules R165, R166). -/
inductive SampleEnd (s t : State) : Prop
  | whole (only : OnlySample s t) (phase : t.sq.phase = 2) (fl : t.fl = s.fl) (stageLen : t.tab.stageLen = s.cfg.nch)
  | halted (k : Nat) (hk : k < s.cfg.nch.toNat) (only : OnlySample s t) (phase : t.sq.phase = 6)
      (fl : t.fl = { s.fl with halt := true }) (policy : s.cfg.policy = .haltOnFault) (marker : entryKind t.dp.res = 2)
      (stageLen : t.tab.stageLen.toNat = k + 1) (last : t.stageAt k = t.dp.res)

section MidPass
variable {s t u : State} {k : Nat}

theorem MidPass.next (h : MidPass s k t) (ho : OnlySample t u) (hp : u.sq.phase = t.sq.phase) (hf : u.fl = t.fl)
    {m : Nat} (hl : u.tab.stageLen = BitVec.ofNat 6 m) : MidPass s m u :=
  ⟨h.only.trans ho, hp.trans h.phase, hf.trans h.fl, hl⟩

theorem MidPass.of_channel (h : MidPass s k t) (hc : OnlyChannel t u) : MidPass s k u :=
  h.next hc.toSample (by rw [hc.sq]) hc.fl (by rw [hc.tab]; exact h.stageLen)

theorem midPass_steps (s : State) (n : Nat) : PassSteps (MidPass s) n where
  skip k t _ h _ := h.next ((onlySample_visit k t).trans (onlySample_stageQuarantined k _)) rfl rfl rfl
  isolate k t _ h _ _ := h.next ((onlySample_stageReading k t).trans (onlySample_quarantine k _)) rfl rfl rfl
  stage k t _ h _ := h.next (onlySample_stageReading k t) rfl rfl rfl

theorem midPass_readReading (h : MidPass s k t) :
    (readReading k (visit k t)).Post (fun _ u => MidPass s k u) (fun x u => x = .transportFailure ∧ MidPass s k u) := by
  have hv : MidPass s k (visit k t) := h.next (onlySample_visit k t) rfl rfl h.stageLen
  exact (readReading_spec k (visit k t)).mono (fun _ _ hc => hv.of_channel hc) fun _ _ hc => ⟨hc.1, hv.of_channel hc.2⟩

theorem MidPass.finish (h : MidPass s s.cfg.nch.toNat t) : SampleEnd s (t.goto 2) :=
  .whole (h.only.trans (onlySample_goto 2 t)) rfl h.fl (by
    rw [goto_tab, h.stageLen, BitVec.ofNat_toNat, BitVec.setWidth_eq])

theorem MidPass.halt (h : MidPass s k t) (hk : k < s.cfg.nch.toNat) (hn : s.cfg.nch.toNat ≤ 32)
    (hf : t.faulted = true) (hp : t.cfg.policy = .haltOnFault) : SampleEnd s (haltSession (stageReading k t)) := by
  have hlast : (haltSession (stageReading k t)).stageAt k = t.dp.res :=
    (stageAt_stageReading k k t).trans (if_pos ⟨rfl, by omega⟩)
  refine .halted k hk (h.only.trans ((onlySample_stageReading k t).trans (onlySample_haltSession _))) rfl ?_ ?_ ?_
    (toNat_ofNat_nch hk) hlast
  · rw [haltSession_fl, stageReading_fl, h.fl]
  · rw [← h.only.cfg, hp]
  · simpa [State.faulted] using hf

end MidPass

/-- A PH_SAMPLE ends in one of two ways, or raises TransportFailure with PHASE and the flags as they were. -/
theorem phSample_outcomes {s : State} (hn : s.cfg.nch.toNat ≤ 32) :
    (phSample s).Post (fun _ t => SampleEnd s t)
      (fun x t => x = .transportFailure ∧ OnlySample s t ∧ t.sq.phase = s.sq.phase ∧ t.fl = s.fl) := by
  have begun : MidPass s 0 (clearStaging s) := ⟨onlySample_clearStaging s, rfl, rfl, rfl⟩
  refine (midPass_steps s s.cfg.nch.toNat).phSample (fun k t _ h => ?_) (fun k t hk h hf hp => h.halt hk hn hf hp)
    (fun t h => h.finish) begun
  exact (midPass_readReading h).mono (fun _ _ h => h) fun _ _ h => ⟨h.1, h.2.only, h.2.phase, h.2.fl⟩

/-- Settles O44: the two ends of the pass, and the abort where it raised. -/
theorem phSampleOutcomes : Obligations.PhSampleOutcomes := by
  intro s t hw hn hr hexec
  have hn32 : s.cfg.nch.toNat ≤ 32 := by
    obtain ⟨-, hmax, -⟩ := hw
    omega
  have keep := sampled_phSample s
  have hpost := phSample_outcomes hn32
  cases hexec
  refine ⟨keep.cfg, keep.buf, keep.tick, ?_⟩
  cases hm : phSample s with
  | done a t =>
    rw [hm] at hpost
    cases (show SampleEnd s t from hpost) with
    | whole only phase fl stageLen => exact .inl ⟨by rw [Flow.settle_done, only.sq]; exact hr, phase, stageLen, fl⟩
    | halted k hk only phase fl policy marker stageLen last =>
      refine .inr (.inl ⟨by rw [Flow.settle_done, only.sq]; exact hr, phase, fl, policy, marker, ?_, ?_, ?_⟩) <;>
        rw [Flow.settle_done, stageLen]
      · omega
      · exact hk
      · exact last
  | raised x t =>
    rw [hm] at hpost
    obtain ⟨rfl, only, phase, fl⟩ := hpost
    have e := abort_spec .transportFailure t
    rw [Flow.settle_raised]
    refine .inr (.inr ⟨by rw [e.sq], by rw [e.sq]; rfl, by rw [e.sq, ← phase], by rw [e.fl, fl], fun p hp => ?_⟩)
    rw [e.pdir, busPins_of_cfg only.cfg, if_pos hp]

end Sys2Proof.Machine

/-! A PH_SAMPLE whose transactions the environment answers (spec/45_sampler_buffer.md rules R165 to R168): the channels
read so far, the entries staged and the faults marked, from one visit to the next. -/

namespace Sys2Proof.Machine

/-! ### Reading one channel after another (rules R118, R157, R168) -/

/-- The state the two answered frame reads of a channel leave. -/
def afterFrames (ch : Nat) (F G : Word32) (s : State) : State :=
  { (s.frameRead ch F).frameRead ch G with dp := s.dp.afterReading s.cfg.unit F G }

theorem readReading_visit_answered {ch : Nat} {F G : Word32} {s : State} (hF : s.answersFrame 0 F)
    (hG : s.answersFrame 98 G) : readReading ch (visit ch s) = .done () (afterFrames ch F G s) := by
  have hF' : (visit ch s).answersFrame 0 F := hF
  have hG' : (visit ch s).answersFrame 98 G := hG
  rw [readReading_answered ch F G _ hF' hG', finishTc_finishRj_frameRead]
  rfl

theorem faulted_afterFrames (ch : Nat) (F G : Word32) (s : State) : (afterFrames ch F G s).faulted = G.getLsbD 16 := by
  have hres : (afterFrames ch F G s).dp.res = tcEntryOf s.cfg.unit G := rfl
  rw [State.faulted, hres, tcEntryOf_eq]
  cases G.getLsbD 16 <;> simp [entryKind_fault, entryKind_reading]

/-- `t` is what `s` becomes by the readings of the channels listed, in their order, channel `i` answered with the frames
`FR i` and `FT i`. Of CH, PHASE and the tables it says nothing. -/
structure ChannelsRead (FR FT : Nat → Word32) (l : List Nat) (s t : State) : Prop where
  params : t.params = s.params
  fl : t.fl = s.fl
  cfg : t.cfg = s.cfg
  buf : t.buf = s.buf
  dir : t.pins.dir = s.pins.dir
  dp : t.dp = l.foldl (fun d i => d.afterReading s.cfg.unit (FR i) (FT i)) s.dp
  plvl : ∀ p, t.plvl p = if ∃ i ∈ l, p = s.csPinAt i ∨ p = s.cfg.clkPin then some .high else s.plvl p
  io : t.io = (s.drawnBy (196 * l.length)).io
  events : t.events = s.events ++ l.flatMap fun i =>
    frameTrace (s.csPinAt i) s.cfg.clkPin s.cfg.dataPin (FR i)
      ++ frameTrace (s.csPinAt i) s.cfg.clkPin s.cfg.dataPin (FT i)

section ChannelsRead
variable {FR FT : Nat → Word32} {l : List Nat} {s t u : State}

theorem channelsRead_nil (hp : t.params = s.params) (hdp : t.dp = s.dp) (hf : t.fl = s.fl) (hc : t.cfg = s.cfg)
    (hb : t.buf = s.buf) (hpins : t.pins = s.pins) (hh : t.history = s.history) (hio : t.io = s.io) :
    ChannelsRead FR FT [] s t :=
  ⟨hp, hf, hc, hb, by rw [hpins], hdp, fun p => by simp [plvl_eq_of_pins (s := s) (t := t) (by rw [hpins])],
    by rw [hio]; simp [State.drawnBy], by simp [State.events, hh]⟩

/-- The pass's own assignments read nothing. -/
theorem ChannelsRead.assign (h : ChannelsRead FR FT l s t) (hp : u.params = t.params) (hdp : u.dp = t.dp)
    (hf : u.fl = t.fl) (hc : u.cfg = t.cfg) (hb : u.buf = t.buf) (hpins : u.pins = t.pins) (hh : u.history = t.history)
    (hio : u.io = t.io) : ChannelsRead FR FT l s u :=
  ⟨hp.trans h.params, hf.trans h.fl, hc.trans h.cfg, hb.trans h.buf, by rw [hpins, h.dir], hdp.trans h.dp,
    fun p => (plvl_eq_of_pins (by rw [hpins]) p).trans (h.plvl p), hio.trans h.io,
    by rw [State.events, hh]; exact h.events⟩

/-- One more channel read. -/
theorem ChannelsRead.snoc (h : ChannelsRead FR FT l s t) (k : Nat) :
    ChannelsRead FR FT (l ++ [k]) s (afterFrames k (FR k) (FT k) t) where
  params := h.params
  fl := h.fl
  cfg := h.cfg
  buf := h.buf
  dir := h.dir
  dp := by
    rw [List.foldl_append, ← h.dp, ← h.cfg]
    rfl
  plvl p := by
    calc (afterFrames k (FR k) (FT k) t).plvl p
        = if p = t.csPinAt k ∨ p = t.cfg.clkPin then some .high else t.plvl p :=
          plvl_frameRead_frameRead k (FR k) (FT k) t p
      _ = _ := by
          rw [csPinAt_of_cfg h.cfg, h.cfg, h.plvl, ← ite_or]
          refine if_congr ?_ rfl rfl
          simp only [List.mem_append, List.mem_singleton, or_and_right, exists_or, exists_eq_left]
          exact or_comm
  io := by
    calc (afterFrames k (FR k) (FT k) t).io
        = (t.drawnBy 196).io := io_frameRead_frameRead k (FR k) (FT k) t
      _ = _ := by simp [State.drawnBy, h.io, Nat.mul_add, Nat.add_assoc]
  events := by
    calc (afterFrames k (FR k) (FT k) t).events
        = t.events ++ frameTrace (t.csPinAt k) t.cfg.clkPin t.cfg.dataPin (FR k)
            ++ frameTrace (t.csPinAt k) t.cfg.clkPin t.cfg.dataPin (FT k) :=
          events_frameRead_frameRead k (FR k) (FT k) t
      _ = _ := by
          rw [h.events, csPinAt_of_cfg h.cfg, h.cfg]
          simp

theorem ChannelsRead.plvl_high (h : ChannelsRead FR FT l s t) {i : Nat} {p : PinId} (hi : i ∈ l)
    (hp : p = s.csPinAt i ∨ p = s.cfg.clkPin) : t.plvl p = some .high := (h.plvl p).trans (if_pos ⟨i, hi, hp⟩)

theorem ChannelsRead.plvl_same (h : ChannelsRead FR FT l s t) {p : PinId}
    (hp : ∀ i ∈ l, p ≠ s.csPinAt i ∧ p ≠ s.cfg.clkPin) : t.plvl p = s.plvl p := by
  refine (h.plvl p).trans (if_neg ?_)
  rintro ⟨i, hi, hcs | hclk⟩
  · exact (hp i hi).1 hcs
  · exact (hp i hi).2 hclk

/-- The answers ahead of `t`, in terms of those ahead of `s`. -/
theorem ChannelsRead.answersFrame (h : ChannelsRead FR FT l s t) {m : Nat} {F : Word32}
    (hF : s.answersFrame (196 * l.length + m) F) : t.answersFrame m F :=
  answersFrame_of_drawn (by rw [h.io]; rfl) (by rw [h.io]; rfl) hF

end ChannelsRead

/-- The channels below `k` that PH_SAMPLE reads (rule R167). -/
def State.activeChannels (s : State) (k : Nat) : List Nat := (List.range k).filter fun i => !s.quarAt i

theorem activeChannels_succ (s : State) (k : Nat) :
    s.activeChannels (k + 1) = s.activeChannels k ++ if s.quarAt k then [] else [k] := by
  rw [State.activeChannels, List.range_succ, List.filter_append]
  cases hq : s.quarAt k <;> simp [State.activeChannels, hq]

/-! ### A table written slot by slot -/

/-- The slots below `k` hold their new values, the others their old ones. -/
def FilledTo {α : Type} (new old : Nat → α) (k : Nat) (f : Nat → α) : Prop := ∀ i, f i = if i < k then new i else old i

section FilledTo
variable {α : Type} {new old f g : Nat → α} {k : Nat}

theorem filledTo_zero (h : ∀ i, f i = old i) : FilledTo new old 0 f := fun i => by simp [h i]

theorem FilledTo.write (h : FilledTo new old k f) {a : α} (hg : ∀ i, g i = if k = i ∧ i < 32 then a else f i)
    (hk : k < 32) (ha : a = new k) : FilledTo new old (k + 1) g := by
  intro i
  rw [hg, h i]
  rcases Nat.lt_trichotomy i k with hi | rfl | hi
  · simp [hi, show ¬ k = i by omega, show i < k + 1 by omega]
  · simp [hk, ha]
  · simp [show ¬ k = i by omega, show ¬ i < k by omega, show ¬ i < k + 1 by omega]

/-- A slot that is passed over has the new value already. -/
theorem FilledTo.keep (h : FilledTo new old k f) (hg : ∀ i, g i = f i) (ha : old k = new k) :
    FilledTo new old (k + 1) g := by
  intro i
  rw [hg, h i]
  rcases Nat.lt_trichotomy i k with hi | rfl | hi
  · simp [hi, show i < k + 1 by omega]
  · simp [ha]
  · simp [show ¬ i < k by omega, show ¬ i < k + 1 by omega]

theorem FilledTo.congr (h : FilledTo new old k f) (hg : ∀ i, g i = f i) : FilledTo new old k g := fun i =>
  (hg i).trans (h i)

theorem FilledTo.below (h : FilledTo new old k f) {i : Nat} (hi : i < k) : f i = new i := (h i).trans (if_pos hi)

theorem FilledTo.above (h : FilledTo new old k f) {i : Nat} (hi : k ≤ i) : f i = old i :=
  (h i).trans (if_neg (Nat.not_lt.mpr hi))

end FilledTo

/-! ### The entries a pass stages (rules R165 to R167) -/

/-- The entry of channel `i` a pass begun in `s` stages in STAGE. -/
def State.stagedEntry (s : State) (FT : Nat → Word32) (i : Nat) : Word32 :=
  if s.quarAt i then entryFault (s.qfsAt i) else tcEntryOf s.cfg.unit (FT i)

/-- The same in RJSTAGE. -/
def State.stagedRjEntry (s : State) (FR : Nat → Word32) (i : Nat) : Word32 :=
  if s.quarAt i then entryEmpty else rjEntryOf s.cfg.unit (FR i)

/-- Channel `i` is read and its thermocouple frame has the fault flag set. -/
def State.newFault (s : State) (FT : Nat → Word32) (i : Nat) : Bool := !s.quarAt i && (FT i).getLsbD 16

/-- QUAR of channel `i` after a pass begun in `s` that did not halt (rule R167). -/
def State.markedQuar (s : State) (FT : Nat → Word32) (i : Nat) : Bool := s.quarAt i || s.newFault FT i

/-- The same of QFS. -/
def State.markedFs (s : State) (FT : Nat → Word32) (i : Nat) : FaultStatus :=
  if s.newFault FT i then classifyFrame (FT i) else s.qfsAt i

section NewFault
variable {s : State} {FT : Nat → Word32} {i : Nat}

theorem newFault_of_quarantined (h : s.quarAt i = true) : s.newFault FT i = false := by rw [State.newFault, h]; rfl

theorem newFault_of_active (h : s.quarAt i = false) : s.newFault FT i = (FT i).getLsbD 16 := by
  rw [State.newFault, h]; rfl

theorem newFault_of_clear (h : (FT i).getLsbD 16 = false) : s.newFault FT i = false := by
  rw [State.newFault, h, Bool.and_false]

theorem markedQuar_eq (h : s.newFault FT i = false) : s.markedQuar FT i = s.quarAt i := by
  rw [State.markedQuar, h, Bool.or_false]

theorem markedFs_eq (h : s.newFault FT i = false) : s.markedFs FT i = s.qfsAt i := by
  rw [State.markedFs, h, if_neg Bool.false_ne_true]

end NewFault

/-- The entries of the first `k` channels are staged in `t`, and no others. -/
structure EntriesStaged (s : State) (FR FT : Nat → Word32) (k : Nat) (t : State) : Prop where
  stageLen : t.tab.stageLen = BitVec.ofNat 6 k
  stage : FilledTo (s.stagedEntry FT) (clearStaging s).stageAt k t.stageAt
  rjStage : FilledTo (s.stagedRjEntry FR) (clearStaging s).rjStageAt k t.rjStageAt

/-- The faults of the first `k` channels are marked in `t`: a faulting channel is quarantined with its status. -/
structure FaultsMarked (s : State) (FT : Nat → Word32) (k : Nat) (t : State) : Prop where
  quar : FilledTo (s.markedQuar FT) s.quarAt k t.quarAt
  qfs : FilledTo (s.markedFs FT) s.qfsAt k t.qfsAt

section Tables
variable {s t u : State} {FR FT : Nat → Word32} {k : Nat}

theorem quarAt_quarantine (i : Nat) :
    (quarantine k t).quarAt i = if k = i ∧ i < 32 then true else t.quarAt i := tabGet_tabSet _ _ _ _ _

theorem qfsAt_quarantine (i : Nat) :
    (quarantine k t).qfsAt i = if k = i ∧ i < 32 then t.dp.fs else t.qfsAt i := tabGet_tabSet _ _ _ _ _

theorem rjStageAt_of_rjStage (h : u.tab.rjStage = t.tab.rjStage) (i : Nat) : u.rjStageAt i = t.rjStageAt i := by
  simp [State.rjStageAt, h]

theorem qfsAt_of_qfs (h : u.tab.qfs = t.tab.qfs) (i : Nat) : u.qfsAt i = t.qfsAt i := by simp [State.qfsAt, h]

theorem EntriesStaged.of_tab (h : EntriesStaged s FR FT k t) (hlen : u.tab.stageLen = t.tab.stageLen)
    (hst : u.tab.stage = t.tab.stage) (hrj : u.tab.rjStage = t.tab.rjStage) : EntriesStaged s FR FT k u :=
  ⟨hlen.trans h.stageLen, h.stage.congr (stageAt_of_stage hst), h.rjStage.congr (rjStageAt_of_rjStage hrj)⟩

/-- The staging of a channel that was read. -/
theorem EntriesStaged.reading (h : EntriesStaged s FR FT k t) (hk : k < 32) (hq : s.quarAt k = false)
    (hcfg : t.cfg = s.cfg) : EntriesStaged s FR FT (k + 1) (stageReading k (afterFrames k (FR k) (FT k) t)) where
  stageLen := rfl
  stage := h.stage.write (fun i => stageAt_stageReading k i _) hk (by
    rw [State.stagedEntry, hq, ← hcfg]
    rfl)
  rjStage := h.rjStage.write (fun i => rjStageAt_stageReading k i _) hk (by
    rw [State.stagedRjEntry, hq, ← hcfg]
    rfl)

/-- The staging of a quarantined channel. -/
theorem EntriesStaged.quarantined (h : EntriesStaged s FR FT k t) (hk : k < s.params.nchMax) (h32 : k < 32)
    (hq : s.quarAt k = true) (hqfs : t.qfsAt k = s.qfsAt k) :
    EntriesStaged s FR FT (k + 1) (stageQuarantined k (visit k t)) where
  stageLen := rfl
  stage := h.stage.write (fun i => stageAt_stageQuarantined k i _) h32 (by
    rw [State.stagedEntry, hq, ← hqfs]
    rfl)
  rjStage := h.rjStage.keep (fun _ => rfl) (by
    rw [rjStageAt_clearStaging, if_pos ⟨hk, h32⟩, State.stagedRjEntry, hq]
    rfl)

theorem FaultsMarked.of_tab (h : FaultsMarked s FT k t) (hq : u.tab.quar = t.tab.quar) (hf : u.tab.qfs = t.tab.qfs) :
    FaultsMarked s FT k u :=
  ⟨h.quar.congr (quarAt_of_quar hq), h.qfs.congr (qfsAt_of_qfs hf)⟩

/-- A visit without a new fault marks none. -/
theorem FaultsMarked.pass (h : FaultsMarked s FT k t) (hn : s.newFault FT k = false) (hq : u.tab.quar = t.tab.quar)
    (hf : u.tab.qfs = t.tab.qfs) : FaultsMarked s FT (k + 1) u where
  quar := h.quar.keep (quarAt_of_quar hq) (markedQuar_eq hn).symm
  qfs := h.qfs.keep (qfsAt_of_qfs hf) (markedFs_eq hn).symm

/-- A faulting channel is quarantined with its status (rule R167). -/
theorem FaultsMarked.fault (h : FaultsMarked s FT k t) (hk : k < 32) (hn : s.newFault FT k = true)
    (hq : u.tab.quar = t.tab.quar) (hf : u.tab.qfs = t.tab.qfs) (hfs : u.dp.fs = classifyFrame (FT k)) :
    FaultsMarked s FT (k + 1) (quarantine k u) :=
  have hu := h.of_tab hq hf
  { quar := hu.quar.write quarAt_quarantine hk (by simp [State.markedQuar, hn])
    qfs := hu.qfs.write qfsAt_quarantine hk (by simp [State.markedFs, hn, hfs]) }

end Tables

/-! ### The pass (rule R165) -/

/-- `t` is the state of an answered pass begun in `s`, between the visits of the first `k` channels and the rest. -/
structure PassedTo (s : State) (FR FT : Nat → Word32) (k : Nat) (t : State) : Prop where
  read : ChannelsRead FR FT (s.activeChannels k) s t
  staged : EntriesStaged s FR FT k t
  marked : FaultsMarked s FT k t
  sq : t.sq = { s.sq with ch := if k = 0 then s.sq.ch else BitVec.ofNat 6 (k - 1) }

/-- The environment answers the readings of the channels below `n` with the frames `FR` and `FT`. -/
def State.answersPass (s : State) (FR FT : Nat → Word32) (n : Nat) : Prop :=
  ∀ i, i < n → s.quarAt i = false →
    s.answersFrame (196 * s.activeBelow i) (FR i) ∧ s.answersFrame (196 * s.activeBelow i + 98) (FT i)

section Pass
variable {s t : State} {FR FT : Nat → Word32} {k : Nat}

theorem passedTo_zero (s : State) (FR FT : Nat → Word32) : PassedTo s FR FT 0 (clearStaging s) where
  read := channelsRead_nil rfl rfl rfl rfl rfl rfl rfl rfl
  staged := ⟨rfl, filledTo_zero fun _ => rfl, filledTo_zero fun _ => rfl⟩
  marked := ⟨filledTo_zero fun _ => rfl, filledTo_zero fun _ => rfl⟩
  sq := rfl

theorem PassedTo.quarAt (h : PassedTo s FR FT k t) : t.quarAt k = s.quarAt k := h.marked.quar.above (Nat.le_refl k)

/-- A quarantined channel is staged and passed over. -/
theorem PassedTo.skip (h : PassedTo s FR FT k t) (hk : k < s.params.nchMax) (h32 : k < 32) (hq : s.quarAt k = true) :
    PassedTo s FR FT (k + 1) (stageQuarantined k (visit k t)) where
  read := by
    rw [activeChannels_succ, if_pos hq, List.append_nil]
    exact h.read.assign rfl rfl rfl rfl rfl rfl rfl rfl
  staged := h.staged.quarantined hk h32 hq (h.marked.qfs.above (Nat.le_refl k))
  marked := h.marked.pass (newFault_of_quarantined hq) rfl rfl
  sq := by
    show ({ t.sq with ch := BitVec.ofNat 6 k } : Sequencer) = _
    rw [h.sq]
    rfl

/-- The channel that is next to be visited is read and staged, before a fault is dealt with. -/
theorem PassedTo.stage (h : PassedTo s FR FT k t) (h32 : k < 32) (hq : s.quarAt k = false) :
    ChannelsRead FR FT (s.activeChannels (k + 1)) s (stageReading k (afterFrames k (FR k) (FT k) t)) ∧
      EntriesStaged s FR FT (k + 1) (stageReading k (afterFrames k (FR k) (FT k) t)) ∧
      (stageReading k (afterFrames k (FR k) (FT k) t)).sq = { s.sq with ch := BitVec.ofNat 6 k } := by
  refine ⟨?_, h.staged.reading h32 hq h.read.cfg, ?_⟩
  · have hl : s.activeChannels (k + 1) = s.activeChannels k ++ [k] := by simp [activeChannels_succ, hq]
    rw [hl]
    exact (h.read.snoc k).assign rfl rfl rfl rfl rfl rfl rfl rfl
  · show ({ t.sq with ch := BitVec.ofNat 6 k } : Sequencer) = _
    rw [h.sq]

/-- A channel that is not quarantined is read, whatever follows. -/
theorem PassedTo.sampleChannels_reads (h : PassedTo s FR FT k t) (ans : s.answersPass FR FT (k + 1))
    (hq : s.quarAt k = false) (is : List Nat) :
    sampleChannels (k :: is) t = Machine.afterReading k is (afterFrames k (FR k) (FT k) t) := by
  obtain ⟨hF, hG⟩ := ans k (Nat.lt_succ_self k) hq
  rw [sampleChannels_read k is t (h.quarAt.trans hq),
    readReading_visit_answered (h.read.answersFrame (m := 0) hF) (h.read.answersFrame hG), Flow.andThen_done]

/-- A channel whose thermocouple frame has its fault flag set ends the pass under HaltOnFault (rule R166). -/
theorem PassedTo.sampleChannels_halts (h : PassedTo s FR FT k t) (ans : s.answersPass FR FT (k + 1))
    (hq : s.quarAt k = false) (hf : (FT k).getLsbD 16 = true) (hp : s.cfg.policy = .haltOnFault) (is : List Nat) :
    sampleChannels (k :: is) t = .done () (haltSession (stageReading k (afterFrames k (FR k) (FT k) t))) := by
  have hp' : (afterFrames k (FR k) (FT k) t).cfg.policy = .haltOnFault := by
    rw [← hp, ← h.read.cfg]
    rfl
  rw [h.sampleChannels_reads ans hq, afterReading_halts ((faulted_afterFrames k _ _ t).trans hf) hp']

/-- One visit: the next channel is passed over, or read and, if it faults, quarantined. -/
theorem PassedTo.visits (h : PassedTo s FR FT k t) (hk : k < s.params.nchMax) (h32 : k < 32)
    (ans : s.answersPass FR FT (k + 1))
    (hgo : s.cfg.policy = .quarantineFaultingChannel ∨ s.newFault FT k = false) :
    ∃ u, PassedTo s FR FT (k + 1) u ∧ ∀ is, sampleChannels (k :: is) t = sampleChannels is u := by
  cases hq : s.quarAt k with
  | true => exact ⟨_, h.skip hk h32 hq, fun is => sampleChannels_quarantined k is t (h.quarAt.trans hq)⟩
  | false =>
    obtain ⟨hread, hstaged, hsq⟩ := h.stage h32 hq
    have hnew : s.newFault FT k = (FT k).getLsbD 16 := newFault_of_active hq
    have hfault := faulted_afterFrames k (FR k) (FT k) t
    cases hf : (FT k).getLsbD 16 with
    | false =>
      refine ⟨_, ⟨hread, hstaged, h.marked.pass (hnew.trans hf) rfl rfl, hsq⟩, fun is => ?_⟩
      rw [h.sampleChannels_reads ans hq, afterReading_goes_on (hfault.trans hf)]
    | true =>
      have hp : t.cfg.policy = .quarantineFaultingChannel := by
        rw [h.read.cfg]
        exact hgo.resolve_right (by rw [hnew, hf]; exact nofun)
      refine ⟨quarantine k (stageReading k (afterFrames k (FR k) (FT k) t)),
        ⟨hread.assign rfl rfl rfl rfl rfl rfl rfl rfl, hstaged.of_tab rfl rfl rfl,
          h.marked.fault h32 (hnew.trans hf) rfl rfl rfl, hsq⟩, fun is => ?_⟩
      rw [h.sampleChannels_reads ans hq, afterReading_quarantines (hfault.trans hf) hp]

theorem range'_sub_eq_cons {k n : Nat} (h : k < n) :
    List.range' k (n - k) = k :: List.range' (k + 1) (n - (k + 1)) := by
  rw [show n - k = n - (k + 1) + 1 by omega, List.range'_succ]

/-- The pass reaches channel `k` when it does not halt before, and goes on from there. -/
theorem phSample_passedTo (hn : s.cfg.nch.toNat ≤ s.params.nchMax) (h32 : s.cfg.nch.toNat ≤ 32)
    (hk : k ≤ s.cfg.nch.toNat) (ans : s.answersPass FR FT k)
    (hgo : s.cfg.policy = .quarantineFaultingChannel ∨ ∀ i, i < k → s.newFault FT i = false) :
    ∃ t, PassedTo s FR FT k t ∧ phSample s = sampleChannels (List.range' k (s.cfg.nch.toNat - k)) t := by
  induction k with
  | zero => exact ⟨_, passedTo_zero s FR FT, by rw [phSample, channels_eq_range', Nat.sub_zero]⟩
  | succ k ih =>
    obtain ⟨t, ht, hrun⟩ := ih (by omega) (fun i hi => ans i (by omega)) (hgo.imp_right fun h i hi => h i (by omega))
    obtain ⟨u, hu, hvisit⟩ := ht.visits (by omega) (by omega) ans (hgo.imp_right fun h => h k (Nat.lt_succ_self k))
    exact ⟨u, hu, by rw [hrun, range'_sub_eq_cons (by omega), hvisit]⟩

end Pass

/-! ### A whole pass -/

section Whole
variable {s t : State} {FR FT : Nat → Word32} {k i : Nat}

theorem PassedTo.quarantined_slot (h : PassedTo s FR FT k t) (hi : i < k) (hq : s.quarAt i = true) :
    t.stageAt i = entryFault (s.qfsAt i) ∧ t.rjStageAt i = entryEmpty ∧ t.quarAt i = true ∧ t.qfsAt i = s.qfsAt i := by
  rw [h.staged.stage.below hi, h.staged.rjStage.below hi, h.marked.quar.below hi, h.marked.qfs.below hi]
  rw [markedQuar_eq (newFault_of_quarantined hq), markedFs_eq (newFault_of_quarantined hq)]
  simp [State.stagedEntry, State.stagedRjEntry, hq]

theorem EntriesStaged.read_slot (h : EntriesStaged s FR FT k t) (hi : i < k) (hq : s.quarAt i = false) :
    t.stageAt i = tcEntryOf s.cfg.unit (FT i) ∧ t.rjStageAt i = rjEntryOf s.cfg.unit (FR i) := by
  rw [h.stage.below hi, h.rjStage.below hi]
  simp [State.stagedEntry, State.stagedRjEntry, hq]

theorem FaultsMarked.read_slot (h : FaultsMarked s FT k t) (hi : i < k) (hq : s.quarAt i = false) :
    t.quarAt i = (FT i).getLsbD 16 ∧
      t.qfsAt i = if (FT i).getLsbD 16 then classifyFrame (FT i) else s.qfsAt i := by
  rw [h.quar.below hi, h.qfs.below hi]
  rw [State.markedQuar, State.markedFs, newFault_of_active hq, hq]
  exact ⟨rfl, rfl⟩

/-- The slots above the channels visited are Empty. -/
theorem EntriesStaged.empty_slot (h : EntriesStaged s FR FT k t) (hi : k ≤ i) (hn : i < s.params.nchMax)
    (h32 : s.params.nchMax ≤ 32) : t.stageAt i = entryEmpty ∧ t.rjStageAt i = entryEmpty := by
  have hin : i < s.params.nchMax ∧ i < 32 := ⟨hn, by omega⟩
  rw [h.stage.above hi, h.rjStage.above hi, stageAt_clearStaging, rjStageAt_clearStaging, if_pos hin, if_pos hin]
  exact ⟨rfl, rfl⟩

theorem mem_activeChannels : i ∈ s.activeChannels k ↔ i < k ∧ s.quarAt i = false := by
  simp [State.activeChannels]

/-- PH_APPEND is next, and CH is at the last channel. -/
theorem PassedTo.sq_finished (h : PassedTo s FR FT s.cfg.nch.toNat t) :
    (t.goto 2).sq = { s.sq with phase := 2, ch := if s.cfg.nch = 0 then s.sq.ch else s.cfg.nch - 1 } := by
  have hch : (if s.cfg.nch.toNat = 0 then s.sq.ch else BitVec.ofNat 6 (s.cfg.nch.toNat - 1)) =
      if s.cfg.nch = 0 then s.sq.ch else s.cfg.nch - 1 := by
    by_cases h0 : s.cfg.nch = 0
    · simp [h0]
    · have hpos : s.cfg.nch.toNat ≠ 0 := fun e => h0 (BitVec.eq_of_toNat_eq e)
      rw [if_neg hpos, if_neg h0]
      bv_omega
  rw [goto_sq, h.sq, hch]

end Whole

/-- Settles O42: the pass goes through every channel, and the step ends. -/
theorem phSampleVisitsEveryChannel : Obligations.PhSampleVisitsEveryChannel := by
  intro s FR FT hw hn ans hpolicy
  obtain ⟨-, h32, -⟩ := hw
  have hgo := hpolicy.imp_right fun h i (hi : i < s.cfg.nch.toNat) =>
    show s.newFault FT i = false by
      cases hq : s.quarAt i with
      | true => exact newFault_of_quarantined hq
      | false => exact newFault_of_clear (h i hi hq)
  obtain ⟨t, h, hrun⟩ := phSample_passedTo hn (by omega) (Nat.le_refl _) ans hgo
  have hexec : exec .phSample s = .next (t.goto 2) := by
    show Host.Outcome.next (phSample s).settle = _
    rw [hrun, Nat.sub_self]
    rfl
  have hread := h.read.assign (u := t.goto 2) rfl rfl rfl rfl rfl rfl rfl rfl
  refine ⟨t.goto 2, hexec, ?stageLen, fun i => h.quarantined_slot, fun i hi hq => ?readSlot,
    fun i hi hmax => h.staged.empty_slot hi hmax h32, fun i hi => ⟨h.marked.quar.above hi, h.marked.qfs.above hi⟩,
    h.sq_finished, hread.fl, hread.cfg, hread.buf, hread.params, hread.dir, hread.dp, fun p => ?plvl, hread.io,
    hread.events⟩
  case stageLen =>
    rw [goto_tab, h.staged.stageLen, BitVec.ofNat_toNat, BitVec.setWidth_eq]
  case readSlot =>
    obtain ⟨hstage, hrj⟩ := h.staged.read_slot hi hq
    obtain ⟨hquar, hqfs⟩ := h.marked.read_slot hi hq
    exact ⟨hstage, hrj, hquar, hqfs⟩
  case plvl =>
    constructor
    · rintro ⟨i, hi, hq, hp⟩
      exact hread.plvl_high (mem_activeChannels.mpr ⟨hi, hq⟩) hp
    · refine fun hother => hread.plvl_same fun i hi => ?_
      obtain ⟨hlt, hq⟩ := mem_activeChannels.mp hi
      exact hother i hlt hq

/-! ### A pass that halts (rule R166) -/

section Halts
variable {s : State} {j : Nat}

theorem activeChannels_eq_range {k : Nat} (h : ∀ i, i < k → s.quarAt i = false) :
    s.activeChannels k = List.range k := by
  refine List.filter_eq_self.mpr fun i hi => ?_
  simp [h i (List.mem_range.mp hi)]

theorem activeBelow_eq_self {k : Nat} (h : ∀ i, i < k → s.quarAt i = false) : s.activeBelow k = k := by
  have hlen : s.activeBelow k = (s.activeChannels k).length := rfl
  rw [hlen, activeChannels_eq_range h, List.length_range]

theorem table_ext {α : Type} (d : α) {t u : Vector α 32} (h : ∀ i, tabGet d t i = tabGet d u i) : t = u := by
  ext i hi
  simpa [tabGet, hi] using h i

/-- A pass that meets no new fault leaves the fault tables as they were. -/
theorem FaultsMarked.tables_eq {FT : Nat → Word32} {k : Nat} {t : State} (h : FaultsMarked s FT k t)
    (hn : ∀ i, i < k → s.newFault FT i = false) : t.tab.quar = s.tab.quar ∧ t.tab.qfs = s.tab.qfs := by
  have hquar : ∀ i, t.quarAt i = s.quarAt i := fun i =>
    (h.quar i).trans (ite_eq_right_iff.mpr fun hi => markedQuar_eq (hn i hi))
  have hqfs : ∀ i, t.qfsAt i = s.qfsAt i := fun i =>
    (h.qfs i).trans (ite_eq_right_iff.mpr fun hi => markedFs_eq (hn i hi))
  exact ⟨table_ext false hquar, table_ext FaultStatus.none hqfs⟩

end Halts

/-- Settles O43: the pass goes through the channels below `j` and reads `j`, where it halts. -/
theorem phSampleHaltsOnFault : Obligations.PhSampleHaltsOnFault := by
  intro s FR FT j hw hn hpolicy hj hquar hans hclear hfault
  obtain ⟨-, h32, -⟩ := hw
  have hactive : s.activeChannels (j + 1) = List.range (j + 1) :=
    activeChannels_eq_range fun i hi => hquar i (by omega)
  have ans : s.answersPass FR FT (j + 1) := fun i hi _ => by
    rw [activeBelow_eq_self fun m hm => hquar m (by omega)]
    exact hans i (by omega)
  have hnone : ∀ i, i < j → s.newFault FT i = false := fun i hi => newFault_of_clear (hclear i hi)
  obtain ⟨t, h, hrun⟩ :=
    phSample_passedTo hn (by omega) (Nat.le_of_lt hj) (fun i hi => ans i (by omega)) (.inr hnone)
  obtain ⟨hread, hstaged, hsq⟩ := h.stage (by omega) (hquar j (Nat.le_refl j))
  obtain ⟨hq, hqfs⟩ := h.marked.tables_eq hnone
  have hexec : exec .phSample s = .next (haltSession (stageReading j (afterFrames j (FR j) (FT j) t))) := by
    show Host.Outcome.next (phSample s).settle = _
    rw [hrun, range'_sub_eq_cons hj, h.sampleChannels_halts ans (hquar j (Nat.le_refl j)) hfault hpolicy,
      Flow.settle_done]
  rw [hactive] at hread
  have hslot := fun i (hi : i ≤ j) => hstaged.read_slot (Nat.lt_succ_of_le hi) (hquar i hi)
  refine ⟨_, hexec, ?sq, ?fl, rfl, hslot, ?marker, rfl, fun i hi hmax => hstaged.empty_slot hi hmax h32, hq, hqfs,
    hread.cfg, hread.buf, hread.params, hread.dp, hread.dir, fun p => ?plvl, ?io, hread.events⟩
  case sq => rw [haltSession_sq, hsq]
  case fl => rw [haltSession_fl, hread.fl]
  case marker =>
    obtain ⟨hstage, -⟩ := hslot j (Nat.le_refl j)
    exact hstage.trans ((tcEntryOf_eq s.cfg.unit (FT j)).trans (if_pos hfault))
  case io =>
    have hio := hread.io
    rw [List.length_range] at hio
    exact hio
  case plvl =>
    constructor
    · rintro (hp | ⟨i, hi, hp⟩)
      · exact hread.plvl_high (List.mem_range.mpr (Nat.lt_succ_self j)) (.inr hp)
      · exact hread.plvl_high (List.mem_range.mpr (Nat.lt_succ_of_le hi)) (.inl hp)
    · exact fun hclk hcs => hread.plvl_same fun i hi => ⟨hcs i (Nat.le_of_lt_succ (List.mem_range.mp hi)), hclk⟩

end Sys2Proof.Machine

/-! The loop controller (spec/46_loop_controller.md): what no step changes once the session is over (rule R192), then
START, INTR, PH_BOUNDARY, PH_TICK and PH_SLEEP. -/

namespace Sys2Proof.Machine

/-! ### A session that is over (rule R192) -/

/-- What rule R192 keeps: the datapath, the sequencer, the configuration, the tables, the committed buffer and HALT. -/
structure SessionKept (s t : State) : Prop where
  sq : t.sq = s.sq
  dp : t.dp = s.dp
  cfg : t.cfg = s.cfg
  tab : t.tab = s.tab
  seqs : t.buf.seqs = s.buf.seqs
  len : t.buf.len = s.buf.len
  halt : t.fl.halt = s.fl.halt

theorem SessionKept.refl (s : State) : SessionKept s s := ⟨rfl, rfl, rfl, rfl, rfl, rfl, rfl⟩

theorem sessionKept_refuse (e : ErrCode) (s : State) : SessionKept s (refuse e s) := ⟨rfl, rfl, rfl, rfl, rfl, rfl, rfl⟩

theorem sessionKept_interrupted (s : State) : SessionKept s (interrupted s) := ⟨rfl, rfl, rfl, rfl, rfl, rfl, rfl⟩

/-- The release writes the pins, CLAIMED and the history (rule R114). -/
theorem sessionKept_release (s : State) : SessionKept s (release (accept s)) := by
  have e := release_spec (accept s)
  exact ⟨e.sq, e.dp, e.cfg, e.tab, by rw [e.buf]; rfl, by rw [e.buf]; rfl, by rw [e.fl]; rfl⟩

/-- BUF_CH and BUF_TICK only select the entry BUF_DATA shows (rule R51). -/
theorem sessionKept_window {r : Reg} (hr : r.isWindow = true) (w : Word32) (s : State) :
    SessionKept s (accept (storeReg r w s)) := by
  cases r with
  | bufCh => exact ⟨rfl, rfl, rfl, rfl, rfl, rfl, rfl⟩
  | bufTick => exact ⟨rfl, rfl, rfl, rfl, rfl, rfl, rfl⟩
  | _ => cases hr

section OutsideIdle
variable {s t : State}

/-- Outside Idle a command other than INTR is refused, or is RELEASE (rule R200). -/
theorem CommandEffect.sessionKept (k : CommandEffect s t) (hidle : s.sq.lc ≠ .idle) : SessionKept s t := by
  cases k with
  | answers e => exact sessionKept_refuse e s
  | releases hr => exact sessionKept_release s
  | _ => contradiction

/-- Outside Idle only the window registers are stored (rule R197). -/
theorem RegwrEffect.sessionKept (k : RegwrEffect s t) (hidle : s.sq.lc ≠ .idle) : SessionKept s t := by
  cases k with
  | command _ hk => exact hk.sessionKept hidle
  | interrupts => exact sessionKept_interrupted s
  | window r w hr => exact sessionKept_window hr w s
  | config r width w hw hr hi hp hv => contradiction

/-- Outside Running the core is at rest (rule R241), which leaves the host's transactions. -/
theorem StepEffect.sessionKept (k : StepEffect s t) (hidle : s.sq.lc ≠ .idle) (hrun : s.sq.lc ≠ .running) :
    SessionKept s t := by
  cases k with
  | reads w => exact ⟨rfl, rfl, rfl, rfl, rfl, rfl, rfl⟩
  | writes _ hk => exact hk.sessionKept hidle
  | rests hr => exact .refl s
  | _ => contradiction

end OutsideIdle

/-- Settles O8: a step that is no reset has an effect that only Idle or Running allows, or keeps the session. -/
theorem terminalStatesStay : Obligations.TerminalStatesStay := by
  intro s t hlc hport hreset hs
  have hidle : s.sq.lc ≠ .idle := by rcases hlc with h | h <;> simp [h]
  have hrun : s.sq.lc ≠ .running := by rcases hlc with h | h <;> simp [h]
  obtain ⟨-, ⟨⟨ts, hts⟩, -⟩ | k⟩ := step_effect hport hs
  · exact absurd hts (hreset ts)
  · have e : SessionKept s.popTurn t := k.sessionKept hidle hrun
    exact ⟨e.sq, e.dp, e.cfg, e.tab, e.seqs, e.len, e.halt⟩

/-! ### START and INTR (rules R180, R191) -/

theorem startCommand_claimed {s : State} (hi : s.sq.lc = .idle) (hc : s.fl.claimed = true)
    (hn : 1 ≤ s.cfg.nch.toNat) : startCommand s = enterRunning (accept s) := by
  rw [startCommand, inIdle_idle hi, if_neg (Nat.not_lt.mpr hn), if_pos hc]

/-- Settles O39: with the pins claimed, START's own two assignments are all it does. -/
theorem startEntersRunning : Obligations.StartEntersRunning := fun _ hi hc hn =>
  congrArg Host.Outcome.next (startCommand_claimed hi hc hn)

theorem exec_intr (s : State) : exec .intr s = .next (interrupted s) := rfl

/-- Settles O41: INTR has no test, so its effect is that of every state. -/
theorem intrSetsLatch : Obligations.IntrSetsLatch := exec_intr

/-! ### PH_BOUNDARY (rules R182, R184, R187, R189) -/

theorem phBoundary_completed {s : State} (h : s.cfg.maxTicks.toNat ≤ s.sq.tick.toNat) :
    phBoundary s = stop .completed s := if_pos h

theorem phBoundary_interrupted {s : State} (h : s.sq.tick.toNat < s.cfg.maxTicks.toNat)
    (hint : s.fl.intPending = true) : phBoundary s = stop .interrupted s := by
  rw [phBoundary, if_neg (Nat.not_le.mpr h), if_pos hint]

theorem phBoundary_continues {s : State} (h : s.sq.tick.toNat < s.cfg.maxTicks.toNat)
    (hint : s.fl.intPending = false) : phBoundary s = s.goto 1 := by
  rw [phBoundary, if_neg (Nat.not_le.mpr h), if_neg (by simp [hint])]

/-- Settles O50: one equation per branch; both stops have the effect of `stop_spec`. -/
theorem phBoundaryDecides : Obligations.PhBoundaryDecides := by
  intro s
  refine ⟨fun h hint => congrArg Host.Outcome.next (phBoundary_continues h hint), fun reason hreason => ?_⟩
  have hstop : phBoundary s = stop reason s := by
    rcases hreason with ⟨h, rfl⟩ | ⟨h, hint, rfl⟩
    · exact phBoundary_completed h
    · exact phBoundary_interrupted h hint
  have e := stop_spec reason s
  exact ⟨_, congrArg Host.Outcome.next hstop, e.sq, e.fl, e.dp, e.cfg, e.tab, e.buf, e.params, e.pdir, e.plvl, e.events,
    e.io⟩

/-! ### PH_TICK and PH_SLEEP (rules R185, R186) -/

/-- TICK does not wrap below MAX_TICKS. -/
theorem toNat_tick_succ {s : State} (h : s.sq.tick.toNat < s.cfg.maxTicks.toNat) :
    (s.sq.tick + 1).toNat = s.sq.tick.toNat + 1 :=
  BitVec.toNat_add_of_lt (y := 1) (Nat.lt_of_le_of_lt h s.cfg.maxTicks.isLt)

/-- Settles O48: the new TICK is one more and decides the phase. -/
theorem phTickCounts : Obligations.PhTickCounts := fun s h =>
  ⟨s.sq.tick + 1, toNat_tick_succ h, congrArg Host.Outcome.next (phTick_eq s)⟩

theorem phSleep_eq (s : State) :
    phSleep s = { s with history := .sleep s.cfg.interval :: s.history, sq.phase := 0 } := rfl

/-- Settles O49: the event, then the move to PH_BOUNDARY. -/
theorem phSleepEmitsInterval : Obligations.PhSleepEmitsInterval := fun s =>
  congrArg Host.Outcome.next (phSleep_eq s)

end Sys2Proof.Machine

/-! Fields that no part of a sequencer step but PH_BOUNDARY reads (spec/47_host_bus.md rule R204): an operation that
ignores a change of them runs from the changed state as it runs from the state itself. -/

namespace Sys2Proof.Machine

/-! ### A change of the fields, and what it means to ignore it -/

/-- A change of BUF_CH, BUF_TICK and INT_PENDING, and of the model's place inside PH_SAMPLE. -/
structure Change where
  selCh : BitVec 6 → BitVec 6 := id
  selTick : Word32 → Word32 := id
  intPending : Bool → Bool := id
  pos : Option SamplePos → Option SamplePos := id

/-- The state with the change made. -/
def Change.apply (c : Change) (s : State) : State :=
  { s with
    buf.selCh := c.selCh s.buf.selCh
    buf.selTick := c.selTick s.buf.selTick
    fl.intPending := c.intPending s.fl.intPending
    io.pos := c.pos s.io.pos }

/-- The same outcome with its state changed. -/
def Flow.map {α : Type} (f : State → State) : Flow α → Flow α
  | .done a s => .done a (f s)
  | .raised x s => .raised x (f s)

/-- Making the change before the operation is making it after. -/
def Ignores {α : Type} (c : Change) (m : State → Flow α) : Prop := ∀ s, m (c.apply s) = (m s).map c.apply

section Ignores
variable {α β : Type} {c : Change}

theorem ignores_done (a : α) {f : State → State} (hf : ∀ s, f (c.apply s) = c.apply (f s)) :
    Ignores c fun s => Flow.done a (f s) := fun s => congrArg (Flow.done a) (hf s)

theorem Ignores.andThen {m : State → Flow α} {k : α → State → Flow β} (hm : Ignores c m) (hk : ∀ a, Ignores c (k a)) :
    Ignores c fun s => (m s).andThen k := fun s => by
  show (m (c.apply s)).andThen k = ((m s).andThen k).map c.apply
  rw [hm s]
  cases m s with
  | done a t => exact hk a t
  | raised x t => rfl

/-- An operation after an assignment. -/
theorem Ignores.after {m : State → Flow α} {f : State → State} (hm : Ignores c m)
    (hf : ∀ s, f (c.apply s) = c.apply (f s)) : Ignores c fun s => m (f s) := fun s => by
  show m (f (c.apply s)) = (m (f s)).map c.apply
  rw [hf s, hm]

/-! ### Transactions and frame reads -/

theorem ignores_pinWrite (name : State → PinId) (hname : ∀ s, name (c.apply s) = name s) (l : Level) :
    Ignores c fun s => pinWrite (name s) l s := fun s => by
  have hans : (c.apply s).nextAnswer = s.nextAnswer := rfl
  simp only [pinWrite_eq, hname, hans]
  split <;> rfl

theorem ignores_sampleBit : Ignores c sampleBit := by
  refine Ignores.andThen (m := fun s => pinRead s.cfg.dataPin s) (fun s => ?_) fun l => ignores_done () fun _ => rfl
  have hans : (c.apply s).nextAnswer = s.nextAnswer := rfl
  simp only [pinRead_eq, hans]
  split <;> rfl

theorem ignores_framePin (ch done : Nat) : Ignores c (framePin ch done) := fun s => by
  have hselect := ignores_pinWrite (c := c) (fun s => s.csPinAt ch) fun _ => rfl
  have hclock := ignores_pinWrite (c := c) (fun s => s.cfg.clkPin) fun _ => rfl
  unfold framePin
  split
  · exact hselect .low s
  · split
    · exact (hselect .high).andThen (fun _ => ignores_done () (f := latchFrame) fun _ => rfl) s
    · split
      · exact hclock .low s
      · exact ignores_sampleBit s
      · exact hclock .high s

theorem ignores_framePins (ch m k : Nat) : Ignores c (framePins ch m k) := by
  induction m generalizing k with
  | zero => exact fun _ => rfl
  | succ m ih => exact (ignores_framePin ch k).andThen fun _ => ih (k + 1)

theorem ignores_readFrame (ch : Nat) : Ignores c (readFrame ch) := by
  have h : Ignores c fun s => framePins ch 98 0 (frameHead ch s) := (ignores_framePins ch 98 0).after fun _ => rfl
  exact fun s => by simpa only [readFrame_eq_framePins] using h s

theorem finishTc_apply (s : State) : finishTc (c.apply s) = c.apply (finishTc s) := by
  by_cases h : classifyFrame s.dp.frame = .none
  · rw [finishTc_reading s h, finishTc_reading (c.apply s) h]; rfl
  · rw [finishTc_fault s h, finishTc_fault (c.apply s) h]; rfl

theorem ignores_readReading (ch : Nat) : Ignores c (readReading ch) :=
  Ignores.andThen ((ignores_readFrame ch).andThen fun _ => ignores_done () fun _ => rfl) fun _ =>
    (ignores_readFrame ch).andThen fun _ => ignores_done () finishTc_apply

/-! ### PH_SAMPLE -/

theorem ignores_sampleChannels (is : List Nat) : Ignores c (sampleChannels is) := by
  induction is with
  | nil => exact fun _ => rfl
  | cons i is ih =>
    have after : Ignores c (afterReading i is) := fun s => by
      cases hf : s.faulted with
      | false =>
        rw [afterReading_goes_on hf, afterReading_goes_on (s := c.apply s) hf]
        exact ih.after (f := stageReading i) (fun _ => rfl) s
      | true =>
        cases hp : s.cfg.policy with
        | haltOnFault =>
          rw [afterReading_halts hf hp, afterReading_halts (s := c.apply s) hf hp]
          rfl
        | quarantineFaultingChannel =>
          rw [afterReading_quarantines hf hp, afterReading_quarantines (s := c.apply s) hf hp]
          exact ih.after (f := fun s => quarantine i (stageReading i s)) (fun _ => rfl) s
    intro s
    cases hq : s.quarAt i with
    | true =>
      rw [sampleChannels_quarantined i is s hq, sampleChannels_quarantined i is (c.apply s) hq]
      exact ih.after (f := fun s => stageQuarantined i (visit i s)) (fun _ => rfl) s
    | false =>
      rw [sampleChannels_read i is s hq, sampleChannels_read i is (c.apply s) hq]
      exact ((ignores_readReading i).after (f := visit i) fun _ => rfl).andThen (fun _ => after) s

theorem ignores_phSample : Ignores c phSample := fun s =>
  (ignores_sampleChannels s.channels).after (f := clearStaging) (fun _ => rfl) s

/-! ### Stop, Abort and what an operation leaves -/

theorem releasePins_apply (ps : List PinId) (k : Nat) (s : State) :
    releasePins ps k (c.apply s) = ((releasePins ps k s).1, c.apply (releasePins ps k s).2) := by
  induction ps generalizing k s with
  | nil => rfl
  | cons p ps ih =>
    have hdir : (c.apply s).pdir p = s.pdir p := rfl
    simp only [releasePins, hdir]
    split
    · exact ih (k + 1) (releasePin p s)
    · exact ih k s

theorem release_apply (s : State) : release (c.apply s) = c.apply (release s) := by
  have h := releasePins_apply (c := c) s.busPins 0 s
  unfold release
  simp only [show (c.apply s).busPins = s.busPins from rfl, h]
  rfl

/-- The end of a session leaves no place inside PH_SAMPLE, so the change must make none. -/
theorem endSession_apply (hc : c.pos none = none) (lc : LoopState) (reason : StopReason) (s : State) :
    endSession lc reason (c.apply s) = c.apply (endSession lc reason s) := by
  unfold endSession
  rw [← release_apply]
  simp [Change.apply, State.emit, hc]

theorem settle_map (hc : c.pos none = none) (m : Flow α) : (m.map c.apply).settle = c.apply m.settle := by
  cases m with
  | done a s => rfl
  | raised x s => exact endSession_apply hc .aborted x.reason s

theorem Ignores.settle (hc : c.pos none = none) {m : State → Flow α} (hm : Ignores c m) (s : State) :
    (m (c.apply s)).settle = c.apply (m s).settle := by
  rw [hm s, settle_map hc]

/-! ### The other steps -/

theorem memWrite_apply (ch t : Nat) (e : Word32) (s : State) :
    memWrite ch t e (c.apply s) = c.apply (memWrite ch t e s) := rfl

theorem writeColumn_apply (f : Nat → Word32) (t : Nat) (chs : List Nat) (s : State) :
    writeColumn f t chs (c.apply s) = c.apply (writeColumn f t chs s) := by
  induction chs generalizing s with
  | nil => rfl
  | cons ch chs ih => rw [writeColumn, memWrite_apply, ih, writeColumn]

theorem ignores_phAppend : Ignores c phAppend := fun s => by
  by_cases h : s.tab.stageLen = s.cfg.nch
  · have hcolumns : ∀ f g : Nat → Word32, writeColumn g s.buf.len.toNat s.channels
        (writeColumn f s.buf.len.toNat s.channels (c.apply s)) =
          c.apply (writeColumn g s.buf.len.toNat s.channels (writeColumn f s.buf.len.toNat s.channels s)) :=
      fun f g => by rw [writeColumn_apply, writeColumn_apply]
    rw [phAppend_whole s h, phAppend_whole (c.apply s) h]
    exact congrArg (fun u : State => Flow.done () (({ u with buf.len := s.buf.len + 1 } : State).goto 3))
      (hcolumns (fun _ => entryEmpty) s.stageAt)
  · rw [phAppend_violation s h, phAppend_violation (c.apply s) h]
    rfl

theorem phTick_apply (s : State) : phTick (c.apply s) = c.apply (phTick s) := by
  rw [phTick_eq, phTick_eq]
  rfl

/-- PH_BOUNDARY reads INT_PENDING, so the change must keep it (rule R182). -/
theorem phBoundary_apply (hc : c.pos none = none) (hint : c.intPending = id) (s : State) :
    phBoundary (c.apply s) = c.apply (phBoundary s) := by
  have hpending : (c.apply s).fl.intPending = s.fl.intPending := congrFun hint _
  rcases Nat.lt_or_ge s.sq.tick.toNat s.cfg.maxTicks.toNat with h | h
  · cases hp : s.fl.intPending with
    | true =>
      rw [phBoundary_interrupted h hp, phBoundary_interrupted (s := c.apply s) h (hpending.trans hp)]
      exact endSession_apply hc _ _ s
    | false =>
      rw [phBoundary_continues h hp, phBoundary_continues (s := c.apply s) h (hpending.trans hp)]
      rfl
  · rw [phBoundary_completed h, phBoundary_completed (s := c.apply s) h]
    exact endSession_apply hc _ _ s

/-- The steps that read no field of a `Change`, which is every one but PH_BOUNDARY (rule R204). -/
theorem exec_apply_of_sequencerStep (hc : c.pos none = none) {i : Instr}
    (hi : i ∈ [.phSample, .phAppend, .phTelem, .phTick, .phSleep, .phHalt]) {s t : State} (h : exec i s = .next t) :
    exec i (c.apply s) = .next (c.apply t) := by
  simp only [List.mem_cons, List.not_mem_nil, or_false] at hi
  rcases hi with rfl | rfl | rfl | rfl | rfl | rfl <;> cases h <;> refine congrArg Host.Outcome.next ?_
  · exact ignores_phSample.settle hc s
  · exact ignores_phAppend.settle hc s
  · rfl
  · exact phTick_apply s
  · rfl
  · exact endSession_apply hc .stopped .faultHalt (emitTelem s)

theorem exec_phBoundary_apply (hc : c.pos none = none) (hint : c.intPending = id) {s t : State}
    (h : exec .phBoundary s = .next t) : exec .phBoundary (c.apply s) = .next (c.apply t) := by
  cases h
  exact congrArg Host.Outcome.next (phBoundary_apply hc hint s)

end Ignores

/-- BUF_CH and BUF_TICK written (rule R51). -/
def windowChange (a : BitVec 6) (b : Word32) : Change := { selCh := fun _ => a, selTick := fun _ => b }

/-- BUF_CH and BUF_TICK written, and INT_PENDING. -/
def hostChange (a : BitVec 6) (b : Word32) (p : Bool) : Change := { windowChange a b with intPending := fun _ => p }

/-- Settles O17: writes to the window, and to INT_PENDING, are changes the steps ignore. -/
theorem sequencerIgnoresHostWindow : Obligations.SequencerIgnoresHostWindow := by
  intro i s t a b p h
  refine ⟨fun hi => ?_, fun hi => exec_apply_of_sequencerStep (c := hostChange a b p) rfl hi h⟩
  rcases List.mem_cons.mp hi with rfl | hi
  · exact exec_phBoundary_apply (c := windowChange a b) rfl rfl h
  · exact exec_apply_of_sequencerStep (c := windowChange a b) rfl hi h

end Sys2Proof.Machine

/-! PH_SAMPLE by micro-steps (spec/47_host_bus.md rule R203) comes to the state the whole step gives (rule R204). The
whole step has no place inside it, so its end is reached with the place taken away. -/

namespace Sys2Proof.Machine

/-! ### A place inside the step -/

/-- The place inside PH_SAMPLE set to `q`. -/
def State.withPos (q : Option SamplePos) (s : State) : State := { s with io.pos := q }

/-- A place set is a change no operation reads. -/
def placeChange (q : Option SamplePos) : Change := { pos := fun _ => q }

theorem withPos_eq_apply (q : Option SamplePos) (s : State) : s.withPos q = (placeChange q).apply s := rfl

theorem withPos_none_of_pos {s : State} (h : s.io.pos = none) : s.withPos none = s := by
  rw [State.withPos, ← h]

/-- An abort is over with any place (rule R214). -/
theorem abort_withPos (q : Option SamplePos) (x : Cause) (s : State) : abort x (s.withPos q) = abort x s := rfl

theorem withPos_none_abort (x : Cause) (s : State) : (abort x s).withPos none = abort x s :=
  (endSession_apply (c := placeChange none) rfl .aborted x.reason s).symm

theorem finishTc_withPos (q : Option SamplePos) (s : State) : finishTc (s.withPos q) = (finishTc s).withPos q :=
  finishTc_apply (c := placeChange q) s

/-- A micro-step inside a frame is the transaction of the place, then what follows it there; a failure aborts. -/
theorem sampleMicro_withPos (p : SamplePos) (s : State) :
    sampleMicro (s.withPos (some p)) = ((framePin s.sq.ch.toNat p.done s).andThen fun _ t =>
      .done () (afterFramePin p s.sq.ch.toNat (t.withPos (some p)))).settle := by
  have hpin := ignores_framePin (c := placeChange (some p)) s.sq.ch.toNat p.done s
  show ((framePin s.sq.ch.toNat p.done (s.withPos (some p))).andThen fun _ t =>
    .done () (afterFramePin p s.sq.ch.toNat t)).settle = _
  rw [withPos_eq_apply, hpin]
  cases framePin s.sq.ch.toNat p.done s with
  | done a t => rfl
  | raised x t => exact abort_withPos (some p) x t

/-! ### Micro-steps until the step is over -/

/-- Micro-steps lead from the first state to the second, with the step in progress in every state before the second. -/
inductive MicroRun : State → State → Prop
  | ended (s : State) : MicroRun s s
  | micro (s t : State) (inside : s.io.pos.isSome = true) (rest : MicroRun (sampleMicro s) t) : MicroRun s t

theorem MicroRun.iterate {s t : State} (h : MicroRun s t) :
    ∃ n, sampleMicro^[n] s = t ∧ ∀ m, m < n → (sampleMicro^[m] s).io.pos.isSome = true := by
  induction h with
  | ended s => exact ⟨0, rfl, nofun⟩
  | micro s t inside _ ih =>
    obtain ⟨n, hn, hbefore⟩ := ih
    refine ⟨n + 1, hn, fun m hm => ?_⟩
    cases m with
    | zero => exact inside
    | succ m => exact hbefore m (Nat.lt_of_succ_lt_succ hm)

/-- The micro-steps from `s` come to what the rest `m` of the whole step leaves. -/
def Refines (s : State) (m : Flow Unit) : Prop := MicroRun s (m.settle.withPos none)

theorem refines_done (s : State) : Refines (s.withPos none) (.done () s) := .ended _

theorem refines_raised (x : Cause) (s : State) : Refines (abort x s) (.raised x s) := by
  rw [Refines, Flow.settle_raised, withPos_none_abort]
  exact .ended _

/-! ### A frame read -/

theorem Flow.post_andThen {α β : Type} {m : Flow α} {k : α → State → Flow β} {P : β → State → Prop}
    {Q : Cause → State → Prop} : (m.andThen k).Post P Q ↔ m.Post (fun a t => (k a t).Post P Q) Q := by
  cases m <;> rfl

section Frame
variable {second : Bool} {ch : Nat} {K : State → Flow Unit}

/-- The transactions of a frame read from number `k` on, one micro-step each. -/
theorem refines_framePins (m k : Nat) (s : State) (hch : s.sq.ch.toNat = ch) (hk : k + (m + 1) = 98)
    (last : (framePins ch (m + 1) k s).Post
      (fun _ t => Refines (afterFramePin ⟨second, 97⟩ ch (t.withPos (some ⟨second, 97⟩))) (K t)) fun _ _ => True) :
    Refines (s.withPos (some ⟨second, k⟩)) ((framePins ch (m + 1) k s).andThen fun _ t => K t) := by
  induction m generalizing k s with
  | zero =>
    obtain rfl : k = 97 := by omega
    refine .micro _ _ rfl ?_
    rw [sampleMicro_withPos, hch]
    simp only [framePins, Flow.andThen_assoc, Flow.andThen_done, Flow.post_andThen, Flow.post_done] at last ⊢
    cases hpin : framePin ch 97 s with
    | done a t =>
      rw [hpin] at last
      exact last
    | raised x t => exact refines_raised x t
  | succ m ih =>
    have hsq := keeps_framePin ch k s
    refine .micro _ _ rfl ?_
    rw [sampleMicro_withPos, hch]
    rw [framePins] at last ⊢
    cases hpin : framePin ch k s with
    | done a t =>
      rw [hpin] at hsq last
      have hinside : afterFramePin ⟨second, k⟩ ch (t.withPos (some ⟨second, k⟩)) =
        t.withPos (some ⟨second, k + 1⟩) := if_pos (by show k < 97; omega)
      show Refines (afterFramePin ⟨second, k⟩ ch (t.withPos (some ⟨second, k⟩))) _
      rw [hinside]
      exact ih (k + 1) t (by rw [hsq.2, hch]) (by omega) last
    | raised x t => exact refines_raised x t

theorem refines_readFrame {s : State} (hch : ch < 64)
    (last : (readFrame ch s).Post
      (fun _ t => Refines (afterFramePin ⟨second, 97⟩ ch (t.withPos (some ⟨second, 97⟩))) (K t)) fun _ _ => True) :
    Refines ((frameHead ch s).withPos (some ⟨second, 0⟩)) ((readFrame ch s).andThen fun _ t => K t) := by
  have hname : (frameHead ch s).sq.ch.toNat = ch := (BitVec.toNat_ofNat ch 6).trans (Nat.mod_eq_of_lt hch)
  rw [readFrame_eq_framePins] at last ⊢
  exact refines_framePins 97 0 _ hname rfl last

/-- The two frame reads of a channel's visit (rule R157). -/
theorem refines_readReading {s : State} (hch : ch < 64)
    (leave : (readReading ch s).Post (fun _ t => Refines (leaveChannel ch (t.withPos (some ⟨true, 97⟩))) (K t))
      fun _ _ => True) :
    Refines ((frameHead ch s).withPos (some ⟨false, 0⟩)) ((readReading ch s).andThen fun _ t => K t) := by
  simp only [readReading, getRj, getTc, Flow.andThen_assoc, Flow.andThen_done, Flow.post_andThen, Flow.post_done]
    at leave ⊢
  refine refines_readFrame hch (leave.mono (fun _ t ht => ?_) fun _ _ _ => trivial)
  refine refines_readFrame (s := finishRj t) hch (ht.mono (fun _ u hu => ?_) fun _ _ _ => trivial)
  have hlast : afterFramePin ⟨true, 97⟩ ch (u.withPos (some ⟨true, 97⟩)) =
      leaveChannel ch ((finishTc u).withPos (some ⟨true, 97⟩)) := by
    rw [← finishTc_withPos]
    rfl
  rw [hlast]
  exact hu

end Frame

/-! ### The channels, and the whole step -/

/-- After the reading of channel `i`: staged, then halted, quarantined or on to the next channel (rules R165 to
R167). -/
theorem refines_leaveChannel {i : Nat} {is : List Nat} {s : State} (q : Option SamplePos)
    (hrest : s.channels.drop (i + 1) = is)
    (next : ∀ t, t.cfg = s.cfg → Refines (enterChannels is (t.withPos q)) (sampleChannels is t)) :
    Refines (leaveChannel i (s.withPos q)) (afterReading i is s) := by
  have hchannels : (stageReading i (s.withPos q)).channels = s.channels := rfl
  have hfaulted : (stageReading i (s.withPos q)).faulted = s.faulted := rfl
  have hpolicy : (stageReading i (s.withPos q)).cfg.policy = s.cfg.policy := rfl
  unfold leaveChannel
  simp only [hchannels, hrest, hfaulted, hpolicy]
  cases hf : s.faulted with
  | false =>
    rw [afterReading_goes_on hf]
    exact next (stageReading i s) rfl
  | true =>
    cases hp : s.cfg.policy with
    | haltOnFault =>
      rw [afterReading_halts hf hp]
      exact refines_done (haltSession (stageReading i s))
    | quarantineFaultingChannel =>
      rw [afterReading_quarantines hf hp]
      exact next (quarantine i (stageReading i s)) rfl

/-- The last `m` channels, from number `k` on. -/
theorem refines_enterChannels (m k : Nat) (q : Option SamplePos) (s : State) (hk : k + m = s.cfg.nch.toNat) :
    Refines (enterChannels (List.range' k m) (s.withPos q)) (sampleChannels (List.range' k m) s) := by
  induction m generalizing k q s with
  | zero => exact refines_done (s.goto 2)
  | succ m ih =>
    have hnext : k + 1 + m = s.cfg.nch.toNat := by omega
    rw [List.range'_succ]
    cases hq : s.quarAt k with
    | true =>
      rw [enterChannels_quarantined k _ (s.withPos q) hq, sampleChannels_quarantined k _ s hq]
      exact ih (k + 1) q (stageQuarantined k (visit k s)) hnext
    | false =>
      have hch : k < 64 := by have := s.cfg.nch.isLt; omega
      rw [enterChannels_reads k _ (s.withPos q) hq, sampleChannels_read k _ s hq]
      refine refines_readReading (s := visit k s) hch ?_
      refine (acquires_readReading k (visit k s)).mono (fun _ t ht => ?_) fun _ _ _ => trivial
      have hcfg : t.cfg = s.cfg := ht.cfg
      have hrest : t.channels.drop (k + 1) = List.range' (k + 1) m := by
        rw [channels_drop, hcfg, ← hnext, Nat.add_sub_cancel_left]
      exact refines_leaveChannel _ hrest fun u hu => ih (k + 1) _ u (by rw [hu, hcfg, hnext])

/-- A whole PH_SAMPLE from no place leaves none. -/
theorem phSample_settle_withPos_none {s : State} (h : s.io.pos = none) :
    (phSample s).settle.withPos none = (phSample s).settle := by
  have hsettle := ignores_phSample.settle (c := placeChange none) rfl s
  rw [← withPos_eq_apply, ← withPos_eq_apply, withPos_none_of_pos h] at hsettle
  exact hsettle.symm

theorem microRun_phSample {s : State} (h : s.io.pos = none) : MicroRun (sampleMicro s) (phSample s).settle := by
  have hmicro : sampleMicro s = enterChannels s.channels (clearStaging s) := by rw [sampleMicro, h]
  have hrun := refines_enterChannels s.cfg.nch.toNat 0 none (clearStaging s) (Nat.zero_add _)
  have hwhole := phSample_settle_withPos_none h
  rw [withPos_none_of_pos (s := clearStaging s) h, ← channels_eq_range', ← hmicro] at hrun
  rw [← hwhole]
  exact hrun

/-- Settles O16: the first micro-step is the head of PH_SAMPLE, and the run after it ends where the whole step does. -/
theorem microStepsMakeWholeStep : Obligations.MicroStepsMakeWholeStep := by
  intro s hpos
  obtain ⟨n, hn, hbefore⟩ := (microRun_phSample hpos).iterate
  refine ⟨n, congrArg Host.Outcome.next hn.symm, fun m h0 hm => ?_⟩
  obtain ⟨m, rfl⟩ := Nat.exists_eq_succ_of_ne_zero h0.ne'
  exact hbefore m hm

end Sys2Proof.Machine

/-! Commands (spec/47_host_bus.md rules R196 to R200): every operation answers, a write to CMD runs the command its word
selects, and ERR = Busy tells that the LC state does not accept the command. -/

namespace Sys2Proof.Machine

/-- Settles O7, operation by operation. -/
theorem everyOperationAnswersNext : Obligations.EveryOperationAnswersNext := exec_answers

/-! ### A write to CMD (rule R198) -/

section Write
variable {w : Word32} {i : Instr}

/-- A legal word's low half is a CMD word (rule R84). -/
theorem decodeCmd_of_decodeCmdWrite (h : decodeCmdWrite w = some i) : decodeCmd (w.extractLsb' 0 16) = some i := by
  unfold decodeCmdWrite at h
  split at h
  · exact h
  · cases h

theorem isCommand_of_decodeCmdWrite (h : decodeCmdWrite w = some i) : isCommand i = true :=
  decodeCmd_isCommand _ i (decodeCmd_of_decodeCmdWrite h)

theorem wellFormed_of_decodeCmdWrite (h : decodeCmdWrite w = some i) : i.wellFormed = true :=
  (encodeOfDecode.1 _ i (decodeCmd_of_decodeCmdWrite h)).2

/-- The command decoder's arms are those of `exec`. -/
theorem command_eq_exec (h : decodeCmdWrite w = some i) (s : State) : command w s = exec i s := by
  have hc := isCommand_of_decodeCmdWrite h
  rw [command, h]
  cases i with
  | claim | release | rdframe | tcfield | rjfield | classify | tounit | getrj | get | rdreading | start | intr => rfl
  | _ => cases hc

theorem exec_regwr_cmd (h : decodeCmdWrite w = some i) (s : State) : exec (.regwr 0 w) s = exec i s :=
  command_eq_exec h s

end Write

/-- Settles O5: REGWR of CMD is `command`, and that runs what `exec` runs. -/
theorem commandWriteRunsCommand : Obligations.CommandWriteRunsCommand := fun _ _ s h => exec_regwr_cmd h s

/-! ### What accepted commands leave in ERR (rules R198, R199) -/

/-- `t` has the ERR of `s`. -/
def SameErr (s t : State) : Prop := t.fl.err = s.fl.err

theorem sameErr_trans (s t u : State) (h : SameErr s t) (k : SameErr t u) : SameErr s u := k.trans h

theorem SameErr.of_fl {s t : State} (h : t.fl = s.fl) : SameErr s t := congrArg Flags.err h

/-- The abort, where one follows, leaves ERR too (rule R214). -/
theorem Flow.Keeps.err_settle {α : Type} {s : State} {m : Flow α} (h : m.Keeps SameErr s) :
    m.settle.fl.err = s.fl.err := by
  rcases h.settle_cases with k | ⟨t, k, e⟩
  · exact k
  · rw [e, (abort_spec .transportFailure t).fl]
    exact k

theorem keepsErr_channelBody {body : Nat → State → Flow Unit} (hb : body ∈ channelBodies) (ch : Nat) (s : State) :
    (body ch s).Keeps SameErr s :=
  (acquires_channelBody hb ch s).mono (fun _ _ h => .of_fl h.fl) fun _ _ h => ⟨h.1, .of_fl h.2.fl⟩

theorem keepsErr_claimPins (s : State) : (claimPins s).Keeps SameErr s := by
  refine (claimPins_spec s).mono ?_ fun _ _ h => ⟨h.1, .of_fl h.2.fl⟩
  rintro _ _ ⟨u, hu, rfl⟩
  exact (SameErr.of_fl hu.fl : SameErr s u)

theorem keepsErr_claimAndStart (s : State) :
    ((claimPins s).andThen fun _ t => .done () (enterRunning t)).Keeps SameErr s :=
  (keepsErr_claimPins s).andThen (k := fun _ t => Flow.done () (enterRunning t)) sameErr_trans fun _ t =>
    SameErr.of_fl (enterRunning_fl t)

/-! ### The commands Idle alone accepts (rule R200) -/

/-- The commands Idle alone accepts. -/
def idleOnly : Instr → Bool
  | .claim | .rdframe _ | .tcfield | .rjfield | .classify | .tounit _ _ | .getrj _ | .get _ | .rdreading _
  | .start => true
  | .release | .intr | .setdir _ _ | .write _ _ | .read _ | .phBoundary | .phSample | .phAppend | .phTelem | .phTick
  | .phSleep | .phHalt | .regrd _ | .regwr _ _ => false

/-- `i` runs its own tests and its effect `k` in Idle and is refused with Busy elsewhere; `k` itself never answers Busy.
-/
structure IdleCommand (i : Instr) (k : State → State) : Prop where
  exec_eq : ∀ s, exec i s = .next (inIdle s k)
  err : ∀ s, (k s).fl.err ≠ .busy

theorem err_ne_busy_of_none {s : State} (h : s.fl.err = .none) : s.fl.err ≠ .busy := by simp [h]

theorem idleCommand_claim : ∃ k, IdleCommand .claim k := by
  refine ⟨_, fun _ => rfl, fun s => ?_⟩
  split
  · nofun
  · split
    · exact err_ne_busy_of_none (keepsErr_claimPins (accept s)).err_settle
    · nofun

theorem idleCommand_start : ∃ k, IdleCommand .start k := by
  refine ⟨_, fun _ => rfl, fun s => ?_⟩
  split
  · nofun
  · split
    · nofun
    · split
      · exact err_ne_busy_of_none (keepsErr_claimAndStart (accept s)).err_settle
      · nofun

theorem idleCommand_channel {i : Instr} {ch : BitVec 8} (hi : i ∈ [.rdframe ch, .getrj ch, .get ch, .rdreading ch]) :
    ∃ k, IdleCommand i k := by
  obtain ⟨body, hb, hexec⟩ := exec_channelCommand hi
  refine ⟨_, hexec, fun s => ?_⟩
  split
  · nofun
  · split
    · nofun
    · exact err_ne_busy_of_none (keepsErr_channelBody hb ch.toNat (accept s)).err_settle

/-- Every code but 3 stands for a unit (rule R40). -/
theorem tempUnit_ofCode_answers : ∀ c : BitVec 2, c ≠ 3 → (TempUnit.ofCode c).isSome = true := by decide

theorem idleCommand_tounit (src : Path) {unit : BitVec 2} (h : unit ≠ 3) : ∃ k, IdleCommand (.tounit src unit) k := by
  obtain ⟨u, hu⟩ := Option.isSome_iff_exists.mp (tempUnit_ofCode_answers unit h)
  refine ⟨fun s => toUnit src u (accept s), fun s => ?_, fun _ => nofun⟩
  show execTounit src unit s = _
  rw [execTounit, hu]

theorem idleCommand_of_idleOnly {i : Instr} (hi : idleOnly i = true) (hw : i.wellFormed = true) :
    ∃ k, IdleCommand i k := by
  cases i with
  | claim => exact idleCommand_claim
  | start => exact idleCommand_start
  | rdframe ch | getrj ch | get ch | rdreading ch => exact idleCommand_channel (ch := ch) (by simp)
  | tounit src unit => exact idleCommand_tounit src (by simpa [Instr.wellFormed] using hw)
  | tcfield => exact ⟨_, fun _ => rfl, fun _ => nofun⟩
  | rjfield => exact ⟨_, fun _ => rfl, fun _ => nofun⟩
  | classify => exact ⟨_, fun _ => rfl, fun _ => nofun⟩
  | _ => cases hi

section Busy
variable {i : Instr} {k : State → State} {s t : State}

theorem IdleCommand.exec_busy (h : IdleCommand i k) (hlc : s.sq.lc ≠ .idle) : exec i s = .next (refuse .busy s) := by
  rw [h.exec_eq, inIdle_busy hlc]

theorem IdleCommand.err_eq_busy_iff (h : IdleCommand i k) (ht : exec i s = .next t) :
    t.fl.err = .busy ↔ s.sq.lc ≠ .idle := by
  by_cases hlc : s.sq.lc = .idle
  · rw [h.exec_eq, inIdle_idle hlc] at ht
    cases ht
    exact iff_of_false (h.err s) (not_not_intro hlc)
  · rw [h.exec_busy hlc] at ht
    cases ht
    exact iff_of_true rfl hlc

/-- RELEASE is refused in Running alone (rules R114, R200). -/
theorem exec_release_running (hr : s.sq.lc = .running) : exec .release s = .next (refuse .busy s) :=
  congrArg Host.Outcome.next (if_pos hr)

theorem release_err_eq_busy_iff (ht : exec .release s = .next t) : t.fl.err = .busy ↔ s.sq.lc = .running := by
  by_cases hr : s.sq.lc = .running
  · rw [exec_release_running hr] at ht
    cases ht
    exact iff_of_true rfl hr
  · have hrel : releaseCommand s = release (accept s) := if_neg hr
    cases ht
    rw [hrel, (release_spec (accept s)).fl]
    exact iff_of_false nofun hr

theorem isCommand_cases (hc : isCommand i = true) : i = .release ∨ i = .intr ∨ idleOnly i = true := by
  cases i with
  | release => exact .inl rfl
  | intr => exact .inr (.inl rfl)
  | _ => exact .inr (.inr hc)

/-- The rows of rule R200's table: which commands answer Busy, and where. -/
theorem command_err_eq_busy_iff (hc : isCommand i = true) (hw : i.wellFormed = true) (ht : exec i s = .next t) :
    t.fl.err = .busy ↔ (i = .release ∧ s.sq.lc = .running) ∨ (i ≠ .release ∧ i ≠ .intr ∧ s.sq.lc ≠ .idle) := by
  rcases isCommand_cases hc with rfl | rfl | hi
  · simpa using release_err_eq_busy_iff ht
  · cases (exec_intr s).symm.trans ht
    exact iff_of_false nofun (by simp)
  · obtain ⟨k, hk⟩ := idleCommand_of_idleOnly hi hw
    have hrelease : i ≠ .release := by rintro rfl; cases hi
    have hintr : i ≠ .intr := by rintro rfl; cases hi
    simpa [hrelease, hintr] using hk.err_eq_busy_iff ht

end Busy

/-- Settles O37: a command Idle alone accepts is an `IdleCommand`, and RELEASE and INTR have their own rows. -/
theorem busyCommands : Obligations.BusyCommands := by
  refine ⟨fun i s => ⟨fun hi hlc => ?_, ?_⟩, fun w i s t hd ht => ?_⟩
  · have hcmd : idleOnly i = true ∧ i.wellFormed = true := by
      simp only [List.mem_cons, List.not_mem_nil, or_false] at hi
      rcases hi with hi | ⟨ch, hi⟩ | ⟨src, unit, rfl, h⟩
      · rcases hi with rfl | rfl | rfl | rfl | rfl <;> exact ⟨rfl, rfl⟩
      · rcases hi with rfl | rfl | rfl | rfl <;> exact ⟨rfl, rfl⟩
      · exact ⟨rfl, bne_iff_ne.mpr h⟩
    obtain ⟨k, hk⟩ := idleCommand_of_idleOnly hcmd.1 hcmd.2
    exact hk.exec_busy hlc
  · rintro rfl hr
    exact exec_release_running hr
  · rw [exec_regwr_cmd hd] at ht
    exact command_err_eq_busy_iff (isCommand_of_decodeCmdWrite hd) (wellFormed_of_decodeCmdWrite hd) ht

end Sys2Proof.Machine

/-! The turn of the reset input (rule R240). -/

namespace Sys2Proof.Machine

variable {s : State} {ts : List Turn}

/-- The reset input comes before whatever the core has waiting: a PIN word, a step in progress, a phase. -/
theorem nextAction_reset (h : s.io.turns = .reset :: ts) : nextAction s = .reset s.popTurn := by
  simp [nextAction, h]

/-- Of the state the reset input finds, only the parameters and the agents outside the core reach the next one
(assumption log 11). -/
theorem resetInput_popTurn (h : s.io.turns = .reset :: ts) :
    resetInput s.popTurn =
      { State.reset with params := s.params, io := { s.io with turns := ts, port := 0, pos := none } } := by
  have hturns : s.io.turns.tail = ts := congrArg List.tail h
  simp [resetInput, hturns]

/-- Settles O10: the turn's action is the reset input, and its state is the reset state with what lies outside the core. -/
theorem resetInputResets : Obligations.ResetInputResets := by
  intro s ts hb h
  calc step s = .next (resetInput s.popTurn) := step_of_reset hb (nextAction_reset h)
    _ = _ := congrArg Host.Outcome.next (resetInput_popTurn h)

end Sys2Proof.Machine
